-- ==== Sys2Proof/Word.lean ====
section
/-!
DEFINITION. The word types of the block.

An instruction is one 64-bit word, bit 0 the least significant (30_encoding R82). A scalar of the running
machine is a BINARY64 bit pattern (00_scope R8); its arithmetic stands in Machine/Binary64.lean. Addresses,
the program counter and the cycle counter are naturals that never wrap (00_scope R11).
-/

namespace Sys2Proof

/-- One instruction word (30_encoding R82). -/
abbrev Word := BitVec 64

/-- One scalar of the BINARY64 machine, as its bit pattern (00_scope R8 (ii)). -/
abbrev Scalar := BitVec 64

/-- One byte of the serialised form of a word (20_memory R58). -/
abbrev Byte := BitVec 8

end Sys2Proof
end

