-- ==== Sys2Proof/Config.lean ====
section
/-!
DEFINITION. What an implementation of the block fixes, and the values the spec leaves free.

The free values are opaque constants without a body: no proof can see what they are, so a claim holds whatever
they are. The ranges their types carry are the limits the spec sets on them.
-/

namespace Sys2Proof

/-- The parameters of the block (00_scope R5 to R7, 10_state R36). `N = 0` is not an admitted configuration
(R5, 93_implementation_defined item 2): the proof field makes it unwritable. -/
structure Config where
  /-- The array side (R5). -/
  N : Nat
  /-- MAIN_CAP, the cells of main memory (R6). -/
  mainCap : Nat
  /-- BUF_CAP, the cells of the buffer (R6). -/
  bufCap : Nat
  /-- PROG_CAP, the slots of the program store; `none` is the unbounded store of decision D6 (R7). -/
  progCap : Option Nat
  /-- R5: "This spec requires N >= 1". -/
  N_pos : 0 < N
deriving DecidableEq, Repr

/-- LOG_CAP (00_scope R9). -/
def logCap : Nat := 100

/-- The parameters `State.reset` is built with: the document's scenario has N = 4 and program P1 of
95_test_vectors runs with both capacities 64. DESIGN CHOICE (log 2): the spec leaves all of them OPEN. -/
def Config.reference : Config :=
  { N := 4, mainCap := 64, bufCap := 64, progCap := none, N_pos := by decide }

/-- The scalar operations whose result can be a NaN the spec does not pick. -/
inductive NaNSource where
  | add | mul | div | exp | tanh | relu
deriving DecidableEq, Repr

/-- The sign of the NaN an operation returns on its operands: free (93_implementation_defined item 9; log 4). -/
opaque Config.nanSign : NaNSource → Scalar → Scalar → Bool

/-- The fraction field, less one, of the NaN an operation returns on its operands: free, any of the 2^52 − 1
nonzero fractions (93_implementation_defined item 9; log 4). -/
opaque Config.nanPayload : NaNSource → Scalar → Scalar → Fin 4503599627370495

/-- EXP on a finite nonzero operand (45_activate R223, decision D2): free, any bit pattern from +0 to +∞
(DEDUCED from R227 and 90_conflicts C2, log 5: 0x7FF0000000000000 is the pattern of +∞). -/
opaque Config.expFinite : Scalar → Fin 0x7FF0000000000001

/-- The sign of TANH on a finite nonzero operand: free (45_activate R224, decision D2; log 6). -/
opaque Config.tanhSign : Scalar → Bool

/-- The magnitude pattern of TANH on a finite nonzero operand: free, any value in [0, 1] (45_activate R224: the
result "must lie in [−1, 1]"; 0x3FF0000000000000 is the pattern of 1; log 6). -/
opaque Config.tanhMagnitude : Scalar → Fin 0x3FF0000000000001

end Sys2Proof
end

