-- ==== Sys2Proof/Syntax.lean ====
section
/-!
DEFINITION. The instruction set as terms (30_encoding R80, R81): one constructor per row of spec/opcode_table.json.

All address and size fields are naturals, as in R81; which of them a 64-bit word can carry is the business of
WellFormed.lean. UNKNOWN(opc) of R81 is one constructor for each of the eleven reserved opcode values of R83, which are
rows of the table, and one for every other opcode, which only the abstract form has (log 13).
-/

namespace Sys2Proof

/-- ActFn of 30_encoding R81. -/
inductive ActFn where
  | relu
  | sigmoid
  | tanh
  /-- Any other function code or name; it executes as relu (45_activate R225). -/
  | other (code : Nat)
deriving DecidableEq, Repr

/-- The instructions. -/
inductive Instr where
  /-- LOAD: src a main address, dest a buffer address (43_data_movement R170). -/
  | load (src dest size : Nat)
  /-- STORE: src a buffer address, dest a main address (43_data_movement R171). -/
  | store (src dest size : Nat)
  /-- GEMM: three buffer addresses (44_gemm R190). -/
  | gemm (addrA addrB addrC : Nat)
  /-- ACTIVATE on `size` buffer cells from `addr` (45_activate R220). -/
  | activate (fn : ActFn) (addr size : Nat)
  /-- WAIT (46_control R240). -/
  | wait
  /-- The reserved opcode 0x0 (46_control R241), and so on for each reserved value. -/
  | unknown0
  | unknown6
  | unknown7
  | unknown8
  | unknown9
  | unknownA
  | unknownB
  | unknownC
  | unknownD
  | unknownE
  | unknownF
  /-- The abstract form's UNKNOWN(16 + beyond): an opcode that is not one of R80 and that no word can carry, "any tag
  outside rule R80" (46_control R241; log 13). -/
  | unknownAbove (beyond : Nat)
deriving DecidableEq, Repr

end Sys2Proof
end

