-- ==== Sys2Proof/WellFormed.lean ====
section
/-!
DEFINITION. Which instructions have an encoding (30_encoding R96): all fields below 65536, and an OTHER code from 3
to 15. An abstract instruction outside this still runs (R10); it has no word.
-/

namespace Sys2Proof

/-- A 16-bit operand field (30_encoding R87). -/
def fieldFits (n : Nat) : Bool := n < 65536

/-- The function codes R96 encodes: the three named ones, and OTHER(f) with 3 <= f <= 15. -/
def ActFn.wf : ActFn → Bool
  | .relu => true
  | .sigmoid => true
  | .tanh => true
  | .other code => 3 ≤ code && code ≤ 15

/-- 30_encoding R96: the instructions `encode` is defined for. -/
def Instr.wf : Instr → Bool
  | .load src dest size => fieldFits src && fieldFits dest && fieldFits size
  | .store src dest size => fieldFits src && fieldFits dest && fieldFits size
  | .gemm addrA addrB addrC => fieldFits addrA && fieldFits addrB && fieldFits addrC
  | .activate fn addr size => fn.wf && fieldFits addr && fieldFits size
  | .wait => true
  | .unknown0 => true
  | .unknown6 => true
  | .unknown7 => true
  | .unknown8 => true
  | .unknown9 => true
  | .unknownA => true
  | .unknownB => true
  | .unknownC => true
  | .unknownD => true
  | .unknownE => true
  | .unknownF => true
  | .unknownAbove _ => false

end Sys2Proof
end

