-- ==== Sys2Proof/Decode.lean ====
section
/-!
DEFINITION. The binary form of the instructions: field extraction, Decode (30_encoding R95), Encode (R96), and the
little-endian serialisation of a word (20_memory R58).

No 64-bit word is invalid (R95). Bytes are rejected by name only when there are too few of them to make a word.
-/

namespace Sys2Proof

/-! ## Fields (30_encoding R82, R87) -/

/-- OPC, bits [63:60]. -/
def opcField (w : Word) : BitVec 4 := w.extractLsb' 60 4

/-- FN, bits [59:56]. -/
def fnField (w : Word) : BitVec 4 := w.extractLsb' 56 4

/-- X, bits [47:32]. -/
def xField (w : Word) : BitVec 16 := w.extractLsb' 32 16

/-- Y, bits [31:16]. -/
def yField (w : Word) : BitVec 16 := w.extractLsb' 16 16

/-- Z, bits [15:0]. -/
def zField (w : Word) : BitVec 16 := w.extractLsb' 0 16

/-- zext_16 of R87 and R11: the field as a natural. -/
def zext16 (v : BitVec 16) : Nat := v.toNat

/-! ## Decode -/

/-- fnOf of R95, the table of R85. -/
def fnOf (f : BitVec 4) : ActFn :=
  match f.toNat with
  | 0 => .relu
  | 1 => .sigmoid
  | 2 => .tanh
  | code => .other code

/-- Decode of R95, total on every word. A four-bit opcode above 0xE is 0xF. -/
def decode (w : Word) : Instr :=
  let x := zext16 (xField w)
  let y := zext16 (yField w)
  let z := zext16 (zField w)
  match (opcField w).toNat with
  | 0x1 => .load x y z
  | 0x2 => .store x y z
  | 0x3 => .gemm x y z
  | 0x4 => .activate (fnOf (fnField w)) x z
  | 0x5 => .wait
  | 0x0 => .unknown0
  | 0x6 => .unknown6
  | 0x7 => .unknown7
  | 0x8 => .unknown8
  | 0x9 => .unknown9
  | 0xA => .unknownA
  | 0xB => .unknownB
  | 0xC => .unknownC
  | 0xD => .unknownD
  | 0xE => .unknownE
  | _ => .unknownF

/-! ## Encode -/

/-- A word from its fields, with RSV = 0 (R82): OPC from bit 60, FN from bit 56, X from bit 32, Y from bit 16. -/
def packWord (opc fn x y z : Nat) : Word :=
  BitVec.ofNat 64 (opc * 0x1000000000000000 + fn * 0x100000000000000 + x * 0x100000000 + y * 0x10000 + z)

/-- The FN code of an activation function (R85). -/
def ActFn.code : ActFn → Nat
  | .relu => 0
  | .sigmoid => 1
  | .tanh => 2
  | .other code => code

/-- The opcode value of an instruction (R83). -/
def Instr.opc : Instr → Nat
  | .load _ _ _ => 0x1
  | .store _ _ _ => 0x2
  | .gemm _ _ _ => 0x3
  | .activate _ _ _ => 0x4
  | .wait => 0x5
  | .unknown0 => 0x0
  | .unknown6 => 0x6
  | .unknown7 => 0x7
  | .unknown8 => 0x8
  | .unknown9 => 0x9
  | .unknownA => 0xA
  | .unknownB => 0xB
  | .unknownC => 0xC
  | .unknownD => 0xD
  | .unknownE => 0xE
  | .unknownF => 0xF
  | .unknownAbove beyond => 0x10 + beyond

/-- The word of an instruction by the tables of R83 to R85; every ignored bit is 0. It means something on well-formed
instructions only. -/
def encodeWord (i : Instr) : Word :=
  match i with
  | .load src dest size => packWord i.opc 0 src dest size
  | .store src dest size => packWord i.opc 0 src dest size
  | .gemm addrA addrB addrC => packWord i.opc 0 addrA addrB addrC
  | .activate fn addr size => packWord i.opc fn.code addr 0 size
  | .wait => packWord i.opc 0 0 0 0
  | .unknown0 => packWord i.opc 0 0 0 0
  | .unknown6 => packWord i.opc 0 0 0 0
  | .unknown7 => packWord i.opc 0 0 0 0
  | .unknown8 => packWord i.opc 0 0 0 0
  | .unknown9 => packWord i.opc 0 0 0 0
  | .unknownA => packWord i.opc 0 0 0 0
  | .unknownB => packWord i.opc 0 0 0 0
  | .unknownC => packWord i.opc 0 0 0 0
  | .unknownD => packWord i.opc 0 0 0 0
  | .unknownE => packWord i.opc 0 0 0 0
  | .unknownF => packWord i.opc 0 0 0 0
  | .unknownAbove _ => packWord i.opc 0 0 0 0

/-- Encode of R96: defined exactly on the well-formed instructions. -/
def encode (i : Instr) : Option Word :=
  if i.wf then some (encodeWord i) else none

/-- The bits of a word its opcode ignores (R84, R86): FN for every opcode but ACTIVATE, RSV always, Y for ACTIVATE,
all operand fields for WAIT and the reserved opcodes. -/
def ignoredBits (opc : BitVec 4) : Word :=
  match opc.toNat with
  | 0x1 => 0x0FFF000000000000#64
  | 0x2 => 0x0FFF000000000000#64
  | 0x3 => 0x0FFF000000000000#64
  | 0x4 => 0x00FF0000FFFF0000#64
  | _ => 0x0FFFFFFFFFFFFFFF#64

/-! ## Names of the activation functions (R81, decision D9) -/

/-- The function a name stands for: exactly the three lower-case names, any other name is OTHER. The code of a
name's OTHER is 3, the lowest reserved one (DESIGN CHOICE, log 14: R81 gives the name form no code). -/
def ActFn.ofName (name : List Char) : ActFn :=
  if name = ['r', 'e', 'l', 'u'] then .relu
  else if name = ['s', 'i', 'g', 'm', 'o', 'i', 'd'] then .sigmoid
  else if name = ['t', 'a', 'n', 'h'] then .tanh
  else .other 3

/-! ## UNKNOWN(opc) of the abstract form (R81) -/

/-- The term UNKNOWN(opc), for "any opcode not in rule R80" (R81); the five opcode values of R80's instructions have
none. -/
def Instr.unknown (opc : Nat) : Option Instr :=
  match opc with
  | 0x0 => some .unknown0
  | 0x1 => none
  | 0x2 => none
  | 0x3 => none
  | 0x4 => none
  | 0x5 => none
  | 0x6 => some .unknown6
  | 0x7 => some .unknown7
  | 0x8 => some .unknown8
  | 0x9 => some .unknown9
  | 0xA => some .unknownA
  | 0xB => some .unknownB
  | 0xC => some .unknownC
  | 0xD => some .unknownD
  | 0xE => some .unknownE
  | 0xF => some .unknownF
  | beyond + 0x10 => some (.unknownAbove beyond)

/-! ## Serialised words (20_memory R58: little-endian) -/

/-- The `n` low bytes of a natural, the least significant first. -/
def bytesLE : Nat → Nat → List Byte
  | 0, _ => []
  | n + 1, v => BitVec.ofNat 8 v :: bytesLE n (v / 256)

/-- The natural a little-endian byte list stands for. -/
def natLE : List Byte → Nat
  | [] => 0
  | b :: bs => b.toNat + 256 * natLE bs

/-- The eight bytes of a word. -/
def wordBytes (w : Word) : List Byte := bytesLE 8 w.toNat

/-- Why a byte list decodes to no instruction. -/
inductive DecodeError where
  /-- Fewer than the eight bytes of one word (R91: every instruction is exactly one 64-bit word). -/
  | truncatedWord
deriving DecidableEq, Repr

/-- What decoding a byte list gives. -/
inductive DecodeResult where
  | ok (i : Instr) (rest : List Byte)
  | rejected (e : DecodeError)
deriving DecidableEq, Repr

/-- Decode the first instruction of a byte list. -/
def decodeBytes : List Byte → DecodeResult
  | b0 :: b1 :: b2 :: b3 :: b4 :: b5 :: b6 :: b7 :: rest =>
    .ok (decode (BitVec.ofNat 64 (natLE [b0, b1, b2, b3, b4, b5, b6, b7]))) rest
  | _ => .rejected .truncatedWord

/-- The instruction this decoder reads from a row's word of `nbits` bits, bits above `nbits` being 0. No
instruction is longer than 64 bits. -/
def decodeTableWord (nbits w : Nat) : Option Instr :=
  if nbits ≤ 64 then
    match decodeBytes (wordBytes (BitVec.ofNat 64 w)) with
    | .ok i _ => some i
    | .rejected _ => none
  else none

end Sys2Proof
end

