-- ==== Sys2Proof/Machine/Scalar.lean ====
section
/-!
DEFINITION. SCALAR as a parameter (00_scope R8): the operations the block performs on scalars, and the choice of an
activation function (45_activate R222 to R225).
-/

namespace Sys2Proof

/-- The operations of a scalar type (00_scope R8). -/
structure ScalarOps (S : Type) where
  zero : S
  add : S → S → S
  mul : S → S → S
  relu : S → S
  sigmoid : S → S
  tanh : S → S

/-- Act (45_activate R222 to R225): OTHER executes as relu. -/
def act {S : Type} (K : ScalarOps S) : ActFn → S → S
  | .relu => K.relu
  | .sigmoid => K.sigmoid
  | .tanh => K.tanh
  | .other _ => K.relu

/-- One multiply-accumulate: the product first, then the sum, two operations (41_systolic_array R116). -/
def mac {S : Type} (K : ScalarOps S) (acc h v : S) : S := K.add acc (K.mul h v)

end Sys2Proof
end

