-- ==== Sys2Proof/Machine/Binary64.lean ====
section
/-!
DEFINITION. BINARY64, the reference instance of SCALAR (00_scope R8 (ii), decision D1): IEEE 754 binary64, round to
nearest with ties to even, product and sum rounded separately, and the activation functions of 45_activate R222 to
R224 with EXP and TANH free.

Every finite value is a whole number of units of 2^−1074 (the least subnormal). An operation computes its exact
result as a quotient of naturals in that unit and rounds it once, in `roundMagnitude`. The format itself (the places
of sign, exponent and fraction) is IEEE 754's, which the spec names and does not repeat (PRESUMED, log 3).
-/

namespace Sys2Proof.Binary64

/-! ## The format -/

/-- The sign bit. -/
def sign (x : Scalar) : Bool := x.msb

/-- The 63 bits below the sign: exponent field and fraction. -/
def magnitude (x : Scalar) : Nat := x.toNat % 2 ^ 63

/-- The magnitude of ±∞; a larger one is a NaN. -/
def infMagnitude : Nat := 0x7FF0000000000000

def isNaN (x : Scalar) : Bool := infMagnitude < magnitude x

def isInf (x : Scalar) : Bool := magnitude x == infMagnitude

def isZero (x : Scalar) : Bool := magnitude x == 0

/-- The pattern with a given sign and magnitude. -/
def pack (neg : Bool) (mag : Nat) : Scalar :=
  BitVec.ofNat 64 ((if neg then 2 ^ 63 else 0) + mag)

def posZero : Scalar := 0#64

def one : Scalar := 0x3FF0000000000000#64

/-- The value of a finite magnitude in units of 2^−1074. -/
def unitsOf (mag : Nat) : Nat :=
  let e := mag / 2 ^ 52
  let f := mag % 2 ^ 52
  if e = 0 then f else (2 ^ 52 + f) * 2 ^ (e - 1)

/-- The value of a finite scalar in units of 2^−1074. -/
def signedUnits (x : Scalar) : Int :=
  if sign x then -(unitsOf (magnitude x) : Int) else (unitsOf (magnitude x) : Int)

/-- Round num/den units (den > 0) to the nearest magnitude, ties to even; a result beyond the largest finite
magnitude is that of ∞. With `u` the exponent of the result's last place, `q` and `r` are quotient and remainder in
that place, and adding the rounded quotient to `u * 2^52` forms exponent field and fraction in one. -/
def roundMagnitude (num den : Nat) : Nat :=
  let u := (num / den).log2 - 52
  let d := den * 2 ^ u
  let q := num / d
  let r := num % d
  let q' := if d < 2 * r ∨ (2 * r = d ∧ q % 2 = 1) then q + 1 else q
  min (u * 2 ^ 52 + q') infMagnitude

/-- The NaN an operation returns on its operands: any NaN (93_implementation_defined item 9; log 4). -/
def freeNaN (op : NaNSource) (x y : Scalar) : Scalar :=
  pack (Config.nanSign op x y) (infMagnitude + 1 + (Config.nanPayload op x y).val)

/-! ## Arithmetic -/

/-- Addition. A sum that is exactly zero is −0 only if both operands are negative (zeros). -/
def add (x y : Scalar) : Scalar :=
  if isNaN x || isNaN y then freeNaN .add x y
  else if isInf x then
    if isInf y && (sign x != sign y) then freeNaN .add x y else x
  else if isInf y then y
  else
    let t := signedUnits x + signedUnits y
    if t = 0 then pack (sign x && sign y) 0
    else pack (decide (t < 0)) (roundMagnitude t.natAbs 1)

/-- Multiplication. -/
def mul (x y : Scalar) : Scalar :=
  let neg := sign x != sign y
  if isNaN x || isNaN y then freeNaN .mul x y
  else if isInf x || isInf y then
    if isZero x || isZero y then freeNaN .mul x y else pack neg infMagnitude
  else if isZero x || isZero y then pack neg 0
  else pack neg (roundMagnitude (unitsOf (magnitude x) * unitsOf (magnitude y)) (2 ^ 1074))

/-- Division. -/
def div (x y : Scalar) : Scalar :=
  let neg := sign x != sign y
  if isNaN x || isNaN y then freeNaN .div x y
  else if isInf x then
    if isInf y then freeNaN .div x y else pack neg infMagnitude
  else if isInf y then pack neg 0
  else if isZero y then
    if isZero x then freeNaN .div x y else pack neg infMagnitude
  else if isZero x then pack neg 0
  else pack neg (roundMagnitude (unitsOf (magnitude x) * 2 ^ 1074) (unitsOf (magnitude y)))

/-- Negation, exact: it flips the sign bit (45_activate R223: "`neg` is exact"). -/
def neg (x : Scalar) : Scalar := x ^^^ 0x8000000000000000#64

/-! ## The activation functions -/

/-- EXP (45_activate R223, decision D2): the four stated values, and free on every other operand (log 5). -/
def exp (x : Scalar) : Scalar :=
  if isNaN x then freeNaN .exp x x
  else if isZero x then one
  else if isInf x then
    if sign x then posZero else pack false infMagnitude
  else pack false (Config.expFinite x).val

/-- relu (45_activate R222, decision D3): x if x > 0, +0 if x is negative or a zero, a NaN if x is a NaN. -/
def relu (x : Scalar) : Scalar :=
  if isNaN x then freeNaN .relu x x
  else if sign x || isZero x then posZero
  else x

/-- sigmoid (45_activate R223). -/
def sigmoid (x : Scalar) : Scalar := div one (add one (exp (neg x)))

/-- tanh (45_activate R224, decision D2): the stated values at ±0, ±∞ and NaN, and free in [−1, 1] elsewhere
(log 6). -/
def tanh (x : Scalar) : Scalar :=
  if isNaN x then freeNaN .tanh x x
  else if isZero x then x
  else if isInf x then pack (sign x) (magnitude one)
  else pack (Config.tanhSign x) (Config.tanhMagnitude x).val

/-- BINARY64 as an instance of SCALAR. -/
def ops : ScalarOps Scalar :=
  { zero := posZero, add := add, mul := mul, relu := relu, sigmoid := sigmoid, tanh := tanh }

/-- Two scalars are the same value when they are the same pattern or both NaNs: which NaN is open
(93_implementation_defined item 9). -/
def same (x y : Scalar) : Prop := x = y ∨ (isNaN x = true ∧ isNaN y = true)

end Sys2Proof.Binary64
end

