-- ==== Sys2Proof/Machine/State.lean ====
section
/-!
DEFINITION. The state of the block as plain data (10_state R37), the reasons a command can be refused, and reset.

The state is generic in the scalar type, because SCALAR is a parameter of the block with two admitted instances
(00_scope R8). The machine the host runs is its BINARY64 instance, `Sys2Proof.Machine.State`.
-/

namespace Sys2Proof

/-- The two data banks (20_memory R50). -/
inductive BankId where
  | main
  | buf
deriving DecidableEq, Repr

/-- The engine status (10_state R27). -/
inductive Status where
  | idle
  | ready
  | running
  | finished
deriving DecidableEq, Repr

/-- The GEMM sub-state (10_state R30). `tick` is the index of the next tick to perform (decision D24). -/
structure GemmOp where
  tick : Nat
  total : Nat
  addrA : Nat
  addrB : Nat
  addrC : Nat
deriving DecidableEq, Repr

/-- The action tags of the log (42_scheduler R152). -/
inductive Tag where
  | load
  | store
  | gemm
  | activate
  | wait
  | error
deriving DecidableEq, Repr

/-- One log entry (10_state R33). -/
structure LogEntry where
  cycle : Nat
  pc : Nat
  tag : Tag
  detail : String
deriving DecidableEq, Repr

/-- A diagnostic event (60_exceptions R251, R257). -/
inductive Diag where
  | oobRead (bank : BankId) (addr : Nat)
  | oobWrite (bank : BankId) (addr : Nat)
  | unknownOpcode (pc opc : Nat)
deriving DecidableEq, Repr

/-- What a non-terminal step works on (42_scheduler R143): the fetched instruction, or the GEMM in progress. -/
inductive Work where
  | instr (i : Instr)
  | tick (o : GemmOp)
deriving DecidableEq, Repr

/-- The three registers of one processing element (10_state R24). -/
structure PE (S : Type) where
  acc : S
  a : S
  b : S
deriving DecidableEq, Repr

/-- A bank's cells in canonical form: addresses strictly rising, no entry holding the scalar zero. A cell that is
not listed holds zero, its reset value (10_state R22, R23; log 9). -/
abbrev Memory (S : Type) := List (Nat × S)

/-- A finite set of addresses as a strictly rising list (10_state R32; log 10). -/
abbrev AddrSet := List Nat

/-- The PE grid, a list of rows (10_state R25; log 11). -/
abbrev Grid (S : Type) := List (List (PE S))

end Sys2Proof

namespace Sys2Proof.Npu

/-- The complete state of the block (10_state R37), over a scalar type `S`. Two fields are the model's own: `cfg`,
the parameters of R36, which no step changes (log 1), and `diags`, the diagnostics of the last step or host command
(R35, R251; log 8), which nothing reads. -/
structure State (S : Type) where
  cfg : Config
  main : Memory S
  buf : Memory S
  pe : Grid S
  prog : List Instr
  status : Status
  pc : Nat
  cycle : Nat
  op : Option GemmOp
  mainRd : AddrSet
  mainWr : AddrSet
  bufRd : AddrSet
  bufWr : AddrSet
  log : List LogEntry
  diags : List Diag
deriving DecidableEq, Repr

/-- The state at power-on of a block with parameters `c` (70_reset_and_hazards R282): every cell and PE register
the scalar zero, an empty program, pc = 0, cycle = 0, op = none, empty sets and log, status IDLE. -/
def State.powerOn {S : Type} (zero : S) (c : Config) : State S :=
  { cfg := c
    main := []
    buf := []
    pe := List.replicate c.N (List.replicate c.N ⟨zero, zero, zero⟩)
    prog := []
    status := .idle
    pc := 0
    cycle := 0
    op := none
    mainRd := []
    mainWr := []
    bufRd := []
    bufWr := []
    log := []
    diags := [] }

end Sys2Proof.Npu

namespace Sys2Proof

/-- LOG_DETAIL (42_scheduler R151): the detail string of a log entry, a free function of the pre-step state, the
work of the step and the tag (decision D15; log 7). The state it is applied to has no diagnostics (`entryOf`). -/
opaque Config.logDetail {S : Type} : Npu.State S → Work → Tag → String

end Sys2Proof

namespace Sys2Proof.Machine

/-- The state of the BINARY64 machine (00_scope R8 (ii), the reference instance; log 3). -/
abbrev State : Type := Sys2Proof.Npu.State Scalar

/-- Why a step stops with a fault: never. 60_exceptions R250: "The block never traps, halts or faults on an error",
so the type has no constructor. -/
inductive Fault where
deriving DecidableEq, Repr

/-- Why a command is refused. No step is ever refused. -/
inductive Refusal where
  /-- An instruction without a meaning. Raised by an arm of `exec` only; this model has no such arm. Safe. -/
  | notModelled (mnemonic : String)
  /-- Raised by the host command loadProgram when the program is longer than PROG_CAP: "the command is not admitted
  and the state does not change" (70_reset_and_hazards R281). Safe. -/
  | programTooLong
deriving DecidableEq, Repr

/-- The machine right after reset (70_reset_and_hazards R280, R282), with the reference parameters (log 2). The
BINARY64 zero is +0 (00_scope R11, decision D32). -/
def State.reset : State := Npu.State.powerOn 0#64 Config.reference

end Sys2Proof.Machine
end

