-- ==== Sys2Proof/Machine/Operands.lean ====
section
/-!
DEFINITION. Effective addresses (00_scope R11, 30_encoding R87, decision D12): unbounded naturals that never wrap.
The block has one addressing mode, a base field plus an element index (20_memory R63).
-/

namespace Sys2Proof

/-- Element `i` of a LOAD, STORE or ACTIVATE range (43_data_movement R170, R171; 45_activate R221). -/
def elemAddr (base i : Nat) : Nat := base + i

/-- Element (i, j) of the row-major N×N matrix at `base` (44_gemm R190). -/
def matrixAddr (N base i j : Nat) : Nat := base + i * N + j

/-- The membership test `(t − r) ∈ [0, N)`, false when t < r (00_scope R11). -/
def feeds (N t r : Nat) : Bool := r ≤ t && t - r < N

/-- The buffer address of A[r][t − r], row r's left feed in tick t (44_gemm R193). -/
def leftAddr (N : Nat) (o : GemmOp) (r : Nat) : Nat := matrixAddr N o.addrA r (o.tick - r)

/-- The buffer address of B[t − c][c], column c's top feed in tick t (44_gemm R194). -/
def topAddr (N : Nat) (o : GemmOp) (c : Nat) : Nat := matrixAddr N o.addrB (o.tick - c) c

/-- The buffer address of C[i][j] (44_gemm R196). -/
def resultAddr (N : Nat) (o : GemmOp) (i j : Nat) : Nat := matrixAddr N o.addrC i j

/-- A GEMM's number of ticks (44_gemm R191). -/
def gemmTicks (N : Nat) : Nat := 2 * N - 1

end Sys2Proof
end

