-- ==== Sys2Proof/Machine/Ops.lean ====
section
/-!
DEFINITION. The shared operations over the banks, the access sets and the diagnostics (20_memory, 42_scheduler R155,
60_exceptions R251 to R253). Every instruction reaches a bank through `engineRead` and `engineWrite`, every host
command through `memRead` and `memWrite`.

The block takes no exception (60_exceptions R250, R259), so no operation that takes or returns from one stands here;
what an error does is `emit`.
-/

namespace Sys2Proof

/-! ## Cells in canonical form -/

/-- The value of cell `a`; a cell that is not listed holds the scalar zero (10_state R22, R23). -/
def Memory.read {S : Type} (zero : S) (a : Nat) : Memory S → S
  | [] => zero
  | (k, v) :: rest => if k = a then v else Memory.read zero a rest

/-- Put an entry at its place in a rising list that does not hold the address. -/
def Memory.place {S : Type} (a : Nat) (v : S) : Memory S → Memory S
  | [] => [(a, v)]
  | (k, w) :: rest => if k < a then (k, w) :: Memory.place a v rest else (a, v) :: (k, w) :: rest

/-- Write cell `a`. Writing the scalar zero removes the entry. -/
def Memory.write {S : Type} [DecidableEq S] (zero : S) (a : Nat) (v : S) (m : Memory S) : Memory S :=
  let others := m.filter (fun c => c.1 ≠ a)
  if v = zero then others else Memory.place a v others

/-- The canonical form: addresses strictly rising and below the capacity, no entry holding the scalar zero. -/
abbrev Memory.wf {S : Type} (zero : S) (cap : Nat) (m : Memory S) : Prop :=
  m.Pairwise (fun x y => x.1 < y.1) ∧ ∀ c ∈ m, c.1 < cap ∧ c.2 ≠ zero

/-! ## Address sets -/

/-- Put an address at its place in a rising list that does not hold it. -/
def AddrSet.place (a : Nat) : AddrSet → AddrSet
  | [] => [a]
  | k :: rest => if k < a then k :: AddrSet.place a rest else a :: k :: rest

/-- Add an address to a set: "an address touched twice appears once" (42_scheduler R155). -/
def AddrSet.insert (a : Nat) (s : AddrSet) : AddrSet :=
  if a ∈ s then s else AddrSet.place a s

/-- The canonical form of a set. -/
abbrev AddrSet.wf (s : AddrSet) : Prop := s.Pairwise (· < ·)

/-! ## Iteration -/

/-- `for i in [0, n)` in ascending order (00_scope R11). -/
def forRange {σ : Type} : Nat → (Nat → σ → σ) → σ → σ
  | 0, _, s => s
  | n + 1, body, s => body n (forRange n body s)

end Sys2Proof

namespace Sys2Proof.Npu

variable {S : Type}

/-! ## Diagnostics (60_exceptions R251) -/

/-- `emit Diag`: append an event to those of the running step or command, in order (R256). No other state changes. -/
def emit (d : Diag) (s : State S) : State S := { s with diags := s.diags ++ [d] }

/-- The code of a diagnostic (60_exceptions R257). -/
def diagCode : Diag → Nat
  | .oobRead _ _ => 1
  | .oobWrite _ _ => 2
  | .unknownOpcode _ _ => 3

/-- The diagnostics of one read of a bank with `n` cells (60_exceptions R252). -/
def readDiag (n : Nat) (b : BankId) (addr : Nat) : List Diag := if addr < n then [] else [.oobRead b addr]

/-- The diagnostics of one write to a bank with `n` cells (60_exceptions R253). -/
def writeDiag (n : Nat) (b : BankId) (addr : Nat) : List Diag := if addr < n then [] else [.oobWrite b addr]

/-! ## Banks -/

/-- CAP(bank) (20_memory R51). -/
def cap (b : BankId) (s : State S) : Nat :=
  match b with
  | .main => s.cfg.mainCap
  | .buf => s.cfg.bufCap

/-- The cells of a bank. -/
def cells (b : BankId) (s : State S) : Memory S :=
  match b with
  | .main => s.main
  | .buf => s.buf

/-- Replace the cells of a bank. -/
def setCells (b : BankId) (m : Memory S) (s : State S) : State S :=
  match b with
  | .main => { s with main := m }
  | .buf => { s with buf := m }

/-- The value a read of `addr` supplies: the cell when the address is valid, the scalar zero when it is out of
bounds (20_memory R51, R52). -/
def peek (K : ScalarOps S) (b : BankId) (addr : Nat) (s : State S) : S :=
  if addr < cap b s then Memory.read K.zero addr (cells b s) else K.zero

/-- MemRead (20_memory R52). -/
def memRead (K : ScalarOps S) (b : BankId) (addr : Nat) (s : State S) : S × State S :=
  if addr < cap b s then (peek K b addr s, s) else (K.zero, emit (.oobRead b addr) s)

/-- MemWrite (20_memory R53). -/
def memWrite [DecidableEq S] (K : ScalarOps S) (b : BankId) (addr : Nat) (v : S) (s : State S) : State S :=
  if addr < cap b s then setCells b (Memory.write K.zero addr v (cells b s)) s
  else emit (.oobWrite b addr) s

/-- Bank reset (20_memory R55): every cell zero. -/
def clearBank (b : BankId) (s : State S) : State S := setCells b [] s

/-! ## Access sets (42_scheduler R155) -/

/-- Record a read address, as computed, even out of bounds. -/
def recordRead (b : BankId) (addr : Nat) (s : State S) : State S :=
  match b with
  | .main => { s with mainRd := AddrSet.insert addr s.mainRd }
  | .buf => { s with bufRd := AddrSet.insert addr s.bufRd }

/-- Record a written address, as computed, even out of bounds. -/
def recordWrite (b : BankId) (addr : Nat) (s : State S) : State S :=
  match b with
  | .main => { s with mainWr := AddrSet.insert addr s.mainWr }
  | .buf => { s with bufWr := AddrSet.insert addr s.bufWr }

/-- The read set of a bank. -/
def readSet (b : BankId) (s : State S) : AddrSet :=
  match b with
  | .main => s.mainRd
  | .buf => s.bufRd

/-- The write set of a bank. -/
def writeSet (b : BankId) (s : State S) : AddrSet :=
  match b with
  | .main => s.mainWr
  | .buf => s.bufWr

/-- Empty the four access sets (42_scheduler R142). -/
def clearSets (s : State S) : State S :=
  { s with mainRd := [], mainWr := [], bufRd := [], bufWr := [] }

/-- A bank read of an engine step: MemRead, recorded. -/
def engineRead (K : ScalarOps S) (b : BankId) (addr : Nat) (s : State S) : S × State S :=
  let r := memRead K b addr s
  (r.1, recordRead b addr r.2)

/-- A bank write of an engine step: MemWrite, recorded. -/
def engineWrite [DecidableEq S] (K : ScalarOps S) (b : BankId) (addr : Nat) (v : S) (s : State S) : State S :=
  recordWrite b addr (memWrite K b addr v s)

/-! ## Program counter -/

/-- `pc <- pc + 1`, the only move of the pc by a step (42_scheduler R148). -/
def advancePc (s : State S) : State S := { s with pc := s.pc + 1 }

end Sys2Proof.Npu
end

