-- ==== Sys2Proof/Machine/Activate.lean ====
section
/-!
DEFINITION. ACTIVATE (45_activate R220, R221, R226).
-/

namespace Sys2Proof.Npu

variable {S : Type} [DecidableEq S]

/-- One element: read the cell, write the function of it to the same cell (20_memory R66). -/
def activateElem (K : ScalarOps S) (f : S → S) (addr i : Nat) (s : State S) : State S :=
  let r := engineRead K .buf (elemAddr addr i) s
  engineWrite K .buf (elemAddr addr i) (f r.1) r.2

/-- ACTIVATE(fn, addr, size) (45_activate R221). -/
def activateEffect (K : ScalarOps S) (fn : ActFn) (addr size : Nat) (s : State S) : State S :=
  advancePc (forRange size (activateElem K (act K fn) addr) s)

end Sys2Proof.Npu

namespace Sys2Proof.Machine

/-- The meaning of ACTIVATE on the BINARY64 machine. -/
def execActivate (fn : ActFn) (addr size : Nat) (s : State) : Host.Outcome State Fault Refusal :=
  .next (Npu.activateEffect Binary64.ops fn addr size s)

end Sys2Proof.Machine
end

