-- ==== Sys2Proof/Machine/Control.lean ====
section
/-!
DEFINITION. WAIT and the reserved opcodes (46_control R240, R241).
-/

namespace Sys2Proof.Npu

variable {S : Type}

/-- WAIT (46_control R240): a one-cycle no-op. -/
def waitEffect (s : State S) : State S := advancePc s

/-- UNKNOWN(opc) (46_control R241): the diagnostic with the pc of the instruction, then pc + 1. The ERROR tag is
given by the scheduler's log entry. -/
def unknownEffect (opc : Nat) (s : State S) : State S :=
  advancePc (emit (.unknownOpcode s.pc opc) s)

end Sys2Proof.Npu

namespace Sys2Proof.Machine

/-- The meaning of WAIT. -/
def execWait (s : State) : Host.Outcome State Fault Refusal := .next (Npu.waitEffect s)

/-- The meaning of the reserved opcode 0x0. -/
def execUnknown0 (s : State) : Host.Outcome State Fault Refusal := .next (Npu.unknownEffect 0x0 s)

/-- The meaning of the reserved opcode 0x6. -/
def execUnknown6 (s : State) : Host.Outcome State Fault Refusal := .next (Npu.unknownEffect 0x6 s)

/-- The meaning of the reserved opcode 0x7. -/
def execUnknown7 (s : State) : Host.Outcome State Fault Refusal := .next (Npu.unknownEffect 0x7 s)

/-- The meaning of the reserved opcode 0x8. -/
def execUnknown8 (s : State) : Host.Outcome State Fault Refusal := .next (Npu.unknownEffect 0x8 s)

/-- The meaning of the reserved opcode 0x9. -/
def execUnknown9 (s : State) : Host.Outcome State Fault Refusal := .next (Npu.unknownEffect 0x9 s)

/-- The meaning of the reserved opcode 0xA. -/
def execUnknownA (s : State) : Host.Outcome State Fault Refusal := .next (Npu.unknownEffect 0xA s)

/-- The meaning of the reserved opcode 0xB. -/
def execUnknownB (s : State) : Host.Outcome State Fault Refusal := .next (Npu.unknownEffect 0xB s)

/-- The meaning of the reserved opcode 0xC. -/
def execUnknownC (s : State) : Host.Outcome State Fault Refusal := .next (Npu.unknownEffect 0xC s)

/-- The meaning of the reserved opcode 0xD. -/
def execUnknownD (s : State) : Host.Outcome State Fault Refusal := .next (Npu.unknownEffect 0xD s)

/-- The meaning of the reserved opcode 0xE. -/
def execUnknownE (s : State) : Host.Outcome State Fault Refusal := .next (Npu.unknownEffect 0xE s)

/-- The meaning of the reserved opcode 0xF. -/
def execUnknownF (s : State) : Host.Outcome State Fault Refusal := .next (Npu.unknownEffect 0xF s)

/-- The meaning of UNKNOWN(16 + beyond), an opcode of the abstract form only. -/
def execUnknownAbove (beyond : Nat) (s : State) : Host.Outcome State Fault Refusal :=
  .next (Npu.unknownEffect (0x10 + beyond) s)

end Sys2Proof.Machine
end

