-- ==== Sys2Proof/Machine/DataMovement.lean ====
section
/-!
DEFINITION. LOAD and STORE (43_data_movement R170, R171).
-/

namespace Sys2Proof.Npu

variable {S : Type} [DecidableEq S]

/-- One element of a copy: read the source cell, then write the destination cell (20_memory R66). -/
def copyElem (K : ScalarOps S) (from_ to_ : BankId) (src dest i : Nat) (s : State S) : State S :=
  let r := engineRead K from_ (elemAddr src i) s
  engineWrite K to_ (elemAddr dest i) r.1 r.2

/-- The loop of LOAD and STORE: `size` single-cell copies in ascending order. -/
def copyCells (K : ScalarOps S) (from_ to_ : BankId) (src dest size : Nat) (s : State S) : State S :=
  forRange size (copyElem K from_ to_ src dest) s

/-- LOAD(src, dest, size) (43_data_movement R170). -/
def loadEffect (K : ScalarOps S) (src dest size : Nat) (s : State S) : State S :=
  advancePc (copyCells K .main .buf src dest size s)

/-- STORE(src, dest, size) (43_data_movement R171). -/
def storeEffect (K : ScalarOps S) (src dest size : Nat) (s : State S) : State S :=
  advancePc (copyCells K .buf .main src dest size s)

end Sys2Proof.Npu

namespace Sys2Proof.Machine

/-- The meaning of LOAD on the BINARY64 machine. -/
def execLoad (src dest size : Nat) (s : State) : Host.Outcome State Fault Refusal :=
  .next (Npu.loadEffect Binary64.ops src dest size s)

/-- The meaning of STORE on the BINARY64 machine. -/
def execStore (src dest size : Nat) (s : State) : Host.Outcome State Fault Refusal :=
  .next (Npu.storeEffect Binary64.ops src dest size s)

end Sys2Proof.Machine
end

