-- ==== Sys2Proof/Machine/Array.lean ====
section
/-!
DEFINITION. The systolic MAC array (41_systolic_array): its reset, its tick and its outputs.

A tick builds the new grid from the old one, so that every PE reads the snapshot taken before the tick (R118, R125).
-/

namespace Sys2Proof

variable {S : Type}

/-- A PE with all three registers zero. -/
def PE.zero (K : ScalarOps S) : PE S := ⟨K.zero, K.zero, K.zero⟩

/-- The PE at row r, column c. A grid of the right shape holds one for all r, c < N (log 11). -/
def Grid.at (K : ScalarOps S) (g : Grid S) (r c : Nat) : PE S :=
  (g.getD r []).getD c (PE.zero K)

/-- The N×N grid with a given PE at each place. -/
def Grid.build (N : Nat) (f : Nat → Nat → PE S) : Grid S :=
  (List.range N).map (fun r => (List.range N).map (fun c => f r c))

/-- The shape of the grid: N rows of N PEs (10_state R25). -/
abbrev Grid.wf (N : Nat) (g : Grid S) : Prop := g.length = N ∧ ∀ row ∈ g, row.length = N

/-- ArrayReset (41_systolic_array R112). -/
def arrayReset (K : ScalarOps S) (N : Nat) : Grid S := Grid.build N (fun _ _ => PE.zero K)

/-- The horizontal input h(r, c) of a tick (R114). -/
def horizontalIn (K : ScalarOps S) (left : Nat → S) (old : Grid S) (r c : Nat) : S :=
  if c = 0 then left r else (Grid.at K old r (c - 1)).a

/-- The vertical input v(r, c) of a tick (R115). -/
def verticalIn (K : ScalarOps S) (top : Nat → S) (old : Grid S) (r c : Nat) : S :=
  if r = 0 then top c else (Grid.at K old (r - 1) c).b

/-- ArrayStep (R116 to R118): `left r` and `top c` are the array's inputs, `old` the snapshot. -/
def arrayStep (K : ScalarOps S) (N : Nat) (left top : Nat → S) (old : Grid S) : Grid S :=
  Grid.build N (fun r c =>
    let h := horizontalIn K left old r c
    let v := verticalIn K top old r c
    { acc := mac K (Grid.at K old r c).acc h v, a := h, b := v })

/-- ArrayOutputs (R119): the accumulated value at (r, c). -/
def arrayOutputs (K : ScalarOps S) (g : Grid S) (r c : Nat) : S := (Grid.at K g r c).acc

/-- The grid after `t` ticks from reset, tick i fed with `left i` and `top i` (R122). -/
def arrayRun (K : ScalarOps S) (N : Nat) (left top : Nat → Nat → S) : Nat → Grid S
  | 0 => arrayReset K N
  | t + 1 => arrayStep K N (left t) (top t) (arrayRun K N left top t)

end Sys2Proof
end

