-- ==== Sys2Proof/Machine/Gemm.lean ====
section
/-!
DEFINITION. GEMM (44_gemm R190 to R206): the start, one tick, the write-back, and the closed form of what the
2N − 1 ticks compute.
-/

namespace Sys2Proof.Npu

variable {S : Type} [DecidableEq S]

/-- The left input of row r in the tick of `o` (44_gemm R193). -/
def leftFeed (K : ScalarOps S) (o : GemmOp) (s : State S) (r : Nat) : S :=
  if feeds s.cfg.N o.tick r then peek K .buf (leftAddr s.cfg.N o r) s else K.zero

/-- The top input of column c in the tick of `o` (44_gemm R194). -/
def topFeed (K : ScalarOps S) (o : GemmOp) (s : State S) (c : Nat) : S :=
  if feeds s.cfg.N o.tick c then peek K .buf (topAddr s.cfg.N o c) s else K.zero

/-- The read of row r's left feed, with its diagnostic and its record; no read when the feed is zero (R193). -/
def readLeft (K : ScalarOps S) (o : GemmOp) (r : Nat) (s : State S) : State S :=
  if feeds s.cfg.N o.tick r then (engineRead K .buf (leftAddr s.cfg.N o r) s).2 else s

/-- The read of column c's top feed (R194). -/
def readTop (K : ScalarOps S) (o : GemmOp) (c : Nat) (s : State S) : State S :=
  if feeds s.cfg.N o.tick c then (engineRead K .buf (topAddr s.cfg.N o c) s).2 else s

/-- The reads of a tick: all rows ascending, then all columns ascending (R205, 20_memory R66). -/
def readFeeds (K : ScalarOps S) (o : GemmOp) (s : State S) : State S :=
  forRange s.cfg.N (readTop K o) (forRange s.cfg.N (readLeft K o) s)

/-- The write-back of the result matrix, row-major (R196). -/
def writeResult (K : ScalarOps S) (o : GemmOp) (out : Nat → Nat → S) (s : State S) : State S :=
  forRange s.cfg.N
    (fun i u => forRange s.cfg.N (fun j => engineWrite K .buf (resultAddr s.cfg.N o i j) (out i j)) u) s

/-- GemmTick (R205) for the sub-state `o`. The feeds are values of the buffer as it stands at the tick; the reads
change no cell, so they do not depend on each other. -/
def gemmTick (K : ScalarOps S) (o : GemmOp) (s : State S) : State S :=
  let grid := arrayStep K s.cfg.N (leftFeed K o s) (topFeed K o s) s.pe
  let s1 := { readFeeds K o s with pe := grid }
  if o.tick = o.total - 1 then
    advancePc { writeResult K o (arrayOutputs K grid) s1 with op := none }
  else { s1 with op := some { o with tick := o.tick + 1 } }

/-- The sub-state a GEMM starts with (R192). -/
def gemmOpOf (N addrA addrB addrC : Nat) : GemmOp :=
  { tick := 0, total := gemmTicks N, addrA := addrA, addrB := addrB, addrC := addrC }

/-- GemmStart (R192, R205): reset the array, set the sub-state, perform tick 0. -/
def gemmEffect (K : ScalarOps S) (addrA addrB addrC : Nat) (s : State S) : State S :=
  let o := gemmOpOf s.cfg.N addrA addrB addrC
  gemmTick K o { s with pe := arrayReset K s.cfg.N, op := some o }

end Sys2Proof.Npu

namespace Sys2Proof

variable {S : Type}

/-- S(r, c, k − 1) of 44_gemm R199: the sum of the first `k` products, k ascending, each product and each sum one
operation. -/
def gemmSum (K : ScalarOps S) (A B : Nat → Nat → S) (r c : Nat) : Nat → S
  | 0 => K.zero
  | k + 1 => mac K (gemmSum K A B r c k) (A r k) (B k c)

/-- K(r, c) of 44_gemm R199. -/
def lastTerm (N r c : Nat) : Nat := min (N - 1) (2 * N - 2 - r - c)

/-- C[r][c] of 44_gemm R199: the terms k = 0 .. K(r, c). -/
def gemmEntry (K : ScalarOps S) (N : Nat) (A B : Nat → Nat → S) (r c : Nat) : S :=
  gemmSum K A B r c (lastTerm N r c + 1)

/-- The N×N operand at a buffer address: `MemRead(BUF, base + i·N + j)`, zero out of bounds (R199). -/
def operand (K : ScalarOps S) (s : Npu.State S) (base i j : Nat) : S :=
  Npu.peek K .buf (matrixAddr s.cfg.N base i j) s

end Sys2Proof

namespace Sys2Proof.Machine

/-- The meaning of GEMM on the BINARY64 machine: its fetch cycle, which is its first tick (44_gemm R192). The later
ticks are the scheduler's (42_scheduler R143). -/
def execGemm (addrA addrB addrC : Nat) (s : State) : Host.Outcome State Fault Refusal :=
  .next (Npu.gemmEffect Binary64.ops addrA addrB addrC s)

end Sys2Proof.Machine
end

