-- ==== Sys2Proof/Machine/Dispatch.lean ====
section
/-!
DEFINITION. exec: one arm per constructor of Instr, each one call of a meaning (42_scheduler R147).
-/

namespace Sys2Proof.Machine

def exec (i : Instr) (s : State) : Host.Outcome State Fault Refusal :=
  match i with
  -- 43_data_movement
  | .load src dest size => Sys2Proof.Machine.execLoad src dest size s
  | .store src dest size => Sys2Proof.Machine.execStore src dest size s
  -- 44_gemm
  | .gemm addrA addrB addrC => Sys2Proof.Machine.execGemm addrA addrB addrC s
  -- 45_activate
  | .activate fn addr size => Sys2Proof.Machine.execActivate fn addr size s
  -- 46_control
  | .wait => Sys2Proof.Machine.execWait s
  | .unknown0 => Sys2Proof.Machine.execUnknown0 s
  | .unknown6 => Sys2Proof.Machine.execUnknown6 s
  | .unknown7 => Sys2Proof.Machine.execUnknown7 s
  | .unknown8 => Sys2Proof.Machine.execUnknown8 s
  | .unknown9 => Sys2Proof.Machine.execUnknown9 s
  | .unknownA => Sys2Proof.Machine.execUnknownA s
  | .unknownB => Sys2Proof.Machine.execUnknownB s
  | .unknownC => Sys2Proof.Machine.execUnknownC s
  | .unknownD => Sys2Proof.Machine.execUnknownD s
  | .unknownE => Sys2Proof.Machine.execUnknownE s
  | .unknownF => Sys2Proof.Machine.execUnknownF s
  | .unknownAbove beyond => Sys2Proof.Machine.execUnknownAbove beyond s

end Sys2Proof.Machine
end

