-- ==== Sys2Proof/Machine/Scheduler.lean ====
section
/-!
DEFINITION. The instruction scheduler (42_scheduler): the terminal condition, fetch, what a step does before and after
the work of its cycle, the log, and the whole step over any scalar type.

Machine/Step.lean builds the BINARY64 machine's `step` from the same parts around `exec`; Laws/Step.lean proves it
equal to `stepEffect` at BINARY64.
-/

namespace Sys2Proof

/-- The log tag an instruction returns (42_scheduler R147, R152). -/
def tagOf : Instr → Tag
  | .load _ _ _ => .load
  | .store _ _ _ => .store
  | .gemm _ _ _ => .gemm
  | .activate _ _ _ => .activate
  | .wait => .wait
  | .unknown0 => .error
  | .unknown6 => .error
  | .unknown7 => .error
  | .unknown8 => .error
  | .unknown9 => .error
  | .unknownA => .error
  | .unknownB => .error
  | .unknownC => .error
  | .unknownD => .error
  | .unknownE => .error
  | .unknownF => .error
  | .unknownAbove _ => .error

/-- The tag of a step's work: every GEMM tick is tagged GEMM (42_scheduler R152). -/
def workTag : Work → Tag
  | .instr i => tagOf i
  | .tick _ => .gemm

/-- LogAppend (42_scheduler R150, R153): append, and drop the oldest entry beyond the capacity. -/
def logAppend (log : List LogEntry) (e : LogEntry) : List LogEntry :=
  let l := log ++ [e]
  l.drop (l.length - logCap)

end Sys2Proof

namespace Sys2Proof.Npu

variable {S : Type}

/-- The terminal condition of a step (42_scheduler R140). -/
def terminal (s : State S) : Bool :=
  s.status = .finished || (s.op.isNone && s.prog.length ≤ s.pc)

/-- A terminal step (42_scheduler R141): the status becomes FINISHED and nothing else of the state changes. It emits
no diagnostic, so the list of this step's diagnostics is empty (log 8). -/
def finish (s : State S) : State S := { s with status := .finished, diags := [] }

/-- Fetch (42_scheduler R146): the slot at pc. It reads no bank and records nothing. -/
def fetch (s : State S) : Option Instr := s.prog[s.pc]?

/-- What a non-terminal step does first (42_scheduler R142): status RUNNING and empty access sets. The step's list of
diagnostics starts empty. -/
def beginStep (s : State S) : State S :=
  clearSets { s with status := .running, diags := [] }

/-- The state without the diagnostics, which are events and no state: "It changes no state, and no rule reads it"
(60_exceptions R251, 10_state R35). LOG_DETAIL sees this one, so no diagnostic and no host read reaches the log. -/
def withoutDiags (s : State S) : State S := { s with diags := [] }

/-- The log entry of a step from `s` (42_scheduler R151): cycle and pc before the step. -/
def entryOf (s : State S) (w : Work) : LogEntry :=
  { cycle := s.cycle, pc := s.pc, tag := workTag w, detail := Config.logDetail (withoutDiags s) w (workTag w) }

/-- What a non-terminal step from `s` does last (42_scheduler R144, R145): one log entry, cycle + 1. -/
def endStep (s : State S) (w : Work) (t : State S) : State S :=
  { t with log := logAppend t.log (entryOf s w), cycle := t.cycle + 1 }

/-! ## The step over any scalar type -/

variable [DecidableEq S]

/-- Execute (42_scheduler R147): one cycle of the fetched instruction. -/
def instrEffect (K : ScalarOps S) (i : Instr) (s : State S) : State S :=
  match i with
  | .load src dest size => loadEffect K src dest size s
  | .store src dest size => storeEffect K src dest size s
  | .gemm addrA addrB addrC => gemmEffect K addrA addrB addrC s
  | .activate fn addr size => activateEffect K fn addr size s
  | .wait => waitEffect s
  | .unknown0 => unknownEffect 0x0 s
  | .unknown6 => unknownEffect 0x6 s
  | .unknown7 => unknownEffect 0x7 s
  | .unknown8 => unknownEffect 0x8 s
  | .unknown9 => unknownEffect 0x9 s
  | .unknownA => unknownEffect 0xA s
  | .unknownB => unknownEffect 0xB s
  | .unknownC => unknownEffect 0xC s
  | .unknownD => unknownEffect 0xD s
  | .unknownE => unknownEffect 0xE s
  | .unknownF => unknownEffect 0xF s
  | .unknownAbove beyond => unknownEffect (0x10 + beyond) s

/-- Step (42_scheduler R145) over any scalar type. The last case of the match is not reached: a step that is not
terminal and has no GEMM in progress has pc < L (R146). -/
def stepEffect (K : ScalarOps S) (s : State S) : State S :=
  if terminal s then finish s
  else
    match s.op, fetch s with
    | some o, _ => endStep s (.tick o) (gemmTick K o (beginStep s))
    | none, some i => endStep s (.instr i) (instrEffect K i (beginStep s))
    | none, none => finish s

/-- `k` steps. -/
def runSteps (K : ScalarOps S) : Nat → State S → State S
  | 0, s => s
  | k + 1, s => runSteps K k (stepEffect K s)

end Sys2Proof.Npu
end

