-- ==== Sys2Proof/Machine/Step.lean ====
section
/-!
DEFINITION. One step of the BINARY64 machine (42_scheduler R145) and the placing of a word for the next fetch.
-/

namespace Sys2Proof.Machine

/-- What a non-terminal step adds around an outcome of its work: the log entry and the cycle count. -/
def closeStep (s : State) (w : Work) : Host.Outcome State Fault Refusal → Host.Outcome State Fault Refusal
  | .next t => .next (Npu.endStep s w t)
  | .fault f => .fault f
  | .refused r => .refused r

/-- Step (42_scheduler R145). The last case of the match is not reached (R146). -/
def step (s : State) : Host.Outcome State Fault Refusal :=
  if Npu.terminal s then .next (Npu.finish s)
  else
    match s.op, Npu.fetch s with
    | some o, _ => closeStep s (.tick o) (.next (Npu.gemmTick Binary64.ops o (Npu.beginStep s)))
    | none, some i => closeStep s (.instr i) (exec i (Npu.beginStep s))
    | none, none => .next (Npu.finish s)

/-- `s` with an instruction word in the program slot the next step fetches: the slot at pc, no GEMM in progress, and
the status READY where the status says that no program is loaded or that it has ended. It stands for the host's
loadProgram, the only way a program comes into the block (log 15). Slots between the program's end and pc, which no
reachable state has, are filled with the word 0. -/
def State.withFetchWord (s : State) (nbits w : Nat) : State :=
  let i := (decodeTableWord nbits w).getD .unknown0
  let before := s.prog.take s.pc
  { s with
    prog := before ++ List.replicate (s.pc - before.length) .unknown0 ++ [i] ++ s.prog.drop (s.pc + 1)
    op := none
    status := if s.status = .idle ∨ s.status = .finished then .ready else s.status }

end Sys2Proof.Machine
end

