-- ==== Sys2Proof/Machine/Assembler.lean ====
section
/-!
DEFINITION. The assembler (30_encoding R92 to R94): from text, as characters, to instruction words.

One instruction per line, in the call form. There are no pseudo-instructions (R93). What R92 leaves open of the
layout of a line (blanks, blank lines, the case of hexadecimal digits) is log 16.
-/

namespace Sys2Proof.Asm

/-- Why a line is refused (30_encoding R92). -/
inductive AsmError where
  /-- The line has none of the forms of R92. -/
  | badSyntax
  /-- "an unknown mnemonic" -/
  | unknownMnemonic
  /-- "an unknown function name" -/
  | unknownFunction
  /-- "a number outside 0 to 65535" -/
  | numberOutOfRange
deriving DecidableEq, Repr

/-- What assembling a line gives: a word, nothing (a blank or comment line), or a refusal. -/
inductive LineResult where
  | word (w : Word)
  | blank
  | refused (e : AsmError)
deriving DecidableEq, Repr

def isBlank (c : Char) : Bool := c = ' ' || c = '\t' || c = '\r'

/-- Remove blanks at both ends. -/
def trim (cs : List Char) : List Char :=
  ((cs.dropWhile isBlank).reverse.dropWhile isBlank).reverse

/-- "A `#` starts a comment that runs to the end of the line." -/
def stripComment (cs : List Char) : List Char := cs.takeWhile (fun c => c ≠ '#')

def decDigit (c : Char) : Option Nat :=
  if '0' ≤ c ∧ c ≤ '9' then some (c.toNat - '0'.toNat) else none

def hexDigit (c : Char) : Option Nat :=
  if '0' ≤ c ∧ c ≤ '9' then some (c.toNat - '0'.toNat)
  else if 'a' ≤ c ∧ c ≤ 'f' then some (c.toNat - 'a'.toNat + 10)
  else if 'A' ≤ c ∧ c ≤ 'F' then some (c.toNat - 'A'.toNat + 10)
  else none

/-- The value of a digit string read after `acc`. -/
def digitsValue (base : Nat) (digit : Char → Option Nat) (acc : Nat) : List Char → Option Nat
  | [] => some acc
  | c :: cs =>
    match digit c with
    | some d => digitsValue base digit (acc * base + d) cs
    | none => none

/-- "Numbers are decimal, or hexadecimal with the prefix `0x`." -/
def parseNumber : List Char → Option Nat
  | [] => none
  | ['0', 'x'] => none
  | '0' :: 'x' :: ds => digitsValue 16 hexDigit 0 ds
  | ds => digitsValue 10 decDigit 0 ds

/-- The arguments between the parentheses, cut at commas. -/
def splitCommas : List Char → List (List Char)
  | [] => [[]]
  | ',' :: cs => [] :: splitCommas cs
  | c :: cs =>
    match splitCommas cs with
    | [] => [[c]]
    | a :: rest => (c :: a) :: rest

/-- A call `name(a, b, c)`: its name and its arguments, blanks around them removed. -/
def parseCall (cs : List Char) : Option (List Char × List (List Char)) :=
  let name := cs.takeWhile (fun c => c ≠ '(')
  match cs.dropWhile (fun c => c ≠ '(') with
  | '(' :: body =>
    match body.reverse with
    | ')' :: rev => some (name, (splitCommas rev.reverse).map trim)
    | _ => none
  | _ => none

/-- Numbers to fields, then to an instruction; a number must be in 0 to 65535. -/
def withFields (args : List (List Char)) (mk : List Nat → Option Instr) : LineResult :=
  match args.mapM parseNumber with
  | none => .refused .badSyntax
  | some ns =>
    if ns.all fieldFits then
      match mk ns with
      | some i => .word (encodeWord i)
      | none => .refused .badSyntax
    else .refused .numberOutOfRange

/-- The activation functions the assembler knows: "fn is one of: relu, sigmoid, tanh". -/
def namedFn (name : List Char) : Option ActFn :=
  match ActFn.ofName name with
  | .other _ => none
  | f => some f

/-- A line `.word 0xHHHHHHHHHHHHHHHH`, after `.word`. -/
def parseRawWord (cs : List Char) : LineResult :=
  match trim cs with
  | '0' :: 'x' :: ds =>
    if ds.length = 16 then
      match digitsValue 16 hexDigit 0 ds with
      | some n => .word (BitVec.ofNat 64 n)
      | none => .refused .badSyntax
    else .refused .badSyntax
  | _ => .refused .badSyntax

/-- The instruction lines of R92 with operands. -/
def assembleCall (name : List Char) (args : List (List Char)) : LineResult :=
  if name = ['L', 'O', 'A', 'D'] then
    withFields args fun ns => match ns with
      | [src, dest, size] => some (.load src dest size)
      | _ => none
  else if name = ['S', 'T', 'O', 'R', 'E'] then
    withFields args fun ns => match ns with
      | [src, dest, size] => some (.store src dest size)
      | _ => none
  else if name = ['G', 'E', 'M', 'M'] then
    withFields args fun ns => match ns with
      | [addrA, addrB, addrC] => some (.gemm addrA addrB addrC)
      | _ => none
  else if name = ['A', 'C', 'T', 'I', 'V', 'A', 'T', 'E'] then
    match args with
    | [] => .refused .badSyntax
    | fnName :: rest =>
      match namedFn fnName with
      | none => .refused .unknownFunction
      | some fn => withFields rest fun ns => match ns with
        | [addr, size] => some (.activate fn addr size)
        | _ => none
  else .refused .unknownMnemonic

/-- Assemble one line (R92, R94): an instruction line gives the word of its instruction, a `.word` line its word. -/
def assembleLine (line : List Char) : LineResult :=
  let cs := trim (stripComment line)
  if cs = [] then .blank
  else if cs = ['W', 'A', 'I', 'T'] then .word (encodeWord .wait)
  else
    match cs with
    | '.' :: 'w' :: 'o' :: 'r' :: 'd' :: c :: rest =>
      if isBlank c then parseRawWord rest else .refused .badSyntax
    | _ =>
      match parseCall cs with
      | some (name, args) => assembleCall name args
      | none => if cs.all Char.isAlpha then .refused .unknownMnemonic else .refused .badSyntax

/-- Assemble a program, one line after the other; the first refused line refuses it. -/
def assembleLines : List (List Char) → Except AsmError (List Word)
  | [] => .ok []
  | line :: rest =>
    match assembleLine line, assembleLines rest with
    | .refused e, _ => .error e
    | _, .error e => .error e
    | .blank, .ok ws => .ok ws
    | .word w, .ok ws => .ok (w :: ws)

end Sys2Proof.Asm
end

