-- ==== Sys2Proof/Machine/RealScalar.lean ====
section
/-!
DEFINITION. REAL, the other admitted instance of SCALAR (00_scope R8 (i)): "exact real arithmetic, for proofs over
the mathematics". It instantiates the same generic machine (log 3). Real numbers are no plain data, so the machine
the host runs is the BINARY64 instance.
-/

namespace Sys2Proof

/-- REAL: relu is max(0, x), sigmoid 1/(1 + e^(−x)), tanh the hyperbolic tangent (45_activate R222 to R224). -/
noncomputable def realOps : ScalarOps ℝ :=
  { zero := 0
    add := fun x y => x + y
    mul := fun x y => x * y
    relu := fun x => max 0 x
    sigmoid := fun x => 1 / (1 + Real.exp (-x))
    tanh := Real.tanh }

end Sys2Proof
end

