-- ==== Sys2Proof/Machine/HostInterface.lean ====
section
/-!
DEFINITION. The host interface (42_scheduler R160 to R164, 70_reset_and_hazards R280, R281, 20_memory R54): the
commands reset, loadProgram, step, bulkLoad, read and observe, each atomic and between steps. `diags` of the state
after a command holds the diagnostics the host gets back from it (log 8).
-/

namespace Sys2Proof.Npu

variable {S : Type}

/-- reset() (70_reset_and_hazards R280). -/
def resetCommand (K : ScalarOps S) (s : State S) : State S :=
  { clearSets (clearBank .buf (clearBank .main s)) with
    pe := arrayReset K s.cfg.N
    prog := []
    pc := 0
    cycle := 0
    op := none
    log := []
    status := .idle
    diags := [] }

/-- Does a program fit the program store (00_scope R7, decision D6)? -/
def programFits (c : Config) (p : List Instr) : Bool :=
  match c.progCap with
  | none => true
  | some k => p.length ≤ k

/-- The effect of an admitted loadProgram(p) (70_reset_and_hazards R281): main memory is unchanged. -/
def installProgram (K : ScalarOps S) (p : List Instr) (s : State S) : State S :=
  { clearSets (clearBank .buf s) with
    prog := p
    pc := 0
    cycle := 0
    log := []
    pe := arrayReset K s.cfg.N
    op := none
    status := .ready
    diags := [] }

/-- bulkLoad(bank, offset, values) (20_memory R54): one independent write per element, no access set. -/
def bulkLoad [DecidableEq S] (K : ScalarOps S) (b : BankId) (offset : Nat) (values : List S) (s : State S) : State S :=
  forRange values.length (fun i => memWrite K b (offset + i) (values.getD i K.zero)) { s with diags := [] }

/-- read(bank, addr) (42_scheduler R163): MemRead; no state changes and no access set is written. -/
def hostRead (K : ScalarOps S) (b : BankId) (addr : Nat) (s : State S) : S × State S :=
  memRead K b addr { s with diags := [] }

/-- The observation outputs (42_scheduler R164). The sub-state `op` is not among them (decision D22). -/
structure Observation (S : Type) where
  status : Status
  pc : Nat
  cycle : Nat
  mainRd : AddrSet
  mainWr : AddrSet
  bufRd : AddrSet
  bufWr : AddrSet
  grid : Grid S
  log : List LogEntry
deriving DecidableEq, Repr

/-- observe (42_scheduler R164). -/
def observe (s : State S) : Observation S :=
  { status := s.status, pc := s.pc, cycle := s.cycle, mainRd := s.mainRd, mainWr := s.mainWr,
    bufRd := s.bufRd, bufWr := s.bufWr, grid := s.pe, log := s.log }

end Sys2Proof.Npu

namespace Sys2Proof.Machine

/-- loadProgram(p) (70_reset_and_hazards R281): refused, with the state unchanged, when p is longer than PROG_CAP. -/
def loadProgram (p : List Instr) (s : State) : Host.Outcome State Fault Refusal :=
  if Npu.programFits s.cfg p then .next (Npu.installProgram Binary64.ops p s) else .refused .programTooLong

/-- loadProgram of a program in its binary form: slot i holds the Decode of word i (30_encoding R97). -/
def loadWords (ws : List Word) (s : State) : Host.Outcome State Fault Refusal := loadProgram (ws.map decode) s

/-- The host commands (42_scheduler R160). -/
inductive HostCommand where
  | reset
  | loadProgram (p : List Instr)
  | step
  | bulkLoad (bank : BankId) (offset : Nat) (values : List Scalar)
  | read (bank : BankId) (addr : Nat)
  | observe
deriving DecidableEq, Repr

/-- What the host gets back besides the diagnostics (42_scheduler R160). -/
inductive Reply where
  | done
  | scalar (v : Scalar)
  | outputs (o : Npu.Observation Scalar)
deriving DecidableEq, Repr

/-- An outcome with the plain reply. -/
def withDone : Host.Outcome State Fault Refusal → Host.Outcome (State × Reply) Fault Refusal
  | .next t => .next (t, .done)
  | .fault f => .fault f
  | .refused r => .refused r

/-- One host command (42_scheduler R160), allowed in any status. -/
def hostCommand (c : HostCommand) (s : State) : Host.Outcome (State × Reply) Fault Refusal :=
  match c with
  | .reset => .next (Npu.resetCommand Binary64.ops s, .done)
  | .loadProgram p => withDone (loadProgram p s)
  | .step => withDone (step s)
  | .bulkLoad bank offset values => .next (Npu.bulkLoad Binary64.ops bank offset values s, .done)
  | .read bank addr =>
    let r := Npu.hostRead Binary64.ops bank addr s
    .next (r.2, .scalar r.1)
  | .observe => .next ({ s with diags := [] }, .outputs (Npu.observe s))

/-- A sequence of host commands; one that is not admitted leaves the state unchanged (R281). -/
def hostRun : List HostCommand → State → State
  | [], s => s
  | c :: cs, s =>
    match hostCommand c s with
    | .next (t, _) => hostRun cs t
    | .fault _ => hostRun cs s
    | .refused _ => hostRun cs s

end Sys2Proof.Machine
end

