-- ==== Sys2Proof/Safety.lean ====
section
/-!
DEFINITION. What a sound state is, and which states agree up to what no rule reads. Claims are stated in these terms.
-/

namespace Sys2Proof.Machine

/-- The invariant of the machine between host commands: the data is in its canonical form and the control state is
one of those the rules can produce. -/
structure Inv (s : State) : Prop where
  /-- Main memory is canonical and inside its capacity (10_state R22). -/
  mainWf : Memory.wf Binary64.posZero s.cfg.mainCap s.main
  /-- The buffer is canonical and inside its capacity (10_state R23). -/
  bufWf : Memory.wf Binary64.posZero s.cfg.bufCap s.buf
  /-- The grid has N rows of N PEs (10_state R25). -/
  gridShape : Grid.wf s.cfg.N s.pe
  /-- The access sets are sets (10_state R32). -/
  setsWf : AddrSet.wf s.mainRd ∧ AddrSet.wf s.mainWr ∧ AddrSet.wf s.bufRd ∧ AddrSet.wf s.bufWr
  /-- `0 <= pc <= L` (10_state R28). -/
  pcInProgram : s.pc ≤ s.prog.length
  /-- The program fits the program store (00_scope R7). -/
  progFits : Npu.programFits s.cfg s.prog = true
  /-- One log entry per non-terminal step, at most 100 of them (42_scheduler R150, R153). -/
  logLength : s.log.length = min s.cycle logCap
  /-- A GEMM in progress: total is 2N − 1 (10_state R30), at least one tick is done and one is left, pc is its index
  (10_state R28), its addresses are those of the instruction there, and the status is RUNNING. -/
  gemmInProgress : ∀ o ∈ s.op, o.total = gemmTicks s.cfg.N ∧ 0 < o.tick ∧ o.tick < o.total ∧
    s.prog[s.pc]? = some (.gemm o.addrA o.addrB o.addrC) ∧ s.status = .running
  /-- IDLE: the program is empty and nothing has run (42_scheduler R131). -/
  idleEmpty : s.status = .idle → s.prog = [] ∧ s.cycle = 0
  /-- READY: no step has run since the load (42_scheduler R131). -/
  readyFresh : s.status = .ready → s.pc = 0 ∧ s.cycle = 0 ∧ s.op = none
  /-- FINISHED: no GEMM is in progress and the whole program is done (42_scheduler R132, R156). -/
  finishedDone : s.status = .finished → s.op = none ∧ s.pc = s.prog.length

/-- The state without what "no rule of this spec reads except the host observation" (10_state R32, R33, R35): the
access sets, the log and the diagnostics. -/
def eraseObservation (s : State) : State :=
  { s with mainRd := [], mainWr := [], bufRd := [], bufWr := [], log := [], diags := [] }

/-- Two states that differ at most in observation-only state. -/
def SameCore (s t : State) : Prop := eraseObservation s = eraseObservation t

/-- The reserved opcodes with their opcode values (30_encoding R83, R88). -/
def reservedOpcodes : List (Instr × Nat) :=
  [(.unknown0, 0x0), (.unknown6, 0x6), (.unknown7, 0x7), (.unknown8, 0x8), (.unknown9, 0x9), (.unknownA, 0xA),
   (.unknownB, 0xB), (.unknownC, 0xC), (.unknownD, 0xD), (.unknownE, 0xE), (.unknownF, 0xF)]

/-- The cycles an instruction takes (42_scheduler R147, 70_reset_and_hazards R295). -/
def cyclesOf (N : Nat) : Instr → Nat
  | .gemm _ _ _ => gemmTicks N
  | .load _ _ _ => 1
  | .store _ _ _ => 1
  | .activate _ _ _ => 1
  | .wait => 1
  | .unknown0 => 1
  | .unknown6 => 1
  | .unknown7 => 1
  | .unknown8 => 1
  | .unknown9 => 1
  | .unknownA => 1
  | .unknownB => 1
  | .unknownC => 1
  | .unknownD => 1
  | .unknownE => 1
  | .unknownF => 1
  | .unknownAbove _ => 1

/-- The cycles of a program (42_scheduler R156). -/
def programCycles (N : Nat) (p : List Instr) : Nat := (p.map (cyclesOf N)).sum

/-- Is the instruction a GEMM? -/
def isGemm : Instr → Bool
  | .gemm _ _ _ => true
  | .load _ _ _ => false
  | .store _ _ _ => false
  | .activate _ _ _ => false
  | .wait => false
  | .unknown0 => false
  | .unknown6 => false
  | .unknown7 => false
  | .unknown8 => false
  | .unknown9 => false
  | .unknownA => false
  | .unknownB => false
  | .unknownC => false
  | .unknownD => false
  | .unknownE => false
  | .unknownF => false
  | .unknownAbove _ => false

/-- The next step fetches this GEMM (44_gemm R192). -/
abbrev FetchesGemm (s : State) (addrA addrB addrC : Nat) : Prop :=
  s.status ≠ .finished ∧ s.op = none ∧ s.prog[s.pc]? = some (.gemm addrA addrB addrC)

/-- The diagnostics of a copy of `size` elements: per element its read, then its write (20_memory R66). -/
def copyDiags (s : State) (f t : BankId) (src dest size : Nat) : List Diag :=
  (List.range size).flatMap (fun i =>
    Npu.readDiag (Npu.cap f s) f (src + i) ++ Npu.writeDiag (Npu.cap t s) t (dest + i))

/-- The diagnostics of the feed reads of a GEMM tick: rows, then columns, each ascending (44_gemm R205). -/
def feedDiags (s : State) (o : GemmOp) : List Diag :=
  (List.range s.cfg.N).flatMap (fun r =>
    if feeds s.cfg.N o.tick r then Npu.readDiag s.cfg.bufCap .buf (leftAddr s.cfg.N o r) else []) ++
  (List.range s.cfg.N).flatMap (fun c =>
    if feeds s.cfg.N o.tick c then Npu.readDiag s.cfg.bufCap .buf (topAddr s.cfg.N o c) else [])

/-- The diagnostics of a GEMM's result writes, row-major (44_gemm R196). -/
def resultDiags (s : State) (o : GemmOp) : List Diag :=
  (List.range s.cfg.N).flatMap (fun i => (List.range s.cfg.N).flatMap (fun j =>
    Npu.writeDiag s.cfg.bufCap .buf (resultAddr s.cfg.N o i j)))

/-- `a` is the address of a feed element of tick `o.tick` (44_gemm R193, R194, R203). -/
def IsFeedAddr (N : Nat) (o : GemmOp) (a : Nat) : Prop :=
  ∃ k < N, feeds N o.tick k = true ∧ (a = leftAddr N o k ∨ a = topAddr N o k)

/-- What one GEMM tick on `o` makes of the state `s` of its cycle (44_gemm R193 to R197, R202, R203, R205): `u` is the
state after it. The array is stepped from the snapshot `s.pe`; on the last tick the result is written and pc moves. -/
structure GemmTickResult (s : State) (o : GemmOp) (u : State) : Prop where
  /-- R118 with the feeds of R193 and R194. -/
  grid : ∀ r < s.cfg.N, ∀ c < s.cfg.N, Grid.at Binary64.ops u.pe r c =
    (let old := s.pe
     let h := if c = 0 then Npu.leftFeed Binary64.ops o s r else (Grid.at Binary64.ops old r (c - 1)).a
     let v := if r = 0 then Npu.topFeed Binary64.ops o s c else (Grid.at Binary64.ops old (r - 1) c).b
     { acc := Binary64.add (Grid.at Binary64.ops old r c).acc (Binary64.mul h v), a := h, b := v })
  shape : Grid.wf s.cfg.N u.pe
  /-- Not the last tick: tick + 1, pc and buffer unchanged (R197). -/
  notLast : o.tick ≠ o.total - 1 →
    u.op = some { o with tick := o.tick + 1 } ∧ u.pc = s.pc ∧ u.buf = s.buf ∧ u.bufWr = s.bufWr ∧
      u.diags = s.diags ++ feedDiags s o
  /-- The last tick: the accumulators row-major at addrC, where the cells exist (R196, R202). -/
  last : o.tick = o.total - 1 →
    u.op = none ∧ u.pc = s.pc + 1 ∧
      (∀ i < s.cfg.N, ∀ j < s.cfg.N, resultAddr s.cfg.N o i j < s.cfg.bufCap →
        Npu.peek Binary64.ops .buf (resultAddr s.cfg.N o i j) u = (Grid.at Binary64.ops u.pe i j).acc) ∧
      (∀ a, ¬ (o.addrC ≤ a ∧ a < o.addrC + s.cfg.N * s.cfg.N) →
        Npu.peek Binary64.ops .buf a u = Npu.peek Binary64.ops .buf a s) ∧
      (∀ a, a ∈ u.bufWr ↔ a ∈ s.bufWr ∨ (o.addrC ≤ a ∧ a < o.addrC + s.cfg.N * s.cfg.N)) ∧
      u.diags = s.diags ++ feedDiags s o ++ resultDiags s o
  /-- Exactly the feed addresses are recorded (R203). -/
  reads : ∀ a, a ∈ u.bufRd ↔ a ∈ s.bufRd ∨ IsFeedAddr s.cfg.N o a
  /-- Everything else is unchanged; a GEMM reads no main memory (R206). -/
  frame : u.cfg = s.cfg ∧ u.main = s.main ∧ u.prog = s.prog ∧ u.status = s.status ∧ u.cycle = s.cycle ∧
    u.mainRd = s.mainRd ∧ u.mainWr = s.mainWr ∧ u.log = s.log

/-- What LOAD, STORE, ACTIVATE, WAIT and UNKNOWN leave alone: everything but the banks, the access sets, the pc and
the diagnostics (10_state R21, R34: there are no registers or flags). -/
abbrev SameButAccess (s t : State) : Prop :=
  t.cfg = s.cfg ∧ t.pe = s.pe ∧ t.prog = s.prog ∧ t.status = s.status ∧ t.cycle = s.cycle ∧ t.op = s.op ∧
    t.log = s.log

/-! ## Assembly lines as text (30_encoding R92) -/

/-- The decimal text of a number. -/
def decimal (n : Nat) : List Char := Nat.toDigits 10 n

/-- The text `name(a, b, c)` with the given arguments. -/
def callText (name : List Char) (args : List (List Char)) : List Char :=
  name ++ ['('] ++ List.intercalate [',', ' '] args ++ [')']

end Sys2Proof.Machine
end

