-- ==== Sys2Proof/Certificates/Slice0/Obligations.lean ====
section
/-!
DEFINITION. The statements about the model, one definition each. Every docstring names the rules it formalises; the
list with tiers and citations is OBLIGATIONS.json.
-/

open Sys2Proof Sys2Proof.Machine

/-! ## The binary form (30_encoding) -/

/-- 95_test_vectors section 2.0: the sixteen words of the table decode as it says. -/
def Obligations.SampleWordsDecode : Prop :=
  decode 0x1000000000000010#64 = .load 0 0 16 ∧
  decode 0x1000001000100010#64 = .load 16 16 16 ∧
  decode 0x2000002000200010#64 = .store 32 32 16 ∧
  decode 0x3000000000100020#64 = .gemm 0 16 32 ∧
  decode 0x4000002000000010#64 = .activate .relu 32 16 ∧
  decode 0x4100002000000010#64 = .activate .sigmoid 32 16 ∧
  decode 0x4200000000000002#64 = .activate .tanh 0 2 ∧
  decode 0x4100002000FF0010#64 = .activate .sigmoid 32 16 ∧
  decode 0x4700000200000002#64 = .activate (.other 7) 2 2 ∧
  decode 0x1123456789ABCDEF#64 = .load 17767 35243 52719 ∧
  decode 0x1000FFFFFFFFFFFF#64 = .load 65535 65535 65535 ∧
  decode 0x5000000000000000#64 = .wait ∧
  decode 0x5FFFFFFFFFFFFFFF#64 = .wait ∧
  decode 0x0000000000000000#64 = .unknown0 ∧
  decode 0x6000000000000000#64 = .unknown6 ∧
  decode 0xF123456789ABCDEF#64 = .unknownF

/-- R95 over the layout of R82: the word made of the six fields, most significant first, decodes by its opcode field;
RSV is ignored, and so is every field the opcode does not use. -/
def Obligations.DecodeFollowsFieldLayout : Prop :=
  ∀ (opc fn : BitVec 4) (rsv : BitVec 8) (x y z : BitVec 16),
    let w : Word := opc ++ fn ++ rsv ++ x ++ y ++ z
    (opc = 0x1#4 → decode w = .load x.toNat y.toNat z.toNat) ∧
    (opc = 0x2#4 → decode w = .store x.toNat y.toNat z.toNat) ∧
    (opc = 0x3#4 → decode w = .gemm x.toNat y.toNat z.toNat) ∧
    (opc = 0x4#4 → fn = 0#4 → decode w = .activate .relu x.toNat z.toNat) ∧
    (opc = 0x4#4 → fn = 1#4 → decode w = .activate .sigmoid x.toNat z.toNat) ∧
    (opc = 0x4#4 → fn = 2#4 → decode w = .activate .tanh x.toNat z.toNat) ∧
    (opc = 0x4#4 → 3 ≤ fn.toNat → decode w = .activate (.other fn.toNat) x.toNat z.toNat) ∧
    (opc = 0x5#4 → decode w = .wait) ∧
    (opc = 0x0#4 → decode w = .unknown0) ∧ (opc = 0x6#4 → decode w = .unknown6) ∧
    (opc = 0x7#4 → decode w = .unknown7) ∧ (opc = 0x8#4 → decode w = .unknown8) ∧
    (opc = 0x9#4 → decode w = .unknown9) ∧ (opc = 0xA#4 → decode w = .unknownA) ∧
    (opc = 0xB#4 → decode w = .unknownB) ∧ (opc = 0xC#4 → decode w = .unknownC) ∧
    (opc = 0xD#4 → decode w = .unknownD) ∧ (opc = 0xE#4 → decode w = .unknownE) ∧
    (opc = 0xF#4 → decode w = .unknownF)

/-- R86: two words of one opcode that agree outside the bits the opcode ignores decode to the same instruction, and
the encoder (which the assembler uses) writes every ignored bit as 0. -/
def Obligations.IgnoredBitsDoNotChangeDecode : Prop :=
  (∀ w v : Word, opcField w = opcField v →
    w &&& ~~~ (ignoredBits (opcField w)) = v &&& ~~~ (ignoredBits (opcField w)) → decode w = decode v) ∧
  (∀ i : Instr, ∀ w : Word, encode i = some w → w &&& ignoredBits (opcField w) = 0#64)

/-- R96: Encode and Decode are inverse to each other, Encode is defined exactly on the well-formed instructions, and
it sets the opcode of R83 and every ignored bit to 0. -/
def Obligations.DecodeEncodeInverse : Prop :=
  (∀ i : Instr, i.wf = true → ∃ w, encode i = some w ∧ decode w = i ∧ (opcField w).toNat = i.opc ∧
    w &&& ignoredBits (opcField w) = 0#64) ∧
  (∀ w : Word, w &&& ignoredBits (opcField w) = 0#64 → encode (decode w) = some w) ∧
  (∀ i : Instr, i.wf = false → encode i = none)

/-- R87, R95: whatever a word decodes to has 16-bit fields, and an OTHER code from 3 to 15. -/
def Obligations.DecodedInstructionsAreWellFormed : Prop :=
  ∀ w : Word, (decode w).wf = true

/-- R94 (the examples) and R92 (the refusals of 95_test_vectors section 2.0). -/
def Obligations.AssemblerExamples : Prop :=
  Asm.assembleLine ['L', 'O', 'A', 'D', '(', '0', ',', ' ', '0', ',', ' ', '1', '6', ')'] =
    .word 0x1000000000000010#64 ∧
  Asm.assembleLine ['W', 'A', 'I', 'T'] = .word 0x5000000000000000#64 ∧
  Asm.assembleLine ['L', 'O', 'A', 'D', '(', '0', ',', '0', ',', '6', '5', '5', '3', '6', ')'] =
    .refused .numberOutOfRange ∧
  Asm.assembleLine (['A', 'C', 'T', 'I', 'V', 'A', 'T', 'E', '('] ++ ['R', 'e', 'l', 'u', ',', '0', ',', '1', ')']) =
    .refused .unknownFunction ∧
  Asm.assembleLine ['F', 'O', 'O', '(', '1', ')'] = .refused .unknownMnemonic

/-- R92, R94: for every field value, the line of an instruction written with decimal numbers assembles to the
instruction's word, and a number above 65535 is refused. -/
def Obligations.DecimalLinesAssemble : Prop :=
  (∀ x y z : Nat, x < 65536 → y < 65536 → z < 65536 →
    Asm.assembleLine (callText ['L', 'O', 'A', 'D'] [decimal x, decimal y, decimal z]) =
      .word (encodeWord (.load x y z)) ∧
    Asm.assembleLine (callText ['S', 'T', 'O', 'R', 'E'] [decimal x, decimal y, decimal z]) =
      .word (encodeWord (.store x y z)) ∧
    Asm.assembleLine (callText ['G', 'E', 'M', 'M'] [decimal x, decimal y, decimal z]) =
      .word (encodeWord (.gemm x y z)) ∧
    (∀ f ∈ [(['r', 'e', 'l', 'u'], ActFn.relu), (['s', 'i', 'g', 'm', 'o', 'i', 'd'], ActFn.sigmoid),
        (['t', 'a', 'n', 'h'], ActFn.tanh)],
      Asm.assembleLine (callText ['A', 'C', 'T', 'I', 'V', 'A', 'T', 'E'] [f.1, decimal x, decimal z]) =
        .word (encodeWord (.activate f.2 x z)))) ∧
  (∀ x : Nat, 65536 ≤ x →
    Asm.assembleLine (callText ['L', 'O', 'A', 'D'] [decimal x, decimal 0, decimal 0]) = .refused .numberOutOfRange)

/-! ## The banks (20_memory) -/

/-- R52: MemRead returns the cell, or 0 with OOB_READ; it changes no cell and records nothing. -/
def Obligations.MemReadReturnsCellOrZero : Prop :=
  ∀ (b : BankId) (addr : Nat) (s : State),
    (addr < Npu.cap b s → Npu.memRead Binary64.ops b addr s =
      (Memory.read 0#64 addr (Npu.cells b s), s)) ∧
    (Npu.cap b s ≤ addr → Npu.memRead Binary64.ops b addr s =
      (0#64, { s with diags := s.diags ++ [.oobRead b addr] }))

/-- R53: MemWrite writes the one cell, or changes no cell and emits OOB_WRITE. -/
def Obligations.MemWriteWritesOneCellOrNone : Prop :=
  ∀ (b : BankId) (addr : Nat) (v : Scalar) (s : State),
    (addr < Npu.cap b s →
      (∀ b' a, Npu.peek Binary64.ops b' a (Npu.memWrite Binary64.ops b addr v s) =
        if b' = b ∧ a = addr then v else Npu.peek Binary64.ops b' a s) ∧
      (Npu.memWrite Binary64.ops b addr v s).diags = s.diags) ∧
    (Npu.cap b s ≤ addr → Npu.memWrite Binary64.ops b addr v s =
      { s with diags := s.diags ++ [.oobWrite b addr] })

/-- R57: an out-of-bounds read or write changes no in-range cell of any bank, whether a host command makes it
(MemRead, MemWrite) or an engine step. -/
def Obligations.OutOfBoundsAccessChangesNoCell : Prop :=
  ∀ (b : BankId) (addr : Nat) (v : Scalar) (s : State), Npu.cap b s ≤ addr → ∀ (b' : BankId) (a : Nat),
    a < Npu.cap b' s →
    Npu.peek Binary64.ops b' a (Npu.memRead Binary64.ops b addr s).2 = Npu.peek Binary64.ops b' a s ∧
    Npu.peek Binary64.ops b' a (Npu.memWrite Binary64.ops b addr v s) = Npu.peek Binary64.ops b' a s ∧
    Npu.peek Binary64.ops b' a (Npu.engineRead Binary64.ops b addr s).2 = Npu.peek Binary64.ops b' a s ∧
    Npu.peek Binary64.ops b' a (Npu.engineWrite Binary64.ops b addr v s) = Npu.peek Binary64.ops b' a s

/-- R54: bulkLoad writes element i to offset + i, independently of the others, on either bank; it writes no access
set, and everything but that bank and the diagnostics is unchanged. -/
def Obligations.BulkLoadWritesEachElement : Prop :=
  ∀ (b : BankId) (offset : Nat) (values : List Scalar) (s : State),
    ∃ t, hostCommand (.bulkLoad b offset values) s = .next (t, .done) ∧
      (∀ b' a, Npu.peek Binary64.ops b' a t =
        if b' = b ∧ offset ≤ a ∧ a < offset + values.length ∧ a < Npu.cap b s then values.getD (a - offset) 0#64
        else Npu.peek Binary64.ops b' a s) ∧
      t.diags = (List.range values.length).flatMap (fun i => Npu.writeDiag (Npu.cap b s) b (offset + i)) ∧
      SameButAccess s t ∧ t.pc = s.pc ∧
      t.mainRd = s.mainRd ∧ t.mainWr = s.mainWr ∧ t.bufRd = s.bufRd ∧ t.bufWr = s.bufWr

/-! ## The instructions -/

/-- R170, R172: LOAD answers a next state for every state and operands. The buffer cells dest .. dest+size−1 that
exist hold the main cells src .. (0 where out of bounds), bit for bit; every other cell of both banks is as before;
the touched addresses are recorded, as computed; one diagnostic per out-of-bounds access, in order; pc + 1; nothing
else changes. -/
def Obligations.LoadCopiesMainToBuffer : Prop :=
  ∀ (src dest size : Nat) (s : State), ∃ t, exec (.load src dest size) s = .next t ∧
    t.pc = s.pc + 1 ∧ t.main = s.main ∧
    (∀ a, Npu.peek Binary64.ops .buf a t =
      if dest ≤ a ∧ a < dest + size ∧ a < s.cfg.bufCap then Npu.peek Binary64.ops .main (src + (a - dest)) s
      else Npu.peek Binary64.ops .buf a s) ∧
    (∀ a, a ∈ t.mainRd ↔ a ∈ s.mainRd ∨ (src ≤ a ∧ a < src + size)) ∧
    (∀ a, a ∈ t.bufWr ↔ a ∈ s.bufWr ∨ (dest ≤ a ∧ a < dest + size)) ∧
    t.mainWr = s.mainWr ∧ t.bufRd = s.bufRd ∧
    t.diags = s.diags ++ copyDiags s .main .buf src dest size ∧ SameButAccess s t

/-- R171, R172: STORE, the same from the buffer to main memory. -/
def Obligations.StoreCopiesBufferToMain : Prop :=
  ∀ (src dest size : Nat) (s : State), ∃ t, exec (.store src dest size) s = .next t ∧
    t.pc = s.pc + 1 ∧ t.buf = s.buf ∧
    (∀ a, Npu.peek Binary64.ops .main a t =
      if dest ≤ a ∧ a < dest + size ∧ a < s.cfg.mainCap then Npu.peek Binary64.ops .buf (src + (a - dest)) s
      else Npu.peek Binary64.ops .main a s) ∧
    (∀ a, a ∈ t.bufRd ↔ a ∈ s.bufRd ∨ (src ≤ a ∧ a < src + size)) ∧
    (∀ a, a ∈ t.mainWr ↔ a ∈ s.mainWr ∨ (dest ≤ a ∧ a < dest + size)) ∧
    t.mainRd = s.mainRd ∧ t.bufWr = s.bufWr ∧
    t.diags = s.diags ++ copyDiags s .buf .main src dest size ∧ SameButAccess s t

/-- R221, R225, R226: ACTIVATE answers a next state for every function, state and operands. Each existing cell of the
range holds the function of what it held, OTHER being relu; every other cell, main memory and the array are as
before. -/
def Obligations.ActivateTransformsInPlace : Prop :=
  ∀ (fn : ActFn) (addr size : Nat) (s : State), ∃ t, exec (.activate fn addr size) s = .next t ∧
    t.pc = s.pc + 1 ∧ t.main = s.main ∧
    (∀ a, Npu.peek Binary64.ops .buf a t =
      if addr ≤ a ∧ a < addr + size ∧ a < s.cfg.bufCap then
        (match fn with
          | .relu => Binary64.relu (Npu.peek Binary64.ops .buf a s)
          | .sigmoid => Binary64.sigmoid (Npu.peek Binary64.ops .buf a s)
          | .tanh => Binary64.tanh (Npu.peek Binary64.ops .buf a s)
          | .other _ => Binary64.relu (Npu.peek Binary64.ops .buf a s))
      else Npu.peek Binary64.ops .buf a s) ∧
    (∀ a, a ∈ t.bufRd ↔ a ∈ s.bufRd ∨ (addr ≤ a ∧ a < addr + size)) ∧
    (∀ a, a ∈ t.bufWr ↔ a ∈ s.bufWr ∨ (addr ≤ a ∧ a < addr + size)) ∧
    t.mainRd = s.mainRd ∧ t.mainWr = s.mainWr ∧
    t.diags = s.diags ++ copyDiags s .buf .buf addr addr size ∧ SameButAccess s t

/-- R240: WAIT advances the pc and changes nothing else, for every state. -/
def Obligations.WaitOnlyAdvancesPc : Prop :=
  ∀ s : State, exec .wait s = .next { s with pc := s.pc + 1 }

/-- R81, R241, R254: each of the eleven reserved opcodes, and UNKNOWN(opc) for every opcode that is not one of R80 (of
the abstract form, 16 and above, log 13), emits UNKNOWN_OPCODE with the pc and the opcode value, advances the pc and
changes nothing else, for every state. -/
def Obligations.UnknownOpcodeReportsAndAdvances : Prop :=
  ∀ s : State,
    (∀ p ∈ reservedOpcodes,
      exec p.1 s = .next { s with pc := s.pc + 1, diags := s.diags ++ [.unknownOpcode s.pc p.2] }) ∧
    (∀ beyond : Nat, exec (.unknownAbove beyond) s =
      .next { s with pc := s.pc + 1, diags := s.diags ++ [.unknownOpcode s.pc (16 + beyond)] }) ∧
    (∀ opc : Nat, ¬ (1 ≤ opc ∧ opc ≤ 5) → ∃ i, Instr.unknown opc = some i ∧ i.opc = opc ∧ tagOf i = .error ∧
      exec i s = .next { s with pc := s.pc + 1, diags := s.diags ++ [.unknownOpcode s.pc opc] })

/-- R192, R205, R206: GEMM answers a next state for every state and operands: the array is reset and tick 0 of
2N − 1 performed, whatever the array held. For N = 1 that is the whole GEMM. -/
def Obligations.GemmFetchCycleIsTickZero : Prop :=
  ∀ (addrA addrB addrC : Nat) (s : State), ∃ t, exec (.gemm addrA addrB addrC) s = .next t ∧
    (let s0 := { s with pe := arrayReset Binary64.ops s.cfg.N }
     GemmTickResult s0 { tick := 0, total := 2 * s.cfg.N - 1, addrA := addrA, addrB := addrB, addrC := addrC } t) ∧
    (∀ r < s.cfg.N, ∀ c < s.cfg.N, Grid.at Binary64.ops (arrayReset Binary64.ops s.cfg.N) r c =
      { acc := 0#64, a := 0#64, b := 0#64 })

/-- R143, R145, R193 to R197, R203, R205: a step with a GEMM in progress performs its next tick, fetches nothing, and
logs one GEMM entry; the access sets are exactly those of the tick. -/
def Obligations.StepContinuesGemm : Prop :=
  ∀ (s : State) (o : GemmOp), s.status ≠ .finished → s.op = some o → ∃ u,
    GemmTickResult
      { s with status := .running, mainRd := [], mainWr := [], bufRd := [], bufWr := [], diags := [] } o u ∧
    step s = .next { u with
      log := logAppend s.log
        { cycle := s.cycle, pc := s.pc, tag := .gemm, detail := Config.logDetail (Npu.withoutDiags s) (.tick o) .gemm }
      cycle := s.cycle + 1 }

/-- R203: tick t has min(t, N−1) − max(0, t−N+1) + 1 left reads, and as many top reads. -/
def Obligations.FeedCountOfTick : Prop :=
  ∀ N t : Nat, 0 < N → t < 2 * N - 1 →
    ((List.range N).filter (fun k => feeds N t k)).length + (t - (N - 1)) = min t (N - 1) + 1

/-- R191, R197, R198: a GEMM fetched at cycle c0 holds the engine for exactly 2N − 1 steps: after k < 2N − 1 of them
it is in progress with k ticks done and pc unchanged; after the last, pc has advanced by one. -/
def Obligations.GemmTakesExactlyItsTicks : Prop :=
  ∀ (s : State) (addrA addrB addrC : Nat), FetchesGemm s addrA addrB addrC →
    (∀ k, 0 < k → k < 2 * s.cfg.N - 1 → ∃ t, Host.Core.run Sys2Proof.core k s = .next t ∧
      Npu.State.op t = some { tick := k, total := 2 * s.cfg.N - 1, addrA := addrA, addrB := addrB, addrC := addrC } ∧
      Npu.State.pc t = s.pc ∧ Npu.State.cycle t = s.cycle + k ∧ Npu.State.buf t = s.buf) ∧
    (∃ t, Host.Core.run Sys2Proof.core (2 * s.cfg.N - 1) s = .next t ∧
      Npu.State.op t = none ∧ Npu.State.pc t = s.pc + 1 ∧
      Npu.State.cycle t = s.cycle + (2 * s.cfg.N - 1) ∧ Npu.State.status t = .running)

/-- R199, R201, R202: what a GEMM writes, whatever the overlap of its regions: C[r][c] is the k-ascending sum of the
first K(r, c) + 1 products, each product and each sum one rounded operation. Two NaNs count as the same value (log
23). Every cell outside the result area, and all of main memory, is as before. -/
def Obligations.GemmWritesTruncatedProduct : Prop :=
  ∀ (s : State) (addrA addrB addrC : Nat), FetchesGemm s addrA addrB addrC →
    ∃ t, Host.Core.run Sys2Proof.core (2 * s.cfg.N - 1) s = .next t ∧
      (∀ r < s.cfg.N, ∀ c < s.cfg.N, addrC + r * s.cfg.N + c < s.cfg.bufCap →
        Binary64.same (Npu.peek Binary64.ops .buf (addrC + r * s.cfg.N + c) t)
          (gemmEntry Binary64.ops s.cfg.N (operand Binary64.ops s addrA) (operand Binary64.ops s addrB) r c)) ∧
      (∀ a, ¬ (addrC ≤ a ∧ a < addrC + s.cfg.N * s.cfg.N) →
        Npu.peek Binary64.ops .buf a t = Npu.peek Binary64.ops .buf a s) ∧
      Npu.State.main t = s.main

/-- R204: the grid after a GEMM. The accumulators are the results, two NaNs counting as the same value
(93_implementation_defined item 9, log 23); a and b are the last operands on and below the anti-diagonal, 0 above it. -/
def Obligations.GridAfterGemm : Prop :=
  ∀ (s : State) (addrA addrB addrC : Nat), FetchesGemm s addrA addrB addrC →
    ∃ t, Host.Core.run Sys2Proof.core (2 * s.cfg.N - 1) s = .next t ∧
      (∀ r < s.cfg.N, ∀ c < s.cfg.N,
        Binary64.same (Grid.at Binary64.ops (Npu.State.pe t) r c).acc
          (gemmEntry Binary64.ops s.cfg.N (operand Binary64.ops s addrA) (operand Binary64.ops s addrB) r c) ∧
        (Grid.at Binary64.ops (Npu.State.pe t) r c).a =
          (if s.cfg.N - 1 ≤ r + c then operand Binary64.ops s addrA r (2 * s.cfg.N - 2 - r - c) else 0#64) ∧
        (Grid.at Binary64.ops (Npu.State.pe t) r c).b =
          (if s.cfg.N - 1 ≤ r + c then operand Binary64.ops s addrB (2 * s.cfg.N - 2 - r - c) c else 0#64))

/-- R173: LOAD then STORE back. In range the main cells hold exactly their values before; where the buffer cell does
not exist the main cell becomes 0; cells outside the range are untouched. -/
def Obligations.LoadStoreRoundTrip : Prop :=
  ∀ (src dest size : Nat) (s : State), ∃ t u, exec (.load src dest size) s = .next t ∧
    exec (.store dest src size) t = .next u ∧
    (src + size ≤ s.cfg.mainCap → dest + size ≤ s.cfg.bufCap →
      ∀ a, Npu.peek Binary64.ops .main a u = Npu.peek Binary64.ops .main a s) ∧
    (∀ i < size, src + i < s.cfg.mainCap → s.cfg.bufCap ≤ dest + i →
      Npu.peek Binary64.ops .main (src + i) u = 0#64) ∧
    (∀ i < size, src + i < s.cfg.mainCap → dest + i < s.cfg.bufCap →
      Npu.peek Binary64.ops .main (src + i) u = Npu.peek Binary64.ops .main (src + i) s)

/-! ## The array (41_systolic_array), over any scalar type -/

/-- R122: the propagation law. After tick t, a is the left input of t − c ticks ago, b the top input of t − r ticks
ago, 0 before they arrive. -/
def Obligations.OperandsMoveOnePlacePerTick : Prop :=
  ∀ (S : Type) (K : ScalarOps S) (N : Nat) (left top : Nat → Nat → S) (t r c : Nat), r < N → c < N →
    (Grid.at K (arrayRun K N left top (t + 1)) r c).a = (if c ≤ t then left (t - c) r else K.zero) ∧
    (Grid.at K (arrayRun K N left top (t + 1)) r c).b = (if r ≤ t then top (t - r) c else K.zero)

/-- R123, R116: in tick t, PE (r, c) adds the product of the left input of t − c and the top input of t − r. -/
def Obligations.EachTickAddsOneProduct : Prop :=
  ∀ (S : Type) (K : ScalarOps S) (N : Nat) (left top : Nat → Nat → S) (t r c : Nat), r < N → c < N →
    (Grid.at K (arrayRun K N left top 0) r c).acc = K.zero ∧
    (Grid.at K (arrayRun K N left top (t + 1)) r c).acc =
      K.add (Grid.at K (arrayRun K N left top t) r c).acc
        (K.mul (if c ≤ t then left (t - c) r else K.zero) (if r ≤ t then top (t - r) c else K.zero))

/-! ## REAL, the second instance of SCALAR -/

/-- R199 over REAL: the generic machine's 2N − 1 steps write the sum of the products k = 0 .. K(r, c), exactly. -/
def Obligations.RealGemmWritesPartialSums : Prop :=
  ∀ (s : Npu.State ℝ) (addrA addrB addrC : Nat), s.status ≠ .finished → s.op = none →
    s.prog[s.pc]? = some (.gemm addrA addrB addrC) → ∀ r < s.cfg.N, ∀ c < s.cfg.N,
    addrC + r * s.cfg.N + c < s.cfg.bufCap →
      Npu.peek realOps .buf (addrC + r * s.cfg.N + c) (Npu.runSteps realOps (2 * s.cfg.N - 1) s) =
        ∑ k ∈ Finset.range (min (s.cfg.N - 1) (2 * s.cfg.N - 2 - r - c) + 1),
          operand realOps s addrA r k * operand realOps s addrB k c

/-- R200: over REAL the GEMM's result is the product A·B exactly when the products its ticks miss sum to 0 at every
entry below the anti-diagonal. -/
def Obligations.RealGemmIsProductIff : Prop :=
  ∀ (N : Nat) (A B : Nat → Nat → ℝ), 0 < N →
    ((∀ r < N, ∀ c < N, gemmEntry realOps N A B r c = ∑ k ∈ Finset.range N, A r k * B k c) ↔
      (∀ r < N, ∀ c < N, N ≤ r + c → ∑ k ∈ Finset.Ico (2 * N - 1 - r - c) N, A r k * B k c = 0))

/-- R200 (i) to (iii): the three sufficient conditions. -/
def Obligations.RealGemmIsProductWhen : Prop :=
  ∀ (N : Nat) (A B : Nat → Nat → ℝ), 0 < N →
    (N = 1 ∨
      (∃ m, 0 < m ∧ 3 * (m - 1) ≤ 2 * N - 2 ∧
        (∀ i < N, ∀ j < N, m ≤ i ∨ m ≤ j → A i j = 0 ∧ B i j = 0)) ∨
      (∀ r < N, ∀ c < N, ∀ k < N, 2 * N - 2 < r + c + k → A r k * B k c = 0)) →
    ∀ r < N, ∀ c < N, gemmEntry realOps N A B r c = ∑ k ∈ Finset.range N, A r k * B k c

/-- R227, R222 to R224 over REAL: sigmoid in (0, 1), tanh in (−1, 1), relu the positive part and idempotent. -/
def Obligations.RealActivationBounds : Prop :=
  ∀ x : ℝ, 0 < act realOps .sigmoid x ∧ act realOps .sigmoid x < 1 ∧
    -1 < act realOps .tanh x ∧ act realOps .tanh x < 1 ∧
    act realOps .relu x = (if 0 < x then x else 0) ∧
    act realOps .relu (act realOps .relu x) = act realOps .relu x

/-! ## BINARY64 -/

/-- R222: relu is x for x > 0 (+∞ included), +0 for a negative number, −∞, −0 and +0, and a NaN for a NaN; OTHER is
relu (R225). -/
def Obligations.ReluOfEveryPattern : Prop :=
  ∀ x : Scalar,
    (Binary64.isNaN x = true → Binary64.isNaN (act Binary64.ops .relu x) = true) ∧
    (Binary64.isNaN x = false → Binary64.sign x = false → Binary64.isZero x = false →
      act Binary64.ops .relu x = x) ∧
    (Binary64.isNaN x = false → Binary64.sign x = true ∨ Binary64.isZero x = true →
      act Binary64.ops .relu x = 0#64) ∧
    (∀ code, act Binary64.ops (.other code) x = act Binary64.ops .relu x)

/-- R223: the values EXP must have, and the values of sigmoid that follow from them. -/
def Obligations.SigmoidStatedValues : Prop :=
  Binary64.exp 0#64 = Binary64.one ∧ Binary64.exp 0x8000000000000000#64 = Binary64.one ∧
  Binary64.exp 0x7FF0000000000000#64 = 0x7FF0000000000000#64 ∧ Binary64.exp 0xFFF0000000000000#64 = 0#64 ∧
  (∀ x, Binary64.isNaN x = true → Binary64.isNaN (Binary64.exp x) = true) ∧
  (∀ x, act Binary64.ops .sigmoid x =
    Binary64.div Binary64.one (Binary64.add Binary64.one (Binary64.exp (Binary64.neg x)))) ∧
  act Binary64.ops .sigmoid 0#64 = 0x3FE0000000000000#64 ∧
  act Binary64.ops .sigmoid 0x8000000000000000#64 = 0x3FE0000000000000#64 ∧
  act Binary64.ops .sigmoid 0x7FF0000000000000#64 = Binary64.one ∧
  act Binary64.ops .sigmoid 0xFFF0000000000000#64 = 0#64 ∧
  (∀ x, Binary64.isNaN x = true → Binary64.isNaN (act Binary64.ops .sigmoid x) = true)

/-- R224: the values TANH must have. -/
def Obligations.TanhStatedValues : Prop :=
  act Binary64.ops .tanh 0#64 = 0#64 ∧
  act Binary64.ops .tanh 0x8000000000000000#64 = 0x8000000000000000#64 ∧
  act Binary64.ops .tanh 0x7FF0000000000000#64 = Binary64.one ∧
  act Binary64.ops .tanh 0xFFF0000000000000#64 = 0xBFF0000000000000#64 ∧
  (∀ x, Binary64.isNaN x = true → Binary64.isNaN (act Binary64.ops .tanh x) = true)

/-- R227 and 90_conflicts C2 over BINARY64: for every non-NaN input sigmoid lies in [0, 1] and tanh in [−1, 1], and
neither is a NaN. The free values enter through their ranges only (logs 5, 6). -/
def Obligations.BinaryActivationBounds : Prop :=
  ∀ x : Scalar, Binary64.isNaN x = false →
    Binary64.sign (act Binary64.ops .sigmoid x) = false ∧
    Binary64.magnitude (act Binary64.ops .sigmoid x) ≤ Binary64.magnitude Binary64.one ∧
    Binary64.magnitude (act Binary64.ops .tanh x) ≤ Binary64.magnitude Binary64.one

/-- R227: relu twice is relu, two NaNs counting as the same value (log 22), and ACTIVATE with relu applied twice
leaves the buffer of applying it once. -/
def Obligations.ReluTwiceIsReluOnce : Prop :=
  (∀ x : Scalar, Binary64.same (Binary64.relu (Binary64.relu x)) (Binary64.relu x)) ∧
  (∀ (addr size : Nat) (s : State), ∃ t u, exec (.activate .relu addr size) s = .next t ∧
    exec (.activate .relu addr size) t = .next u ∧
    ∀ a, Binary64.same (Npu.peek Binary64.ops .buf a u) (Npu.peek Binary64.ops .buf a t))

/-- R8, D1: rounding is to nearest, ties to even. With den > 0 and a finite result, no finite magnitude is nearer to
num/den units than the result, and where another is as near the result is even. The format
the magnitudes are in is IEEE 754's (PRESUMED, log 3). -/
def Obligations.RoundingIsToNearestEven : Prop :=
  ∀ num den : Nat, 0 < den → Binary64.roundMagnitude num den < Binary64.infMagnitude →
    ∀ m, m < Binary64.infMagnitude →
      ((Binary64.unitsOf (Binary64.roundMagnitude num den) * den : Int) - num).natAbs ≤
        ((Binary64.unitsOf m * den : Int) - num).natAbs ∧
      (m ≠ Binary64.roundMagnitude num den →
        ((Binary64.unitsOf (Binary64.roundMagnitude num den) * den : Int) - num).natAbs =
          ((Binary64.unitsOf m * den : Int) - num).natAbs →
        Binary64.roundMagnitude num den % 2 = 0)

/-- R8, D1: a magnitude that is representable is its own rounding, so exact results stay exact. -/
def Obligations.RepresentableValuesRoundToThemselves : Prop :=
  ∀ m den : Nat, 0 < den → m < Binary64.infMagnitude → Binary64.roundMagnitude (Binary64.unitsOf m * den) den = m

/-- R116 and 95_test_vectors 2.3.11: product and sum are rounded separately (a fused second step would end in 9A), and
an accumulator that starts at +0 is +0 after adding −0. -/
def Obligations.MacRoundsTwice : Prop :=
  mac Binary64.ops (mac Binary64.ops 0#64 0x3FB999999999999A#64 0x3FB999999999999A#64)
    0x3FC999999999999A#64 0x3FC999999999999A#64 = 0x3FA999999999999B#64 ∧
  mac Binary64.ops 0#64 0xC008000000000000#64 0#64 = 0#64

/-- R199: adding +0 changes no value but −0 (up to which NaN), and a sum is −0 only if both operands are −0, so an
accumulator that starts at +0 is never −0. -/
def Obligations.AddingZeroKeepsAccumulator : Prop :=
  (∀ x : Scalar, x ≠ 0x8000000000000000#64 → Binary64.same (Binary64.add x 0#64) x) ∧
  (∀ x y : Scalar, Binary64.add x y = 0x8000000000000000#64 →
    x = 0x8000000000000000#64 ∧ y = 0x8000000000000000#64)

/-! ## The scheduler (42_scheduler) -/

/-- R143 to R147: a step with nothing in progress and pc < L runs exec of the instruction at pc on the state with
status RUNNING and empty sets and diagnostics, then logs one entry with the cycle and pc before the step and counts
one cycle. -/
def Obligations.StepRunsFetchedInstruction : Prop :=
  ∀ (s : State) (i : Instr), s.status ≠ .finished → s.op = none → s.prog[s.pc]? = some i →
    ∃ t, exec i { s with status := .running, mainRd := [], mainWr := [], bufRd := [], bufWr := [], diags := [] } =
        .next t ∧
      step s = .next { t with
        log := logAppend t.log
          { cycle := s.cycle, pc := s.pc, tag := tagOf i, detail := Config.logDetail (Npu.withoutDiags s) (.instr i) (tagOf i) }
        cycle := t.cycle + 1 }

/-- R97: slot k of a program loaded as words holds the Decode of word k, so the first step after the load runs the
Decode of word 0. -/
def Obligations.LoadedWordsAreDecoded : Prop :=
  ∀ (ws : List Word) (w : Word) (s : State), Npu.programFits s.cfg (ws.map decode) = true → ws[0]? = some w →
    ∃ t, loadWords ws s = .next t ∧ (∀ k : Nat, (Npu.State.prog t)[k]? = (ws[k]?).map decode) ∧
      ∃ u, exec (decode w) { t with status := .running } = .next u ∧
        step t = .next (Npu.endStep t (.instr (decode w)) u)

/-- R140, R141: a step whose terminal condition holds sets the status to FINISHED, changes nothing else and emits no
diagnostic (the list of the step's diagnostics is empty: the model's form, log 8); repeating it changes nothing. -/
def Obligations.TerminalStepOnlyFinishes : Prop :=
  ∀ s : State, (s.status = .finished ∨ (s.op = none ∧ s.prog.length ≤ s.pc)) →
    step s = .next { s with status := .finished, diags := [] } ∧
    step { s with status := .finished, diags := [] } = .next { s with status := .finished, diags := [] }

/-- R132: the status transitions of the table, and no others: a step's depends on the terminal condition alone, reset
and an admitted loadProgram give IDLE and READY, and no other command moves the status. From IDLE a step always ends the
run, from READY it does when the program is empty, and FINISHED with a GEMM in progress does not arise. -/
def Obligations.StatusTransitions : Prop :=
  ∀ s : State,
    (∃ t, hostCommand .reset s = .next (t, .done) ∧ t.status = .idle) ∧
    (∀ p, Npu.programFits s.cfg p = true → ∃ t, hostCommand (.loadProgram p) s = .next (t, .done) ∧ t.status = .ready) ∧
    (∃ t, step s = .next t ∧
      t.status = (if s.status = .finished ∨ (s.op = none ∧ s.prog.length ≤ s.pc) then .finished else .running)) ∧
    (∀ b offset values, ∃ t, hostCommand (.bulkLoad b offset values) s = .next (t, .done) ∧ t.status = s.status) ∧
    (∀ b addr, ∃ t v, hostCommand (.read b addr) s = .next (t, .scalar v) ∧ t.status = s.status) ∧
    (∃ t o, hostCommand .observe s = .next (t, .outputs o) ∧ t.status = s.status) ∧
    (Inv s → s.status = .idle → ∃ t, step s = .next t ∧ t.status = .finished) ∧
    (Inv s → s.status = .ready → s.prog = [] → ∃ t, step s = .next t ∧ t.status = .finished ∧ t.cycle = 0) ∧
    (Inv s → s.status = .finished → s.op = none)

/-- R29, R144: cycle grows by exactly 1 on every step that is not terminal, whatever it executes, and not at all on a
terminal one; reset and an admitted loadProgram set it to 0. -/
def Obligations.CycleCountsNonTerminalSteps : Prop :=
  ∀ s : State,
    (∃ t, step s = .next t ∧ t.cycle = (if Npu.terminal s then s.cycle else s.cycle + 1)) ∧
    (∃ t, hostCommand .reset s = .next (t, .done) ∧ t.cycle = 0) ∧
    (∀ p, Npu.programFits s.cfg p = true → ∃ t, hostCommand (.loadProgram p) s = .next (t, .done) ∧ t.cycle = 0)

/-- R148: pc moves only by + 1: at the end of a cycle that executes an instruction other than GEMM, and at the end of
a GEMM's final tick; reset and an admitted loadProgram set it to 0. -/
def Obligations.PcMovesOnlyByOne : Prop :=
  ∀ s : State,
    (∃ t, step s = .next t ∧
      (Npu.terminal s = true → t.pc = s.pc) ∧
      (∀ o, Npu.terminal s = false → s.op = some o →
        t.pc = if o.tick = o.total - 1 then s.pc + 1 else s.pc) ∧
      (∀ i, Npu.terminal s = false → s.op = none → s.prog[s.pc]? = some i →
        t.pc = if isGemm i = true ∧ s.cfg.N ≠ 1 then s.pc else s.pc + 1)) ∧
    (∃ t, hostCommand .reset s = .next (t, .done) ∧ t.pc = 0) ∧
    (∀ p, Npu.programFits s.cfg p = true → ∃ t, hostCommand (.loadProgram p) s = .next (t, .done) ∧ t.pc = 0)

/-- R153: after k entries have been appended to an empty log, it holds the last min(k, 100) of them, in order. -/
def Obligations.LogKeepsLastHundred : Prop :=
  ∀ es : List LogEntry, es.foldl logAppend [] = es.drop (es.length - 100) ∧
    (es.foldl logAppend []).length = min es.length 100

/-- R150, R151, R152: every non-terminal step appends exactly one entry, with cycle and pc before the step and the tag
of its work; a terminal step appends none. -/
def Obligations.StepAppendsOneLogEntry : Prop :=
  ∀ s : State, ∃ t, step s = .next t ∧
    (Npu.terminal s = true → t.log = s.log) ∧
    (∀ o, Npu.terminal s = false → s.op = some o → t.log = logAppend s.log
      { cycle := s.cycle, pc := s.pc, tag := .gemm, detail := Config.logDetail (Npu.withoutDiags s) (.tick o) .gemm }) ∧
    (∀ i, Npu.terminal s = false → s.op = none → s.prog[s.pc]? = some i → t.log = logAppend s.log
      { cycle := s.cycle, pc := s.pc, tag := tagOf i, detail := Config.logDetail (Npu.withoutDiags s) (.instr i) (tagOf i) })

/-- R250: no error halts stepping: from every state any number of steps can be taken. -/
def Obligations.SteppingNeverStops : Prop :=
  ∀ (k : Nat) (s : State), ∃ t, Host.Core.run Sys2Proof.core k s = .next t

/-- R156: a program of L instructions with g GEMMs among them reaches FINISHED after exactly (L − g) + g·(2N−1)
non-terminal steps plus one terminal step, with pc = L, cycle that number and op = none. -/
def Obligations.ProgramRunLength : Prop :=
  ∀ (p : List Instr) (s t : State), loadProgram p s = .next t →
    let g := (p.filter isGemm).length
    let n := (p.length - g) + g * (2 * s.cfg.N - 1)
    (∀ k ≤ n, ∃ u, Host.Core.run Sys2Proof.core k t = .next u ∧ Npu.State.status u ≠ .finished ∧
      Npu.State.cycle u = k) ∧
    (∃ u, Host.Core.run Sys2Proof.core (n + 1) t = .next u ∧ Npu.State.status u = .finished ∧
      Npu.State.pc u = p.length ∧ Npu.State.cycle u = n ∧ Npu.State.op u = none)

/-! ## Rules over the whole machine -/

/-- R32, R33, R35, R154, R251: no rule reads the access sets, the log or the diagnostics: two states that agree on
everything else step to states that agree on everything else. Diagnostics are no state at all: a step from a state with
other earlier diagnostics gives the very same state, log details included, and so (R293 (d)) a host read or observe
before a step changes nothing of what the step gives. -/
def Obligations.ObservationStateIsNeverRead : Prop :=
  (∀ s s' : State, SameCore s s' → ∃ t t', step s = .next t ∧ step s' = .next t' ∧ SameCore t t') ∧
  (∀ (s : State) (ds : List Diag), step { s with diags := ds } = step s) ∧
  (∀ (s : State) (b : BankId) (addr : Nat), ∃ t v, hostCommand (.read b addr) s = .next (t, .scalar v) ∧
    step t = step s) ∧
  (∀ s : State, ∃ t o, hostCommand .observe s = .next (t, .outputs o) ∧ step t = step s)

/-- Every step keeps the invariant: canonical banks and sets, the grid's shape, pc within the program, the log's
length, and the control state one of those the rules can produce. -/
def Obligations.StepKeepsInvariant : Prop :=
  ∀ s t : State, Inv s → step s = .next t → Inv t

/-- The invariant holds at power-on of every configuration. -/
def Obligations.PowerOnMeetsInvariant : Prop :=
  ∀ c : Config, Inv (Npu.State.powerOn 0#64 c)

/-- Every host command keeps the invariant from every state that meets it, step() among them, so every state the host
can reach meets it. -/
def Obligations.EveryReachableStateMeetsInvariant : Prop :=
  (∀ (c : HostCommand) (s t : State) (r : Reply), Inv s → hostCommand c s = .next (t, r) → Inv t) ∧
  ∀ (c : Config) (cmds : List HostCommand), Inv (hostRun cmds (Npu.State.powerOn 0#64 c))

/-- R64 and 90_conflicts C5: no step but one that executes a STORE changes main memory, and no step but one that
executes a LOAD or an ACTIVATE, or performs the final tick of a GEMM, changes the buffer. -/
def Obligations.BanksChangeOnlyByTheirInstructions : Prop :=
  ∀ s : State, ∃ t, step s = .next t ∧
    (t.main ≠ s.main → s.op = none ∧ ∃ src dest size, s.prog[s.pc]? = some (.store src dest size)) ∧
    (t.buf ≠ s.buf →
      (∃ o, s.op = some o ∧ o.tick = o.total - 1) ∨
      (s.op = none ∧ ((∃ src dest size, s.prog[s.pc]? = some (.load src dest size)) ∨
        (∃ fn addr size, s.prog[s.pc]? = some (.activate fn addr size)) ∨
        (∃ addrA addrB addrC, s.prog[s.pc]? = some (.gemm addrA addrB addrC) ∧ s.cfg.N = 1))))

/-- R121: a step changes the array only when it performs a GEMM tick. -/
def Obligations.ArrayChangesOnlyByGemm : Prop :=
  ∀ s : State, ∃ t, step s = .next t ∧
    (t.pe ≠ s.pe → s.op.isSome = true ∨ ∃ addrA addrB addrC, s.prog[s.pc]? = some (.gemm addrA addrB addrC))

/-- R26, R36, R70: no number of steps changes the program or the parameters (that the parameters are carried in the
state is the model's form, log 1). -/
def Obligations.StepsKeepProgramAndParameters : Prop :=
  ∀ (k : Nat) (s : State), ∃ t, Host.Core.run Sys2Proof.core k s = .next t ∧
    Npu.State.prog t = s.prog ∧ Npu.State.cfg t = s.cfg

/-- R293 (b), R206: main memory does not affect a GEMM: with other main cells a GEMM's step gives the same state but
for those cells and the observation-only state. -/
def Obligations.MainMemoryDoesNotAffectGemm : Prop :=
  ∀ (s : State) (o : GemmOp) (m : Memory Scalar), s.status ≠ .finished → s.op = some o →
    ∃ t t', step s = .next t ∧ step { s with main := m } = .next t' ∧
      eraseObservation t' = { eraseObservation t with main := m }

/-! ## The host interface -/

/-- R280, R282: reset() gives the power-on state of the same block: every cell and PE register +0, an empty program,
pc = cycle = 0, op none, empty sets and log, IDLE, and no diagnostic. -/
def Obligations.ResetGivesPowerOnState : Prop :=
  ∀ s : State, ∃ t, hostCommand .reset s = .next (t, .done) ∧ t = Npu.State.powerOn 0#64 s.cfg ∧
    (∀ b a, Npu.peek Binary64.ops b a t = 0#64) ∧
    (∀ r < s.cfg.N, ∀ c < s.cfg.N, Grid.at Binary64.ops t.pe r c = { acc := 0#64, a := 0#64, b := 0#64 }) ∧
    t.prog = [] ∧ t.pc = 0 ∧ t.cycle = 0 ∧ t.op = none ∧ t.mainRd = [] ∧ t.mainWr = [] ∧ t.bufRd = [] ∧
    t.bufWr = [] ∧ t.log = [] ∧ t.status = .idle ∧ t.diags = []

/-- R281: loadProgram in any status, a GEMM in progress included, installs the program, clears everything but main
memory and is READY; a program longer than PROG_CAP is refused. -/
def Obligations.LoadProgramKeepsOnlyMain : Prop :=
  ∀ (p : List Instr) (s : State),
    (Npu.programFits s.cfg p = true → ∃ t, hostCommand (.loadProgram p) s = .next (t, .done) ∧
      t.main = s.main ∧ t.prog = p ∧ t.cfg = s.cfg ∧ (∀ a, Npu.peek Binary64.ops .buf a t = 0#64) ∧
      (∀ r < s.cfg.N, ∀ c < s.cfg.N, Grid.at Binary64.ops t.pe r c = { acc := 0#64, a := 0#64, b := 0#64 }) ∧
      t.pc = 0 ∧ t.cycle = 0 ∧ t.op = none ∧ t.mainRd = [] ∧ t.mainWr = [] ∧ t.bufRd = [] ∧ t.bufWr = [] ∧
      t.log = [] ∧ t.status = .ready) ∧
    (∀ k, s.cfg.progCap = some k → k < p.length → hostCommand (.loadProgram p) s = .refused .programTooLong)

/-- R163: a host read returns the cell, or 0 with OOB_READ, changes no state and adds to no access set. -/
def Obligations.HostReadChangesNothing : Prop :=
  ∀ (b : BankId) (addr : Nat) (s : State),
    hostCommand (.read b addr) s = .next
      ({ s with diags := if addr < Npu.cap b s then [] else [.oobRead b addr] },
        .scalar (if addr < Npu.cap b s then Memory.read 0#64 addr (Npu.cells b s) else 0#64))

/-- R164, D22: observe shows status, pc, cycle, the four access sets, the grid and the log of the state, and has no side
effect; what it shows does not depend on the banks, the program or the sub-state. -/
def Obligations.ObserveShowsOnlyOutputs : Prop :=
  ∀ (s : State) (m m' : Memory Scalar) (p : List Instr) (op : Option GemmOp),
    hostCommand .observe s = .next ({ s with diags := [] }, .outputs
      { status := s.status, pc := s.pc, cycle := s.cycle, mainRd := s.mainRd, mainWr := s.mainWr, bufRd := s.bufRd,
        bufWr := s.bufWr, grid := s.pe, log := s.log }) ∧
    Npu.observe { s with main := m, buf := m', prog := p, op := op } = Npu.observe s
end

