-- ==== Sys2Proof/Laws/Encoding.lean ====
section
/-!
SUPPORT. Laws of the binary form: the fields of a packed word, the serialisation of a word, and that the decoder of
table words is Decode.
-/

namespace Sys2Proof

/-! ## Fields as quotients of the word -/

theorem opcField_toNat (w : Word) : (opcField w).toNat = w.toNat / 0x1000000000000000 % 16 := by
  simp only [opcField, BitVec.extractLsb'_toNat, Nat.shiftRight_eq_div_pow, Nat.reducePow]

theorem fnField_toNat (w : Word) : (fnField w).toNat = w.toNat / 0x100000000000000 % 16 := by
  simp only [fnField, BitVec.extractLsb'_toNat, Nat.shiftRight_eq_div_pow, Nat.reducePow]

theorem xField_toNat (w : Word) : zext16 (xField w) = w.toNat / 0x100000000 % 65536 := by
  simp only [zext16, xField, BitVec.extractLsb'_toNat, Nat.shiftRight_eq_div_pow, Nat.reducePow]

theorem yField_toNat (w : Word) : zext16 (yField w) = w.toNat / 0x10000 % 65536 := by
  simp only [zext16, yField, BitVec.extractLsb'_toNat, Nat.shiftRight_eq_div_pow, Nat.reducePow]

theorem zField_toNat (w : Word) : zext16 (zField w) = w.toNat % 65536 := by
  simp only [zext16, zField, BitVec.extractLsb'_toNat, Nat.shiftRight_zero, Nat.reducePow]

theorem packWord_toNat {opc fn x y z : Nat} (ho : opc < 16) (hf : fn < 16) (hx : x < 65536) (hy : y < 65536)
    (hz : z < 65536) : (packWord opc fn x y z).toNat =
      opc * 0x1000000000000000 + fn * 0x100000000000000 + x * 0x100000000 + y * 0x10000 + z := by
  rw [packWord, BitVec.toNat_ofNat]
  exact Nat.mod_eq_of_lt (by omega)

/-- The fields of a word packed from values that fit (30_encoding R82). -/
theorem packWord_fields {opc fn x y z : Nat} (ho : opc < 16) (hf : fn < 16) (hx : x < 65536) (hy : y < 65536)
    (hz : z < 65536) :
    (opcField (packWord opc fn x y z)).toNat = opc ∧ (fnField (packWord opc fn x y z)).toNat = fn ∧
      zext16 (xField (packWord opc fn x y z)) = x ∧ zext16 (yField (packWord opc fn x y z)) = y ∧
      zext16 (zField (packWord opc fn x y z)) = z := by
  have h := packWord_toNat ho hf hx hy hz
  rw [opcField_toNat, fnField_toNat, xField_toNat, yField_toNat, zField_toNat, h]
  refine ⟨?_, ?_, ?_, ?_, ?_⟩ <;> omega

theorem natLE_bytesLE (n v : Nat) (h : v < 256 ^ n) : natLE (bytesLE n v) = v := by
  induction n generalizing v with
  | zero => simp at h; simp [bytesLE, natLE, h]
  | succ k ih =>
    have hk : v / 256 < 256 ^ k := by
      rw [pow_succ] at h
      exact Nat.div_lt_of_lt_mul (by omega)
    simp only [bytesLE, natLE, ih _ hk, BitVec.toNat_ofNat]
    omega

/-- Serialising a word and decoding its bytes is decoding the word (20_memory R58, 30_encoding R91). -/
theorem decodeBytes_wordBytes (w : Word) (rest : List Byte) :
    decodeBytes (wordBytes w ++ rest) = .ok (decode w) rest := by
  have h : natLE (bytesLE 8 w.toNat) = w.toNat := natLE_bytesLE 8 _ w.isLt
  simp only [wordBytes, bytesLE, List.cons_append, List.nil_append, decodeBytes] at h ⊢
  rw [h, BitVec.ofNat_toNat, BitVec.setWidth_eq]

/-- The decoder of table words is Decode, and it refuses no word of at most 64 bits. -/
theorem decodeTableWord_eq (nbits w : Nat) (h : nbits ≤ 64) :
    decodeTableWord nbits w = some (decode (BitVec.ofNat 64 w)) := by
  have := decodeBytes_wordBytes (BitVec.ofNat 64 w) []
  rw [List.append_nil] at this
  simp only [decodeTableWord, h, if_true, this]

end Sys2Proof
end

