-- ==== Sys2Proof/Laws/Grid.lean ====
section
/-!
SUPPORT. Laws of the PE grid: what a built grid holds, its shape, and one PE after an array step.
-/

namespace Sys2Proof

variable {S : Type}

/-- A built grid holds the given PE at every place inside it. -/
theorem Grid.at_build (K : ScalarOps S) {N : Nat} (f : Nat → Nat → PE S) {r c : Nat} (hr : r < N) (hc : c < N) :
    Grid.at K (Grid.build N f) r c = f r c := by
  simp [Grid.at, Grid.build, List.getD_eq_getElem?_getD, hr, hc]

/-- A built grid has the shape of 10_state R25. -/
theorem Grid.build_wf (N : Nat) (f : Nat → Nat → PE S) : Grid.wf N (Grid.build N f) := by
  constructor
  · simp [Grid.build]
  · intro row hrow
    simp only [Grid.build, List.mem_map] at hrow
    obtain ⟨r, _, rfl⟩ := hrow
    simp

/-- After ArrayReset every PE register is zero (41_systolic_array R112). -/
theorem arrayReset_at (K : ScalarOps S) {N r c : Nat} (hr : r < N) (hc : c < N) :
    Grid.at K (arrayReset K N) r c = PE.zero K :=
  Grid.at_build K _ hr hc

theorem arrayReset_wf (K : ScalarOps S) (N : Nat) : Grid.wf N (arrayReset K N) := Grid.build_wf N _

/-- The reset grid as the list `powerOn` writes. -/
theorem arrayReset_eq_replicate (K : ScalarOps S) (N : Nat) :
    arrayReset K N = List.replicate N (List.replicate N ⟨K.zero, K.zero, K.zero⟩) := by
  simp [arrayReset, Grid.build, PE.zero]

/-- One PE after a tick (41_systolic_array R118), from the snapshot `old`. -/
theorem arrayStep_at (K : ScalarOps S) {N : Nat} (left top : Nat → S) (old : Grid S) {r c : Nat}
    (hr : r < N) (hc : c < N) :
    Grid.at K (arrayStep K N left top old) r c =
      { acc := mac K (Grid.at K old r c).acc (horizontalIn K left old r c) (verticalIn K top old r c)
        a := horizontalIn K left old r c
        b := verticalIn K top old r c } :=
  Grid.at_build K _ hr hc

theorem arrayStep_wf (K : ScalarOps S) (N : Nat) (left top : Nat → S) (old : Grid S) :
    Grid.wf N (arrayStep K N left top old) := Grid.build_wf N _

end Sys2Proof
end

