-- ==== Sys2Proof/Laws/Memory.lean ====
section
/-!
SUPPORT. Laws of the cells of a bank and of the address sets: read after write, and that every operation keeps the
canonical form. Read after write needs no canonical form: it holds of every list.
-/

namespace Sys2Proof

variable {S : Type}

/-! ## Cells -/

@[simp] theorem Memory.read_nil (zero : S) (a : Nat) : Memory.read zero a [] = zero := rfl

theorem Memory.read_filter_ne (zero : S) (a b : Nat) (m : Memory S) (h : b ≠ a) :
    Memory.read zero b (m.filter (fun c => c.1 ≠ a)) = Memory.read zero b m := by
  induction m with
  | nil => rfl
  | cons c rest ih =>
    obtain ⟨k, v⟩ := c
    by_cases hk : k = a
    · subst hk
      simp only [ne_eq, not_true_eq_false, decide_false, Bool.false_eq_true, not_false_eq_true,
        List.filter_cons_of_neg, Memory.read]
      rw [if_neg (Ne.symm h)]
      exact ih
    · simp only [ne_eq, hk, not_false_eq_true, decide_true, List.filter_cons_of_pos, Memory.read]
      split
      · rfl
      · exact ih

theorem Memory.read_of_not_listed (zero : S) (a : Nat) (m : Memory S) (h : ∀ c ∈ m, c.1 ≠ a) :
    Memory.read zero a m = zero := by
  induction m with
  | nil => rfl
  | cons c rest ih =>
    obtain ⟨k, v⟩ := c
    have hk : k ≠ a := h (k, v) (by simp)
    simp only [Memory.read, if_neg hk]
    exact ih (fun d hd => h d (by simp [hd]))

theorem Memory.read_place (zero : S) (a b : Nat) (v : S) (m : Memory S) (h : ∀ c ∈ m, c.1 ≠ a) :
    Memory.read zero b (Memory.place a v m) = if b = a then v else Memory.read zero b m := by
  induction m with
  | nil =>
    simp only [Memory.place, Memory.read]
    by_cases hb : b = a
    · simp [hb]
    · simp [hb, Ne.symm hb]
  | cons c rest ih =>
    obtain ⟨k, w⟩ := c
    have hk : k ≠ a := h (k, w) (by simp)
    have ih' := ih (fun d hd => h d (by simp [hd]))
    simp only [Memory.place]
    split
    · simp only [Memory.read]
      by_cases hkb : k = b
      · subst hkb
        simp [hk]
      · simp [hkb, ih']
    · simp only [Memory.read]
      by_cases hb : b = a
      · simp [hb]
      · simp [hb, Ne.symm hb]

theorem Memory.not_listed_filter (a : Nat) (m : Memory S) : ∀ c ∈ m.filter (fun c => c.1 ≠ a), c.1 ≠ a := by
  intro c hc
  simpa using (List.mem_filter.mp hc).2

/-- Read after write, at the written address and at every other one. -/
theorem Memory.read_write [DecidableEq S] (zero : S) (a b : Nat) (v : S) (m : Memory S) :
    Memory.read zero b (Memory.write zero a v m) = if b = a then v else Memory.read zero b m := by
  unfold Memory.write
  by_cases hv : v = zero
  · simp only [hv, if_true]
    by_cases hb : b = a
    · subst hb
      rw [if_pos rfl]
      exact Memory.read_of_not_listed _ _ _ (Memory.not_listed_filter b m)
    · rw [if_neg hb]
      exact Memory.read_filter_ne _ _ _ _ hb
  · simp only [hv, if_false]
    rw [Memory.read_place _ _ _ _ _ (Memory.not_listed_filter a m)]
    by_cases hb : b = a
    · simp [hb]
    · simp only [hb, if_false]
      exact Memory.read_filter_ne _ _ _ _ hb

theorem Memory.mem_place {a : Nat} {v : S} {m : Memory S} {c : Nat × S} :
    c ∈ Memory.place a v m ↔ c = (a, v) ∨ c ∈ m := by
  induction m with
  | nil => simp [Memory.place]
  | cons d rest ih =>
    obtain ⟨k, w⟩ := d
    simp only [Memory.place]
    split
    · simp only [List.mem_cons, ih]
      tauto
    · simp

theorem Memory.place_sorted {a : Nat} {v : S} {m : Memory S}
    (h : m.Pairwise (fun x y => x.1 < y.1)) (hn : ∀ c ∈ m, c.1 ≠ a) :
    (Memory.place a v m).Pairwise (fun x y => x.1 < y.1) := by
  induction m with
  | nil => simp [Memory.place]
  | cons d rest ih =>
    obtain ⟨k, w⟩ := d
    obtain ⟨hd, hr⟩ := List.pairwise_cons.mp h
    have hk : k ≠ a := hn (k, w) (by simp)
    simp only [Memory.place]
    split
    · rename_i hlt
      refine List.pairwise_cons.mpr ⟨?_, ih hr (fun c hc => hn c (by simp [hc]))⟩
      intro c hc
      rcases Memory.mem_place.mp hc with rfl | hc
      · exact hlt
      · exact hd c hc
    · rename_i hge
      have hak : a < k := by omega
      refine List.pairwise_cons.mpr ⟨?_, h⟩
      intro c hc
      rcases List.mem_cons.mp hc with rfl | hc
      · exact hak
      · exact lt_trans hak (hd c hc)

/-- A write to a valid address keeps the canonical form. -/
theorem Memory.write_wf [DecidableEq S] {zero : S} {cap a : Nat} {v : S} {m : Memory S}
    (h : Memory.wf zero cap m) (ha : a < cap) : Memory.wf zero cap (Memory.write zero a v m) := by
  obtain ⟨hs, hc⟩ := h
  have hfs : (m.filter (fun c => c.1 ≠ a)).Pairwise (fun x y => x.1 < y.1) := hs.filter _
  unfold Memory.write
  by_cases hv : v = zero
  · simp only [hv, if_true]
    exact ⟨hfs, fun c hcm => hc c (List.mem_filter.mp hcm).1⟩
  · simp only [hv, if_false]
    refine ⟨Memory.place_sorted hfs (Memory.not_listed_filter a m), fun c hcm => ?_⟩
    rcases Memory.mem_place.mp hcm with rfl | hcm
    · exact ⟨ha, hv⟩
    · exact hc c (List.mem_filter.mp hcm).1

theorem Memory.wf_nil (zero : S) (cap : Nat) : Memory.wf zero cap ([] : Memory S) := by
  simp [Memory.wf]

/-! ## Address sets -/

theorem AddrSet.mem_place {a b : Nat} {s : AddrSet} : b ∈ AddrSet.place a s ↔ b = a ∨ b ∈ s := by
  induction s with
  | nil => simp [AddrSet.place]
  | cons k rest ih =>
    simp only [AddrSet.place]
    split
    · simp only [List.mem_cons, ih]
      tauto
    · simp

@[simp] theorem AddrSet.mem_insert {a b : Nat} {s : AddrSet} : b ∈ AddrSet.insert a s ↔ b = a ∨ b ∈ s := by
  unfold AddrSet.insert
  split
  · rename_i h
    constructor
    · exact Or.inr
    · rintro (rfl | hb)
      · exact h
      · exact hb
  · exact AddrSet.mem_place

theorem AddrSet.place_wf {a : Nat} {s : AddrSet} (h : AddrSet.wf s) (hn : a ∉ s) : AddrSet.wf (AddrSet.place a s) := by
  induction s with
  | nil => simp [AddrSet.place, AddrSet.wf]
  | cons k rest ih =>
    obtain ⟨hd, hr⟩ := List.pairwise_cons.mp h
    simp only [List.mem_cons, not_or] at hn
    simp only [AddrSet.place]
    split
    · rename_i hlt
      refine List.pairwise_cons.mpr ⟨?_, ih hr hn.2⟩
      intro b hb
      rcases AddrSet.mem_place.mp hb with rfl | hb
      · exact hlt
      · exact hd b hb
    · rename_i hge
      have hak : a < k := by omega
      refine List.pairwise_cons.mpr ⟨?_, h⟩
      intro b hb
      rcases List.mem_cons.mp hb with rfl | hb
      · exact hak
      · exact lt_trans hak (hd b hb)

theorem AddrSet.insert_wf {a : Nat} {s : AddrSet} (h : AddrSet.wf s) : AddrSet.wf (AddrSet.insert a s) := by
  unfold AddrSet.insert
  split
  · exact h
  · rename_i hn
    exact AddrSet.place_wf h hn

theorem AddrSet.wf_nil : AddrSet.wf [] := List.Pairwise.nil

/-- Two sets in canonical form with the same members are the same list. -/
theorem AddrSet.ext_of_wf {s t : AddrSet} (hs : AddrSet.wf s) (ht : AddrSet.wf t) (h : ∀ a, a ∈ s ↔ a ∈ t) :
    s = t :=
  List.Perm.eq_of_pairwise (fun _ _ _ _ hab hba => absurd hab (not_lt.mpr hba.le)) hs ht
    ((List.perm_ext_iff_of_nodup (hs.imp (fun h => h.ne)) (ht.imp (fun h => h.ne))).mpr h)

/-! ## Iteration -/

@[simp] theorem forRange_zero {σ : Type} (body : Nat → σ → σ) (s : σ) : forRange 0 body s = s := rfl

@[simp] theorem forRange_succ {σ : Type} (n : Nat) (body : Nat → σ → σ) (s : σ) :
    forRange (n + 1) body s = body n (forRange n body s) := rfl

/-- A property every round keeps holds at the end of the loop. -/
theorem forRange_induct {σ : Type} {P : σ → Prop} {body : Nat → σ → σ} {n : Nat} {s : σ}
    (h0 : P s) (hstep : ∀ i < n, ∀ u, P u → P (body i u)) : P (forRange n body s) := by
  induction n with
  | zero => exact h0
  | succ k ih => exact hstep k (by omega) _ (ih (fun i hi u hu => hstep i (by omega) u hu))

/-- A component no round changes is unchanged by the loop. -/
theorem forRange_frame {σ τ : Type} (f : σ → τ) {body : Nat → σ → σ} (hstep : ∀ i u, f (body i u) = f u)
    (n : Nat) (s : σ) : f (forRange n body s) = f s := by
  induction n with
  | zero => rfl
  | succ k ih => rw [forRange_succ, hstep, ih]

end Sys2Proof
end

