-- ==== Sys2Proof/Laws/State.lean ====
section
/-!
SUPPORT. One lemma per field per named update of the state, so that no later proof unfolds an update.
-/

namespace Sys2Proof.Npu

variable {S : Type}

/-! ## emit -/

@[simp] theorem emit_cfg (d : Diag) (s : State S) : (emit d s).cfg = s.cfg := rfl
@[simp] theorem emit_main (d : Diag) (s : State S) : (emit d s).main = s.main := rfl
@[simp] theorem emit_buf (d : Diag) (s : State S) : (emit d s).buf = s.buf := rfl
@[simp] theorem emit_pe (d : Diag) (s : State S) : (emit d s).pe = s.pe := rfl
@[simp] theorem emit_prog (d : Diag) (s : State S) : (emit d s).prog = s.prog := rfl
@[simp] theorem emit_status (d : Diag) (s : State S) : (emit d s).status = s.status := rfl
@[simp] theorem emit_pc (d : Diag) (s : State S) : (emit d s).pc = s.pc := rfl
@[simp] theorem emit_cycle (d : Diag) (s : State S) : (emit d s).cycle = s.cycle := rfl
@[simp] theorem emit_op (d : Diag) (s : State S) : (emit d s).op = s.op := rfl
@[simp] theorem emit_mainRd (d : Diag) (s : State S) : (emit d s).mainRd = s.mainRd := rfl
@[simp] theorem emit_mainWr (d : Diag) (s : State S) : (emit d s).mainWr = s.mainWr := rfl
@[simp] theorem emit_bufRd (d : Diag) (s : State S) : (emit d s).bufRd = s.bufRd := rfl
@[simp] theorem emit_bufWr (d : Diag) (s : State S) : (emit d s).bufWr = s.bufWr := rfl
@[simp] theorem emit_log (d : Diag) (s : State S) : (emit d s).log = s.log := rfl
@[simp] theorem emit_diags (d : Diag) (s : State S) : (emit d s).diags = s.diags ++ [d] := rfl

/-! ## setCells -/

@[simp] theorem setCells_cfg (b : BankId) (m : Memory S) (s : State S) : (setCells b m s).cfg = s.cfg := by cases b <;> rfl
@[simp] theorem setCells_pe (b : BankId) (m : Memory S) (s : State S) : (setCells b m s).pe = s.pe := by cases b <;> rfl
@[simp] theorem setCells_prog (b : BankId) (m : Memory S) (s : State S) : (setCells b m s).prog = s.prog := by cases b <;> rfl
@[simp] theorem setCells_status (b : BankId) (m : Memory S) (s : State S) : (setCells b m s).status = s.status := by cases b <;> rfl
@[simp] theorem setCells_pc (b : BankId) (m : Memory S) (s : State S) : (setCells b m s).pc = s.pc := by cases b <;> rfl
@[simp] theorem setCells_cycle (b : BankId) (m : Memory S) (s : State S) : (setCells b m s).cycle = s.cycle := by cases b <;> rfl
@[simp] theorem setCells_op (b : BankId) (m : Memory S) (s : State S) : (setCells b m s).op = s.op := by cases b <;> rfl
@[simp] theorem setCells_mainRd (b : BankId) (m : Memory S) (s : State S) : (setCells b m s).mainRd = s.mainRd := by cases b <;> rfl
@[simp] theorem setCells_mainWr (b : BankId) (m : Memory S) (s : State S) : (setCells b m s).mainWr = s.mainWr := by cases b <;> rfl
@[simp] theorem setCells_bufRd (b : BankId) (m : Memory S) (s : State S) : (setCells b m s).bufRd = s.bufRd := by cases b <;> rfl
@[simp] theorem setCells_bufWr (b : BankId) (m : Memory S) (s : State S) : (setCells b m s).bufWr = s.bufWr := by cases b <;> rfl
@[simp] theorem setCells_log (b : BankId) (m : Memory S) (s : State S) : (setCells b m s).log = s.log := by cases b <;> rfl
@[simp] theorem setCells_diags (b : BankId) (m : Memory S) (s : State S) : (setCells b m s).diags = s.diags := by cases b <;> rfl
@[simp] theorem setCells_main_main (m : Memory S) (s : State S) : (setCells .main m s).main = m := rfl
@[simp] theorem setCells_main_buf (m : Memory S) (s : State S) : (setCells .main m s).buf = s.buf := rfl
@[simp] theorem setCells_buf_main (m : Memory S) (s : State S) : (setCells .buf m s).main = s.main := rfl
@[simp] theorem setCells_buf_buf (m : Memory S) (s : State S) : (setCells .buf m s).buf = m := rfl

/-! ## recordRead -/

@[simp] theorem recordRead_cfg (b : BankId) (a : Nat) (s : State S) : (recordRead b a s).cfg = s.cfg := by cases b <;> rfl
@[simp] theorem recordRead_main (b : BankId) (a : Nat) (s : State S) : (recordRead b a s).main = s.main := by cases b <;> rfl
@[simp] theorem recordRead_buf (b : BankId) (a : Nat) (s : State S) : (recordRead b a s).buf = s.buf := by cases b <;> rfl
@[simp] theorem recordRead_pe (b : BankId) (a : Nat) (s : State S) : (recordRead b a s).pe = s.pe := by cases b <;> rfl
@[simp] theorem recordRead_prog (b : BankId) (a : Nat) (s : State S) : (recordRead b a s).prog = s.prog := by cases b <;> rfl
@[simp] theorem recordRead_status (b : BankId) (a : Nat) (s : State S) : (recordRead b a s).status = s.status := by cases b <;> rfl
@[simp] theorem recordRead_pc (b : BankId) (a : Nat) (s : State S) : (recordRead b a s).pc = s.pc := by cases b <;> rfl
@[simp] theorem recordRead_cycle (b : BankId) (a : Nat) (s : State S) : (recordRead b a s).cycle = s.cycle := by cases b <;> rfl
@[simp] theorem recordRead_op (b : BankId) (a : Nat) (s : State S) : (recordRead b a s).op = s.op := by cases b <;> rfl
@[simp] theorem recordRead_mainWr (b : BankId) (a : Nat) (s : State S) : (recordRead b a s).mainWr = s.mainWr := by cases b <;> rfl
@[simp] theorem recordRead_bufWr (b : BankId) (a : Nat) (s : State S) : (recordRead b a s).bufWr = s.bufWr := by cases b <;> rfl
@[simp] theorem recordRead_log (b : BankId) (a : Nat) (s : State S) : (recordRead b a s).log = s.log := by cases b <;> rfl
@[simp] theorem recordRead_diags (b : BankId) (a : Nat) (s : State S) : (recordRead b a s).diags = s.diags := by cases b <;> rfl
@[simp] theorem recordRead_main_mainRd (a : Nat) (s : State S) : (recordRead .main a s).mainRd = AddrSet.insert a s.mainRd := rfl
@[simp] theorem recordRead_main_bufRd (a : Nat) (s : State S) : (recordRead .main a s).bufRd = s.bufRd := rfl
@[simp] theorem recordRead_buf_mainRd (a : Nat) (s : State S) : (recordRead .buf a s).mainRd = s.mainRd := rfl
@[simp] theorem recordRead_buf_bufRd (a : Nat) (s : State S) : (recordRead .buf a s).bufRd = AddrSet.insert a s.bufRd := rfl

/-! ## recordWrite -/

@[simp] theorem recordWrite_cfg (b : BankId) (a : Nat) (s : State S) : (recordWrite b a s).cfg = s.cfg := by cases b <;> rfl
@[simp] theorem recordWrite_main (b : BankId) (a : Nat) (s : State S) : (recordWrite b a s).main = s.main := by cases b <;> rfl
@[simp] theorem recordWrite_buf (b : BankId) (a : Nat) (s : State S) : (recordWrite b a s).buf = s.buf := by cases b <;> rfl
@[simp] theorem recordWrite_pe (b : BankId) (a : Nat) (s : State S) : (recordWrite b a s).pe = s.pe := by cases b <;> rfl
@[simp] theorem recordWrite_prog (b : BankId) (a : Nat) (s : State S) : (recordWrite b a s).prog = s.prog := by cases b <;> rfl
@[simp] theorem recordWrite_status (b : BankId) (a : Nat) (s : State S) : (recordWrite b a s).status = s.status := by cases b <;> rfl
@[simp] theorem recordWrite_pc (b : BankId) (a : Nat) (s : State S) : (recordWrite b a s).pc = s.pc := by cases b <;> rfl
@[simp] theorem recordWrite_cycle (b : BankId) (a : Nat) (s : State S) : (recordWrite b a s).cycle = s.cycle := by cases b <;> rfl
@[simp] theorem recordWrite_op (b : BankId) (a : Nat) (s : State S) : (recordWrite b a s).op = s.op := by cases b <;> rfl
@[simp] theorem recordWrite_mainRd (b : BankId) (a : Nat) (s : State S) : (recordWrite b a s).mainRd = s.mainRd := by cases b <;> rfl
@[simp] theorem recordWrite_bufRd (b : BankId) (a : Nat) (s : State S) : (recordWrite b a s).bufRd = s.bufRd := by cases b <;> rfl
@[simp] theorem recordWrite_log (b : BankId) (a : Nat) (s : State S) : (recordWrite b a s).log = s.log := by cases b <;> rfl
@[simp] theorem recordWrite_diags (b : BankId) (a : Nat) (s : State S) : (recordWrite b a s).diags = s.diags := by cases b <;> rfl
@[simp] theorem recordWrite_main_mainWr (a : Nat) (s : State S) : (recordWrite .main a s).mainWr = AddrSet.insert a s.mainWr := rfl
@[simp] theorem recordWrite_main_bufWr (a : Nat) (s : State S) : (recordWrite .main a s).bufWr = s.bufWr := rfl
@[simp] theorem recordWrite_buf_mainWr (a : Nat) (s : State S) : (recordWrite .buf a s).mainWr = s.mainWr := rfl
@[simp] theorem recordWrite_buf_bufWr (a : Nat) (s : State S) : (recordWrite .buf a s).bufWr = AddrSet.insert a s.bufWr := rfl

/-! ## clearSets -/

@[simp] theorem clearSets_cfg (s : State S) : (clearSets s).cfg = s.cfg := rfl
@[simp] theorem clearSets_main (s : State S) : (clearSets s).main = s.main := rfl
@[simp] theorem clearSets_buf (s : State S) : (clearSets s).buf = s.buf := rfl
@[simp] theorem clearSets_pe (s : State S) : (clearSets s).pe = s.pe := rfl
@[simp] theorem clearSets_prog (s : State S) : (clearSets s).prog = s.prog := rfl
@[simp] theorem clearSets_status (s : State S) : (clearSets s).status = s.status := rfl
@[simp] theorem clearSets_pc (s : State S) : (clearSets s).pc = s.pc := rfl
@[simp] theorem clearSets_cycle (s : State S) : (clearSets s).cycle = s.cycle := rfl
@[simp] theorem clearSets_op (s : State S) : (clearSets s).op = s.op := rfl
@[simp] theorem clearSets_mainRd (s : State S) : (clearSets s).mainRd = [] := rfl
@[simp] theorem clearSets_mainWr (s : State S) : (clearSets s).mainWr = [] := rfl
@[simp] theorem clearSets_bufRd (s : State S) : (clearSets s).bufRd = [] := rfl
@[simp] theorem clearSets_bufWr (s : State S) : (clearSets s).bufWr = [] := rfl
@[simp] theorem clearSets_log (s : State S) : (clearSets s).log = s.log := rfl
@[simp] theorem clearSets_diags (s : State S) : (clearSets s).diags = s.diags := rfl

/-! ## advancePc -/

@[simp] theorem advancePc_cfg (s : State S) : (advancePc s).cfg = s.cfg := rfl
@[simp] theorem advancePc_main (s : State S) : (advancePc s).main = s.main := rfl
@[simp] theorem advancePc_buf (s : State S) : (advancePc s).buf = s.buf := rfl
@[simp] theorem advancePc_pe (s : State S) : (advancePc s).pe = s.pe := rfl
@[simp] theorem advancePc_prog (s : State S) : (advancePc s).prog = s.prog := rfl
@[simp] theorem advancePc_status (s : State S) : (advancePc s).status = s.status := rfl
@[simp] theorem advancePc_pc (s : State S) : (advancePc s).pc = s.pc + 1 := rfl
@[simp] theorem advancePc_cycle (s : State S) : (advancePc s).cycle = s.cycle := rfl
@[simp] theorem advancePc_op (s : State S) : (advancePc s).op = s.op := rfl
@[simp] theorem advancePc_mainRd (s : State S) : (advancePc s).mainRd = s.mainRd := rfl
@[simp] theorem advancePc_mainWr (s : State S) : (advancePc s).mainWr = s.mainWr := rfl
@[simp] theorem advancePc_bufRd (s : State S) : (advancePc s).bufRd = s.bufRd := rfl
@[simp] theorem advancePc_bufWr (s : State S) : (advancePc s).bufWr = s.bufWr := rfl
@[simp] theorem advancePc_log (s : State S) : (advancePc s).log = s.log := rfl
@[simp] theorem advancePc_diags (s : State S) : (advancePc s).diags = s.diags := rfl

/-! ## finish -/

@[simp] theorem finish_cfg (s : State S) : (finish s).cfg = s.cfg := rfl
@[simp] theorem finish_main (s : State S) : (finish s).main = s.main := rfl
@[simp] theorem finish_buf (s : State S) : (finish s).buf = s.buf := rfl
@[simp] theorem finish_pe (s : State S) : (finish s).pe = s.pe := rfl
@[simp] theorem finish_prog (s : State S) : (finish s).prog = s.prog := rfl
@[simp] theorem finish_status (s : State S) : (finish s).status = .finished := rfl
@[simp] theorem finish_pc (s : State S) : (finish s).pc = s.pc := rfl
@[simp] theorem finish_cycle (s : State S) : (finish s).cycle = s.cycle := rfl
@[simp] theorem finish_op (s : State S) : (finish s).op = s.op := rfl
@[simp] theorem finish_mainRd (s : State S) : (finish s).mainRd = s.mainRd := rfl
@[simp] theorem finish_mainWr (s : State S) : (finish s).mainWr = s.mainWr := rfl
@[simp] theorem finish_bufRd (s : State S) : (finish s).bufRd = s.bufRd := rfl
@[simp] theorem finish_bufWr (s : State S) : (finish s).bufWr = s.bufWr := rfl
@[simp] theorem finish_log (s : State S) : (finish s).log = s.log := rfl
@[simp] theorem finish_diags (s : State S) : (finish s).diags = [] := rfl

/-! ## beginStep -/

@[simp] theorem beginStep_cfg (s : State S) : (beginStep s).cfg = s.cfg := rfl
@[simp] theorem beginStep_main (s : State S) : (beginStep s).main = s.main := rfl
@[simp] theorem beginStep_buf (s : State S) : (beginStep s).buf = s.buf := rfl
@[simp] theorem beginStep_pe (s : State S) : (beginStep s).pe = s.pe := rfl
@[simp] theorem beginStep_prog (s : State S) : (beginStep s).prog = s.prog := rfl
@[simp] theorem beginStep_status (s : State S) : (beginStep s).status = .running := rfl
@[simp] theorem beginStep_pc (s : State S) : (beginStep s).pc = s.pc := rfl
@[simp] theorem beginStep_cycle (s : State S) : (beginStep s).cycle = s.cycle := rfl
@[simp] theorem beginStep_op (s : State S) : (beginStep s).op = s.op := rfl
@[simp] theorem beginStep_mainRd (s : State S) : (beginStep s).mainRd = [] := rfl
@[simp] theorem beginStep_mainWr (s : State S) : (beginStep s).mainWr = [] := rfl
@[simp] theorem beginStep_bufRd (s : State S) : (beginStep s).bufRd = [] := rfl
@[simp] theorem beginStep_bufWr (s : State S) : (beginStep s).bufWr = [] := rfl
@[simp] theorem beginStep_log (s : State S) : (beginStep s).log = s.log := rfl
@[simp] theorem beginStep_diags (s : State S) : (beginStep s).diags = [] := rfl

/-! ## withoutDiags -/

@[simp] theorem withoutDiags_cfg (s : State S) : (withoutDiags s).cfg = s.cfg := rfl
@[simp] theorem withoutDiags_main (s : State S) : (withoutDiags s).main = s.main := rfl
@[simp] theorem withoutDiags_buf (s : State S) : (withoutDiags s).buf = s.buf := rfl
@[simp] theorem withoutDiags_pe (s : State S) : (withoutDiags s).pe = s.pe := rfl
@[simp] theorem withoutDiags_prog (s : State S) : (withoutDiags s).prog = s.prog := rfl
@[simp] theorem withoutDiags_status (s : State S) : (withoutDiags s).status = s.status := rfl
@[simp] theorem withoutDiags_pc (s : State S) : (withoutDiags s).pc = s.pc := rfl
@[simp] theorem withoutDiags_cycle (s : State S) : (withoutDiags s).cycle = s.cycle := rfl
@[simp] theorem withoutDiags_op (s : State S) : (withoutDiags s).op = s.op := rfl
@[simp] theorem withoutDiags_mainRd (s : State S) : (withoutDiags s).mainRd = s.mainRd := rfl
@[simp] theorem withoutDiags_mainWr (s : State S) : (withoutDiags s).mainWr = s.mainWr := rfl
@[simp] theorem withoutDiags_bufRd (s : State S) : (withoutDiags s).bufRd = s.bufRd := rfl
@[simp] theorem withoutDiags_bufWr (s : State S) : (withoutDiags s).bufWr = s.bufWr := rfl
@[simp] theorem withoutDiags_log (s : State S) : (withoutDiags s).log = s.log := rfl
@[simp] theorem withoutDiags_diags (s : State S) : (withoutDiags s).diags = [] := rfl
@[simp] theorem withoutDiags_setDiags (s : State S) (ds : List Diag) :
    withoutDiags { s with diags := ds } = withoutDiags s := rfl

/-! ## entryOf -/

@[simp] theorem entryOf_cycle (s : State S) (w : Work) : (entryOf s w).cycle = s.cycle := rfl
@[simp] theorem entryOf_pc (s : State S) (w : Work) : (entryOf s w).pc = s.pc := rfl
@[simp] theorem entryOf_tag (s : State S) (w : Work) : (entryOf s w).tag = workTag w := rfl

/-- No log entry depends on earlier diagnostics (60_exceptions R251). -/
@[simp] theorem entryOf_setDiags (s : State S) (ds : List Diag) (w : Work) :
    entryOf { s with diags := ds } w = entryOf s w := rfl

/-! ## endStep -/

@[simp] theorem endStep_cfg (s : State S) (w : Work) (t : State S) : (endStep s w t).cfg = t.cfg := rfl
@[simp] theorem endStep_main (s : State S) (w : Work) (t : State S) : (endStep s w t).main = t.main := rfl
@[simp] theorem endStep_buf (s : State S) (w : Work) (t : State S) : (endStep s w t).buf = t.buf := rfl
@[simp] theorem endStep_pe (s : State S) (w : Work) (t : State S) : (endStep s w t).pe = t.pe := rfl
@[simp] theorem endStep_prog (s : State S) (w : Work) (t : State S) : (endStep s w t).prog = t.prog := rfl
@[simp] theorem endStep_status (s : State S) (w : Work) (t : State S) : (endStep s w t).status = t.status := rfl
@[simp] theorem endStep_pc (s : State S) (w : Work) (t : State S) : (endStep s w t).pc = t.pc := rfl
@[simp] theorem endStep_cycle (s : State S) (w : Work) (t : State S) : (endStep s w t).cycle = t.cycle + 1 := rfl
@[simp] theorem endStep_op (s : State S) (w : Work) (t : State S) : (endStep s w t).op = t.op := rfl
@[simp] theorem endStep_mainRd (s : State S) (w : Work) (t : State S) : (endStep s w t).mainRd = t.mainRd := rfl
@[simp] theorem endStep_mainWr (s : State S) (w : Work) (t : State S) : (endStep s w t).mainWr = t.mainWr := rfl
@[simp] theorem endStep_bufRd (s : State S) (w : Work) (t : State S) : (endStep s w t).bufRd = t.bufRd := rfl
@[simp] theorem endStep_bufWr (s : State S) (w : Work) (t : State S) : (endStep s w t).bufWr = t.bufWr := rfl
@[simp] theorem endStep_log (s : State S) (w : Work) (t : State S) : (endStep s w t).log = logAppend t.log (entryOf s w) := by
  simp only [endStep]
@[simp] theorem endStep_diags (s : State S) (w : Work) (t : State S) : (endStep s w t).diags = t.diags := rfl

/-! ## The two banks by name -/

@[simp] theorem cap_main (s : State S) : cap .main s = s.cfg.mainCap := rfl
@[simp] theorem cap_buf (s : State S) : cap .buf s = s.cfg.bufCap := rfl
@[simp] theorem cells_main (s : State S) : cells .main s = s.main := rfl
@[simp] theorem cells_buf (s : State S) : cells .buf s = s.buf := rfl

theorem cells_setCells (b b' : BankId) (m : Memory S) (s : State S) :
    cells b' (setCells b m s) = if b' = b then m else cells b' s := by
  cases b <;> cases b' <;> rfl

/-- The capacity of a bank depends on the parameters only. -/
theorem cap_congr {s t : State S} (h : t.cfg = s.cfg) (b : BankId) : cap b t = cap b s := by
  cases b <;> simp [h]

end Sys2Proof.Npu
end

