-- ==== Sys2Proof/Laws/Ops.lean ====
section
/-!
SUPPORT. What the bank operations can do, said once: MemRead, MemWrite, and the recorded accesses of an engine step.
-/

namespace Sys2Proof.Npu

variable {S : Type}

/-! ## peek -/

theorem peek_congr (K : ScalarOps S) {s t : State S} (hc : t.cfg = s.cfg) (b : BankId)
    (hm : cells b t = cells b s) (a : Nat) : peek K b a t = peek K b a s := by
  simp only [peek, cap_congr hc, hm]

theorem peek_out (K : ScalarOps S) (b : BankId) (a : Nat) (s : State S) (h : cap b s ≤ a) :
    peek K b a s = K.zero := by
  simp only [peek, if_neg (Nat.not_lt.mpr h)]

/-! ## MemRead -/

@[simp] theorem memRead_fst (K : ScalarOps S) (b : BankId) (a : Nat) (s : State S) :
    (memRead K b a s).1 = peek K b a s := by
  simp only [memRead, peek]
  split <;> rfl

@[simp] theorem memRead_diags (K : ScalarOps S) (b : BankId) (a : Nat) (s : State S) :
    (memRead K b a s).2.diags = s.diags ++ readDiag (cap b s) b a := by
  simp only [memRead, readDiag]
  split <;> simp

@[simp] theorem memRead_cfg (K : ScalarOps S) (b : BankId) (a : Nat) (s : State S) :
    (memRead K b a s).2.cfg = s.cfg := by
  simp only [memRead]
  split <;> rfl

@[simp] theorem memRead_main (K : ScalarOps S) (b : BankId) (a : Nat) (s : State S) :
    (memRead K b a s).2.main = s.main := by
  simp only [memRead]
  split <;> rfl

@[simp] theorem memRead_buf (K : ScalarOps S) (b : BankId) (a : Nat) (s : State S) :
    (memRead K b a s).2.buf = s.buf := by
  simp only [memRead]
  split <;> rfl

@[simp] theorem memRead_pe (K : ScalarOps S) (b : BankId) (a : Nat) (s : State S) :
    (memRead K b a s).2.pe = s.pe := by
  simp only [memRead]
  split <;> rfl

@[simp] theorem memRead_prog (K : ScalarOps S) (b : BankId) (a : Nat) (s : State S) :
    (memRead K b a s).2.prog = s.prog := by
  simp only [memRead]
  split <;> rfl

@[simp] theorem memRead_status (K : ScalarOps S) (b : BankId) (a : Nat) (s : State S) :
    (memRead K b a s).2.status = s.status := by
  simp only [memRead]
  split <;> rfl

@[simp] theorem memRead_pc (K : ScalarOps S) (b : BankId) (a : Nat) (s : State S) :
    (memRead K b a s).2.pc = s.pc := by
  simp only [memRead]
  split <;> rfl

@[simp] theorem memRead_cycle (K : ScalarOps S) (b : BankId) (a : Nat) (s : State S) :
    (memRead K b a s).2.cycle = s.cycle := by
  simp only [memRead]
  split <;> rfl

@[simp] theorem memRead_op (K : ScalarOps S) (b : BankId) (a : Nat) (s : State S) :
    (memRead K b a s).2.op = s.op := by
  simp only [memRead]
  split <;> rfl

@[simp] theorem memRead_mainRd (K : ScalarOps S) (b : BankId) (a : Nat) (s : State S) :
    (memRead K b a s).2.mainRd = s.mainRd := by
  simp only [memRead]
  split <;> rfl

@[simp] theorem memRead_mainWr (K : ScalarOps S) (b : BankId) (a : Nat) (s : State S) :
    (memRead K b a s).2.mainWr = s.mainWr := by
  simp only [memRead]
  split <;> rfl

@[simp] theorem memRead_bufRd (K : ScalarOps S) (b : BankId) (a : Nat) (s : State S) :
    (memRead K b a s).2.bufRd = s.bufRd := by
  simp only [memRead]
  split <;> rfl

@[simp] theorem memRead_bufWr (K : ScalarOps S) (b : BankId) (a : Nat) (s : State S) :
    (memRead K b a s).2.bufWr = s.bufWr := by
  simp only [memRead]
  split <;> rfl

@[simp] theorem memRead_log (K : ScalarOps S) (b : BankId) (a : Nat) (s : State S) :
    (memRead K b a s).2.log = s.log := by
  simp only [memRead]
  split <;> rfl

@[simp] theorem memRead_cells (K : ScalarOps S) (b b' : BankId) (a : Nat) (s : State S) :
    cells b' (memRead K b a s).2 = cells b' s := by
  cases b' <;> simp

@[simp] theorem memRead_cap (K : ScalarOps S) (b b' : BankId) (a : Nat) (s : State S) :
    cap b' (memRead K b a s).2 = cap b' s := by
  cases b' <;> simp

/-! ## engineRead -/

@[simp] theorem engineRead_fst (K : ScalarOps S) (b : BankId) (a : Nat) (s : State S) :
    (engineRead K b a s).1 = peek K b a s := by
  simp [engineRead]

@[simp] theorem engineRead_diags (K : ScalarOps S) (b : BankId) (a : Nat) (s : State S) :
    (engineRead K b a s).2.diags = s.diags ++ readDiag (cap b s) b a := by
  simp [engineRead]

@[simp] theorem engineRead_cfg (K : ScalarOps S) (b : BankId) (a : Nat) (s : State S) :
    (engineRead K b a s).2.cfg = s.cfg := by
  simp [engineRead]

@[simp] theorem engineRead_main (K : ScalarOps S) (b : BankId) (a : Nat) (s : State S) :
    (engineRead K b a s).2.main = s.main := by
  simp [engineRead]

@[simp] theorem engineRead_buf (K : ScalarOps S) (b : BankId) (a : Nat) (s : State S) :
    (engineRead K b a s).2.buf = s.buf := by
  simp [engineRead]

@[simp] theorem engineRead_pe (K : ScalarOps S) (b : BankId) (a : Nat) (s : State S) :
    (engineRead K b a s).2.pe = s.pe := by
  simp [engineRead]

@[simp] theorem engineRead_prog (K : ScalarOps S) (b : BankId) (a : Nat) (s : State S) :
    (engineRead K b a s).2.prog = s.prog := by
  simp [engineRead]

@[simp] theorem engineRead_status (K : ScalarOps S) (b : BankId) (a : Nat) (s : State S) :
    (engineRead K b a s).2.status = s.status := by
  simp [engineRead]

@[simp] theorem engineRead_pc (K : ScalarOps S) (b : BankId) (a : Nat) (s : State S) :
    (engineRead K b a s).2.pc = s.pc := by
  simp [engineRead]

@[simp] theorem engineRead_cycle (K : ScalarOps S) (b : BankId) (a : Nat) (s : State S) :
    (engineRead K b a s).2.cycle = s.cycle := by
  simp [engineRead]

@[simp] theorem engineRead_op (K : ScalarOps S) (b : BankId) (a : Nat) (s : State S) :
    (engineRead K b a s).2.op = s.op := by
  simp [engineRead]

@[simp] theorem engineRead_mainWr (K : ScalarOps S) (b : BankId) (a : Nat) (s : State S) :
    (engineRead K b a s).2.mainWr = s.mainWr := by
  simp [engineRead]

@[simp] theorem engineRead_bufWr (K : ScalarOps S) (b : BankId) (a : Nat) (s : State S) :
    (engineRead K b a s).2.bufWr = s.bufWr := by
  simp [engineRead]

@[simp] theorem engineRead_log (K : ScalarOps S) (b : BankId) (a : Nat) (s : State S) :
    (engineRead K b a s).2.log = s.log := by
  simp [engineRead]

@[simp] theorem engineRead_readSet (K : ScalarOps S) (b b' : BankId) (a : Nat) (s : State S) :
    readSet b' (engineRead K b a s).2 = if b' = b then AddrSet.insert a (readSet b s) else readSet b' s := by
  cases b <;> cases b' <;> simp [engineRead, readSet]

@[simp] theorem engineRead_writeSet (K : ScalarOps S) (b b' : BankId) (a : Nat) (s : State S) :
    writeSet b' (engineRead K b a s).2 = writeSet b' s := by
  cases b' <;> simp [writeSet]

@[simp] theorem engineRead_cells (K : ScalarOps S) (b b' : BankId) (a : Nat) (s : State S) :
    cells b' (engineRead K b a s).2 = cells b' s := by
  cases b' <;> simp

@[simp] theorem engineRead_cap (K : ScalarOps S) (b b' : BankId) (a : Nat) (s : State S) :
    cap b' (engineRead K b a s).2 = cap b' s := by
  cases b' <;> simp

@[simp] theorem engineRead_peek (K : ScalarOps S) (b b' : BankId) (a a' : Nat) (s : State S) :
    peek K b' a' (engineRead K b a s).2 = peek K b' a' s :=
  peek_congr K (by simp) b' (by simp) a'

@[simp] theorem recordWrite_cells (b b' : BankId) (a : Nat) (s : State S) :
    cells b' (recordWrite b a s) = cells b' s := by
  cases b' <;> simp

@[simp] theorem recordWrite_cap (b b' : BankId) (a : Nat) (s : State S) :
    cap b' (recordWrite b a s) = cap b' s := by
  cases b' <;> simp

/-! ## MemWrite -/

variable [DecidableEq S]

@[simp] theorem memWrite_diags (K : ScalarOps S) (b : BankId) (a : Nat) (v : S) (s : State S) :
    (memWrite K b a v s).diags = s.diags ++ writeDiag (cap b s) b a := by
  simp only [memWrite, writeDiag]
  split <;> simp

@[simp] theorem memWrite_cfg (K : ScalarOps S) (b : BankId) (a : Nat) (v : S) (s : State S) :
    (memWrite K b a v s).cfg = s.cfg := by
  simp only [memWrite]
  split <;> simp

@[simp] theorem memWrite_pe (K : ScalarOps S) (b : BankId) (a : Nat) (v : S) (s : State S) :
    (memWrite K b a v s).pe = s.pe := by
  simp only [memWrite]
  split <;> simp

@[simp] theorem memWrite_prog (K : ScalarOps S) (b : BankId) (a : Nat) (v : S) (s : State S) :
    (memWrite K b a v s).prog = s.prog := by
  simp only [memWrite]
  split <;> simp

@[simp] theorem memWrite_status (K : ScalarOps S) (b : BankId) (a : Nat) (v : S) (s : State S) :
    (memWrite K b a v s).status = s.status := by
  simp only [memWrite]
  split <;> simp

@[simp] theorem memWrite_pc (K : ScalarOps S) (b : BankId) (a : Nat) (v : S) (s : State S) :
    (memWrite K b a v s).pc = s.pc := by
  simp only [memWrite]
  split <;> simp

@[simp] theorem memWrite_cycle (K : ScalarOps S) (b : BankId) (a : Nat) (v : S) (s : State S) :
    (memWrite K b a v s).cycle = s.cycle := by
  simp only [memWrite]
  split <;> simp

@[simp] theorem memWrite_op (K : ScalarOps S) (b : BankId) (a : Nat) (v : S) (s : State S) :
    (memWrite K b a v s).op = s.op := by
  simp only [memWrite]
  split <;> simp

@[simp] theorem memWrite_mainRd (K : ScalarOps S) (b : BankId) (a : Nat) (v : S) (s : State S) :
    (memWrite K b a v s).mainRd = s.mainRd := by
  simp only [memWrite]
  split <;> simp

@[simp] theorem memWrite_mainWr (K : ScalarOps S) (b : BankId) (a : Nat) (v : S) (s : State S) :
    (memWrite K b a v s).mainWr = s.mainWr := by
  simp only [memWrite]
  split <;> simp

@[simp] theorem memWrite_bufRd (K : ScalarOps S) (b : BankId) (a : Nat) (v : S) (s : State S) :
    (memWrite K b a v s).bufRd = s.bufRd := by
  simp only [memWrite]
  split <;> simp

@[simp] theorem memWrite_bufWr (K : ScalarOps S) (b : BankId) (a : Nat) (v : S) (s : State S) :
    (memWrite K b a v s).bufWr = s.bufWr := by
  simp only [memWrite]
  split <;> simp

@[simp] theorem memWrite_log (K : ScalarOps S) (b : BankId) (a : Nat) (v : S) (s : State S) :
    (memWrite K b a v s).log = s.log := by
  simp only [memWrite]
  split <;> simp

@[simp] theorem memWrite_cap (K : ScalarOps S) (b b' : BankId) (a : Nat) (v : S) (s : State S) :
    cap b' (memWrite K b a v s) = cap b' s := by
  cases b' <;> simp

/-- A write to one bank leaves the cells of the other. -/
theorem memWrite_cells_other (K : ScalarOps S) {b b' : BankId} (h : b' ≠ b) (a : Nat) (v : S) (s : State S) :
    cells b' (memWrite K b a v s) = cells b' s := by
  simp only [memWrite]
  split
  · simp [cells_setCells, h]
  · cases b' <;> simp

/-- Every read after a write: the written cell if it exists, every other cell as before (20_memory R53, R57). -/
@[simp] theorem memWrite_peek (K : ScalarOps S) (b b' : BankId) (a a' : Nat) (v : S) (s : State S) :
    peek K b' a' (memWrite K b a v s) = if b' = b ∧ a' = a ∧ a < cap b s then v else peek K b' a' s := by
  by_cases hb : b' = b
  · subst hb
    simp only [memWrite, peek]
    split
    · rename_i ha
      rw [cap_congr (by simp : (setCells b' _ s).cfg = s.cfg)]
      simp only [cells_setCells, if_true, Memory.read_write, ha, and_true, true_and]
      by_cases haa : a' = a
      · subst haa; simp [ha]
      · simp [haa]
    · rename_i ha
      rw [cap_congr (by simp : (emit _ s).cfg = s.cfg)]
      have : cells b' (emit (.oobWrite b' a) s) = cells b' s := by cases b' <;> simp
      simp [ha, this]
  · rw [peek_congr K (by simp) b' (memWrite_cells_other K hb a v s) a']
    simp [hb]

/-- A write keeps the canonical form of both banks. -/
theorem memWrite_wf (K : ScalarOps S) (b b' : BankId) (a : Nat) (v : S) (s : State S)
    (h : ∀ b, Memory.wf K.zero (cap b s) (cells b s)) :
    Memory.wf K.zero (cap b' (memWrite K b a v s)) (cells b' (memWrite K b a v s)) := by
  rw [memWrite_cap]
  by_cases hb : b' = b
  · subst hb
    simp only [memWrite]
    split
    · rename_i ha
      rw [cells_setCells, if_pos rfl]
      exact Memory.write_wf (h b') ha
    · have : cells b' (emit (.oobWrite b' a) s) = cells b' s := by cases b' <;> simp
      rw [this]
      exact h b'
  · rw [memWrite_cells_other K hb]
    exact h b'

/-! ## engineWrite -/

@[simp] theorem engineWrite_diags (K : ScalarOps S) (b : BankId) (a : Nat) (v : S) (s : State S) :
    (engineWrite K b a v s).diags = s.diags ++ writeDiag (cap b s) b a := by
  simp [engineWrite]

@[simp] theorem engineWrite_cfg (K : ScalarOps S) (b : BankId) (a : Nat) (v : S) (s : State S) :
    (engineWrite K b a v s).cfg = s.cfg := by
  simp [engineWrite]

@[simp] theorem engineWrite_pe (K : ScalarOps S) (b : BankId) (a : Nat) (v : S) (s : State S) :
    (engineWrite K b a v s).pe = s.pe := by
  simp [engineWrite]

@[simp] theorem engineWrite_prog (K : ScalarOps S) (b : BankId) (a : Nat) (v : S) (s : State S) :
    (engineWrite K b a v s).prog = s.prog := by
  simp [engineWrite]

@[simp] theorem engineWrite_status (K : ScalarOps S) (b : BankId) (a : Nat) (v : S) (s : State S) :
    (engineWrite K b a v s).status = s.status := by
  simp [engineWrite]

@[simp] theorem engineWrite_pc (K : ScalarOps S) (b : BankId) (a : Nat) (v : S) (s : State S) :
    (engineWrite K b a v s).pc = s.pc := by
  simp [engineWrite]

@[simp] theorem engineWrite_cycle (K : ScalarOps S) (b : BankId) (a : Nat) (v : S) (s : State S) :
    (engineWrite K b a v s).cycle = s.cycle := by
  simp [engineWrite]

@[simp] theorem engineWrite_op (K : ScalarOps S) (b : BankId) (a : Nat) (v : S) (s : State S) :
    (engineWrite K b a v s).op = s.op := by
  simp [engineWrite]

@[simp] theorem engineWrite_mainRd (K : ScalarOps S) (b : BankId) (a : Nat) (v : S) (s : State S) :
    (engineWrite K b a v s).mainRd = s.mainRd := by
  simp [engineWrite]

@[simp] theorem engineWrite_bufRd (K : ScalarOps S) (b : BankId) (a : Nat) (v : S) (s : State S) :
    (engineWrite K b a v s).bufRd = s.bufRd := by
  simp [engineWrite]

@[simp] theorem engineWrite_log (K : ScalarOps S) (b : BankId) (a : Nat) (v : S) (s : State S) :
    (engineWrite K b a v s).log = s.log := by
  simp [engineWrite]

@[simp] theorem engineWrite_writeSet (K : ScalarOps S) (b b' : BankId) (a : Nat) (v : S) (s : State S) :
    writeSet b' (engineWrite K b a v s) = if b' = b then AddrSet.insert a (writeSet b s) else writeSet b' s := by
  cases b <;> cases b' <;> simp [engineWrite, writeSet]

@[simp] theorem engineWrite_readSet (K : ScalarOps S) (b b' : BankId) (a : Nat) (v : S) (s : State S) :
    readSet b' (engineWrite K b a v s) = readSet b' s := by
  cases b' <;> simp [readSet]

@[simp] theorem engineWrite_cap (K : ScalarOps S) (b b' : BankId) (a : Nat) (v : S) (s : State S) :
    cap b' (engineWrite K b a v s) = cap b' s := by
  cases b' <;> simp

theorem engineWrite_cells_other (K : ScalarOps S) {b b' : BankId} (h : b' ≠ b) (a : Nat) (v : S) (s : State S) :
    cells b' (engineWrite K b a v s) = cells b' s := by
  simp [engineWrite, memWrite_cells_other K h]

@[simp] theorem engineWrite_peek (K : ScalarOps S) (b b' : BankId) (a a' : Nat) (v : S) (s : State S) :
    peek K b' a' (engineWrite K b a v s) = if b' = b ∧ a' = a ∧ a < cap b s then v else peek K b' a' s := by
  rw [← memWrite_peek]
  exact peek_congr K (by simp [engineWrite]) b' (by simp [engineWrite]) a'

theorem engineWrite_wf (K : ScalarOps S) (b b' : BankId) (a : Nat) (v : S) (s : State S)
    (h : ∀ b, Memory.wf K.zero (cap b s) (cells b s)) :
    Memory.wf K.zero (cap b' (engineWrite K b a v s)) (cells b' (engineWrite K b a v s)) := by
  have := memWrite_wf K b b' a v s h
  simpa [engineWrite] using this

end Sys2Proof.Npu
end

