-- ==== Sys2Proof/Laws/Families.lean ====
section
/-!
SUPPORT. What the loops of LOAD, STORE, ACTIVATE and GEMM can do, said once per loop: the cells they leave, the
addresses they record, the diagnostics they emit, and that they keep the canonical form. Later proofs cite these
instead of unfolding a loop.
-/

namespace Sys2Proof.Npu

variable {S : Type}

/-! ## What every bank access leaves alone -/

/-- The parts of the state no bank access of an engine step changes. -/
structure SameControl (s t : State S) : Prop where
  cfg : t.cfg = s.cfg
  pe : t.pe = s.pe
  prog : t.prog = s.prog
  status : t.status = s.status
  pc : t.pc = s.pc
  cycle : t.cycle = s.cycle
  op : t.op = s.op
  log : t.log = s.log

theorem SameControl.refl (s : State S) : SameControl s s := ⟨rfl, rfl, rfl, rfl, rfl, rfl, rfl, rfl⟩

theorem SameControl.trans {s t u : State S} (h : SameControl s t) (k : SameControl t u) : SameControl s u :=
  ⟨k.cfg.trans h.cfg, k.pe.trans h.pe, k.prog.trans h.prog, k.status.trans h.status, k.pc.trans h.pc,
    k.cycle.trans h.cycle, k.op.trans h.op, k.log.trans h.log⟩

theorem engineRead_control (K : ScalarOps S) (b : BankId) (a : Nat) (s : State S) :
    SameControl s (engineRead K b a s).2 := by
  constructor <;> simp

theorem SameControl.cap {s t : State S} (h : SameControl s t) (b : BankId) : cap b t = Npu.cap b s :=
  cap_congr h.cfg b

/-- A loop whose rounds leave the control state alone leaves it alone. -/
theorem forRange_control {body : Nat → State S → State S} (h : ∀ i u, SameControl u (body i u)) (n : Nat)
    (s : State S) : SameControl s (forRange n body s) := by
  induction n with
  | zero => exact SameControl.refl s
  | succ k ih => exact ih.trans (h k _)

/-- The canonical forms of both banks and of the four sets. -/
structure DataWf (K : ScalarOps S) (s : State S) : Prop where
  bank : ∀ b, Memory.wf K.zero (Npu.cap b s) (cells b s)
  reads : ∀ b, AddrSet.wf (readSet b s)
  writes : ∀ b, AddrSet.wf (writeSet b s)

theorem engineRead_wf (K : ScalarOps S) (b : BankId) (a : Nat) (s : State S) (h : DataWf K s) :
    DataWf K (engineRead K b a s).2 := by
  refine ⟨fun b' => by simpa using h.bank b', fun b' => ?_, fun b' => by simpa using h.writes b'⟩
  rw [engineRead_readSet]
  split
  · exact AddrSet.insert_wf (h.reads b)
  · exact h.reads b'

variable [DecidableEq S]

theorem engineWrite_control (K : ScalarOps S) (b : BankId) (a : Nat) (v : S) (s : State S) :
    SameControl s (engineWrite K b a v s) := by
  constructor <;> simp

theorem engineWrite_dataWf (K : ScalarOps S) (b : BankId) (a : Nat) (v : S) (s : State S) (h : DataWf K s) :
    DataWf K (engineWrite K b a v s) := by
  refine ⟨fun b' => engineWrite_wf K b b' a v s h.bank, fun b' => by simpa using h.reads b', fun b' => ?_⟩
  rw [engineWrite_writeSet]
  split
  · exact AddrSet.insert_wf (h.writes b)
  · exact h.writes b'

/-! ## The copy loop of LOAD and STORE -/

theorem copyElem_control (K : ScalarOps S) (f t : BankId) (src dest i : Nat) (s : State S) :
    SameControl s (copyElem K f t src dest i s) :=
  (engineRead_control K f _ s).trans (engineWrite_control K t _ _ _)

theorem copyCells_control (K : ScalarOps S) (f t : BankId) (src dest size : Nat) (s : State S) :
    SameControl s (copyCells K f t src dest size s) :=
  forRange_control (fun i u => copyElem_control K f t src dest i u) size s

/-- A read of either bank after the copy loop: the destination range holds the source values, the rest is as
before (43_data_movement R170, R171). -/
theorem copyCells_peek (K : ScalarOps S) {f t : BankId} (hft : f ≠ t) (src dest size : Nat) (s : State S)
    (b : BankId) (a : Nat) :
    peek K b a (copyCells K f t src dest size s) =
      if b = t ∧ dest ≤ a ∧ a < dest + size ∧ a < cap t s then peek K f (src + (a - dest)) s else peek K b a s := by
  induction size with
  | zero =>
    have : ¬ (b = t ∧ dest ≤ a ∧ a < dest + 0 ∧ a < cap t s) := by omega
    rw [if_neg this]
    rfl
  | succ n ih =>
    have hsrc : ∀ x, peek K f x (copyCells K f t src dest n s) = peek K f x s := by
      intro x
      clear ih
      induction n with
      | zero => rfl
      | succ m ihm =>
        change peek K f x (copyElem K f t src dest m (copyCells K f t src dest m s)) = _
        simp [copyElem, hft, ihm]
    change peek K b a (copyElem K f t src dest n (copyCells K f t src dest n s)) = _
    simp only [copyElem, engineWrite_peek, engineRead_fst, engineRead_cap, engineRead_peek, ih, hsrc,
      (copyCells_control K f t src dest n s).cap, elemAddr]
    by_cases hb : b = t
    · by_cases ha : a = dest + n
      · subst ha
        by_cases hc : dest + n < cap t s
        · simp [hb, hc]
        · simp [hb, hc]
      · have : (dest ≤ a ∧ a < dest + (n + 1) ∧ a < cap t s) ↔ (dest ≤ a ∧ a < dest + n ∧ a < cap t s) := by omega
        simp [hb, ha, this]
    · simp [hb]

/-- The other bank's cells are untouched by the copy loop. -/
theorem copyCells_cells_other (K : ScalarOps S) {f t b : BankId} (hb : b ≠ t) (src dest size : Nat) (s : State S) :
    cells b (copyCells K f t src dest size s) = cells b s := by
  refine forRange_frame (cells b) (fun _ _ => ?_) size s
  simp [copyElem, engineWrite_cells_other K hb]

theorem copyCells_readSet (K : ScalarOps S) (f t : BankId) (src dest size : Nat) (s : State S) (b : BankId)
    (a : Nat) :
    a ∈ readSet b (copyCells K f t src dest size s) ↔
      a ∈ readSet b s ∨ (b = f ∧ src ≤ a ∧ a < src + size) := by
  induction size with
  | zero =>
    change a ∈ readSet b s ↔ _
    constructor
    · exact Or.inl
    · rintro (h | h)
      · exact h
      · omega
  | succ n ih =>
    change a ∈ readSet b (copyElem K f t src dest n (copyCells K f t src dest n s)) ↔ _
    simp only [copyElem, engineWrite_readSet, engineRead_readSet, elemAddr]
    by_cases hb : b = f
    · subst hb
      simp only [if_true, AddrSet.mem_insert, ih, true_and]
      constructor
      · rintro (h | h | h)
        · exact Or.inr (by omega)
        · exact Or.inl h
        · exact Or.inr (by omega)
      · rintro (h | h)
        · exact Or.inr (Or.inl h)
        · by_cases h2 : a = src + n
          · exact Or.inl h2
          · exact Or.inr (Or.inr (by omega))
    · simp [hb, ih]

theorem copyCells_writeSet (K : ScalarOps S) (f t : BankId) (src dest size : Nat) (s : State S) (b : BankId)
    (a : Nat) :
    a ∈ writeSet b (copyCells K f t src dest size s) ↔
      a ∈ writeSet b s ∨ (b = t ∧ dest ≤ a ∧ a < dest + size) := by
  induction size with
  | zero =>
    change a ∈ writeSet b s ↔ _
    constructor
    · exact Or.inl
    · rintro (h | h)
      · exact h
      · omega
  | succ n ih =>
    change a ∈ writeSet b (copyElem K f t src dest n (copyCells K f t src dest n s)) ↔ _
    simp only [copyElem, engineWrite_writeSet, engineRead_writeSet, elemAddr]
    by_cases hb : b = t
    · subst hb
      simp only [if_true, AddrSet.mem_insert, ih, true_and]
      constructor
      · rintro (h | h | h)
        · exact Or.inr (by omega)
        · exact Or.inl h
        · exact Or.inr (by omega)
      · rintro (h | h)
        · exact Or.inr (Or.inl h)
        · by_cases h2 : a = dest + n
          · exact Or.inl h2
          · exact Or.inr (Or.inr (by omega))
    · simp [hb, ih]

/-- The diagnostics of the copy loop, one read and one write per element in ascending order (20_memory R66). -/
theorem copyCells_diags (K : ScalarOps S) (f t : BankId) (src dest size : Nat) (s : State S) :
    (copyCells K f t src dest size s).diags = s.diags ++
      (List.range size).flatMap (fun i => readDiag (cap f s) f (src + i) ++ writeDiag (cap t s) t (dest + i)) := by
  induction size with
  | zero => simp [copyCells]
  | succ n ih =>
    change (copyElem K f t src dest n (copyCells K f t src dest n s)).diags = _
    simp [copyElem, ih, (copyCells_control K f t src dest n s).cap, List.range_succ, elemAddr]

theorem copyCells_wf (K : ScalarOps S) (f t : BankId) (src dest size : Nat) (s : State S) (h : DataWf K s) :
    DataWf K (copyCells K f t src dest size s) :=
  forRange_induct h (fun _ _ u hu => engineWrite_dataWf K t _ _ _ (engineRead_wf K f _ u hu))

/-! ## The loop of ACTIVATE -/

/-- The element loop of ACTIVATE. -/
theorem activateElem_control (K : ScalarOps S) (f : S → S) (addr i : Nat) (s : State S) :
    SameControl s (activateElem K f addr i s) :=
  (engineRead_control K .buf _ s).trans (engineWrite_control K .buf _ _ _)

theorem activateLoop_control (K : ScalarOps S) (f : S → S) (addr size : Nat) (s : State S) :
    SameControl s (forRange size (activateElem K f addr) s) :=
  forRange_control (fun i u => activateElem_control K f addr i u) size s

/-- A read of either bank after the loop: the cells of the range that exist hold f of what they held
(45_activate R221, R226). -/
theorem activateLoop_peek (K : ScalarOps S) (f : S → S) (addr size : Nat) (s : State S) (b : BankId) (a : Nat) :
    peek K b a (forRange size (activateElem K f addr) s) =
      if b = .buf ∧ addr ≤ a ∧ a < addr + size ∧ a < cap .buf s then f (peek K .buf a s) else peek K b a s := by
  induction size with
  | zero =>
    have : ¬ (b = .buf ∧ addr ≤ a ∧ a < addr + 0 ∧ a < cap .buf s) := by omega
    rw [if_neg this]
    rfl
  | succ n ih =>
    have hlast : peek K .buf (addr + n) (forRange n (activateElem K f addr) s) = peek K .buf (addr + n) s := by
      clear ih
      have : ∀ m, m ≤ n → peek K .buf (addr + n) (forRange m (activateElem K f addr) s) = peek K .buf (addr + n) s := by
        intro m hm
        induction m with
        | zero => rfl
        | succ k ihk =>
          have hne : ¬ (addr + n = addr + k) := by omega
          have := ihk (by omega)
          simp only [forRange_succ, activateElem, engineWrite_peek, engineRead_peek, elemAddr, hne, false_and,
            and_false, if_false, this]
      exact this n le_rfl
    simp only [forRange_succ, activateElem, engineWrite_peek, engineRead_fst, engineRead_cap, engineRead_peek, ih,
      hlast, (activateLoop_control K f addr n s).cap, elemAddr]
    by_cases hb : b = .buf
    · by_cases ha : a = addr + n
      · subst ha
        simp [hb]
      · have : (addr ≤ a ∧ a < addr + (n + 1) ∧ a < cap .buf s) ↔ (addr ≤ a ∧ a < addr + n ∧ a < cap .buf s) := by
          omega
        simp only [hb, ha, this, true_and, false_and, and_false, if_false]
    · simp [hb]

theorem activateLoop_main (K : ScalarOps S) (f : S → S) (addr size : Nat) (s : State S) :
    (forRange size (activateElem K f addr) s).main = s.main := by
  refine forRange_frame (fun u => u.main) (fun i u => ?_) size s
  have := engineWrite_cells_other K (b := .buf) (b' := .main) (by decide) (elemAddr addr i)
    (f (engineRead K .buf (elemAddr addr i) u).1) (engineRead K .buf (elemAddr addr i) u).2
  simpa [activateElem] using this

theorem activateLoop_sets (K : ScalarOps S) (f : S → S) (addr size : Nat) (s : State S) (b : BankId) (a : Nat) :
    (a ∈ readSet b (forRange size (activateElem K f addr) s) ↔
      a ∈ readSet b s ∨ (b = .buf ∧ addr ≤ a ∧ a < addr + size)) ∧
    (a ∈ writeSet b (forRange size (activateElem K f addr) s) ↔
      a ∈ writeSet b s ∨ (b = .buf ∧ addr ≤ a ∧ a < addr + size)) := by
  induction size with
  | zero =>
    simp only [forRange_zero]
    constructor <;>
    · constructor
      · exact Or.inl
      · rintro (h | h)
        · exact h
        · omega
  | succ n ih =>
    obtain ⟨ih1, ih2⟩ := ih
    have key : ∀ P : Prop, (a = addr + n ∨ P ∨ (addr ≤ a ∧ a < addr + n)) ↔
        (P ∨ (addr ≤ a ∧ a < addr + (n + 1))) := by
      intro P
      constructor
      · rintro (h | h | h)
        · exact Or.inr (by omega)
        · exact Or.inl h
        · exact Or.inr (by omega)
      · rintro (h | h)
        · exact Or.inr (Or.inl h)
        · by_cases h2 : a = addr + n
          · exact Or.inl h2
          · exact Or.inr (Or.inr (by omega))
    simp only [forRange_succ, activateElem, engineWrite_readSet, engineRead_readSet, engineWrite_writeSet,
      engineRead_writeSet, elemAddr]
    by_cases hb : b = .buf
    · subst hb
      simp only [if_true, AddrSet.mem_insert, ih1, ih2, true_and]
      exact ⟨key _, key _⟩
    · simp [hb, ih1, ih2]

theorem activateLoop_diags (K : ScalarOps S) (f : S → S) (addr size : Nat) (s : State S) :
    (forRange size (activateElem K f addr) s).diags = s.diags ++
      (List.range size).flatMap
        (fun i => readDiag (cap .buf s) .buf (addr + i) ++ writeDiag (cap .buf s) .buf (addr + i)) := by
  induction size with
  | zero => simp
  | succ n ih =>
    simp [activateElem, ih, (activateLoop_control K f addr n s).cfg, List.range_succ, elemAddr]

theorem activateLoop_wf (K : ScalarOps S) (f : S → S) (addr size : Nat) (s : State S) (h : DataWf K s) :
    DataWf K (forRange size (activateElem K f addr) s) :=
  forRange_induct h (fun _ _ u hu => engineWrite_dataWf K .buf _ _ _ (engineRead_wf K .buf _ u hu))

/-! ## The reads and the write-back of a GEMM tick -/

omit [DecidableEq S] in
theorem readLeft_control (K : ScalarOps S) (o : GemmOp) (r : Nat) (s : State S) : SameControl s (readLeft K o r s) := by
  unfold readLeft
  split
  · exact engineRead_control K .buf _ s
  · exact SameControl.refl s

omit [DecidableEq S] in
theorem readTop_control (K : ScalarOps S) (o : GemmOp) (c : Nat) (s : State S) : SameControl s (readTop K o c s) := by
  unfold readTop
  split
  · exact engineRead_control K .buf _ s
  · exact SameControl.refl s

omit [DecidableEq S] in
theorem readFeeds_control (K : ScalarOps S) (o : GemmOp) (s : State S) : SameControl s (readFeeds K o s) :=
  (forRange_control (fun r u => readLeft_control K o r u) _ s).trans
    (forRange_control (fun c u => readTop_control K o c u) _ _)

omit [DecidableEq S] in
/-- The reads of a tick change no cell. -/
theorem readFeeds_cells (K : ScalarOps S) (o : GemmOp) (b : BankId) (s : State S) :
    cells b (readFeeds K o s) = cells b s := by
  unfold readFeeds
  rw [forRange_frame (cells b) (fun c u => ?_), forRange_frame (cells b) (fun r u => ?_)]
  · unfold readLeft
    split <;> simp
  · unfold readTop
    split <;> simp

omit [DecidableEq S] in
/-- The reads of a tick write no cell, so they touch no write set. -/
theorem readFeeds_writeSet (K : ScalarOps S) (o : GemmOp) (b : BankId) (s : State S) :
    writeSet b (readFeeds K o s) = writeSet b s := by
  unfold readFeeds
  rw [forRange_frame (writeSet b) (fun c u => ?_), forRange_frame (writeSet b) (fun r u => ?_)]
  · unfold readLeft
    split <;> simp
  · unfold readTop
    split <;> simp

omit [DecidableEq S] in
theorem readFeeds_wf (K : ScalarOps S) (o : GemmOp) (s : State S) (h : DataWf K s) : DataWf K (readFeeds K o s) := by
  unfold readFeeds
  refine forRange_induct (forRange_induct h (fun r _ u hu => ?_)) (fun c _ u hu => ?_)
  · unfold readLeft
    split
    · exact engineRead_wf K .buf _ u hu
    · exact hu
  · unfold readTop
    split
    · exact engineRead_wf K .buf _ u hu
    · exact hu

theorem writeResult_control (K : ScalarOps S) (o : GemmOp) (out : Nat → Nat → S) (s : State S) :
    SameControl s (writeResult K o out s) :=
  forRange_control (fun _ u => forRange_control (fun _ w => engineWrite_control K .buf _ _ w) _ u) _ s

theorem writeResult_main (K : ScalarOps S) (o : GemmOp) (out : Nat → Nat → S) (s : State S) :
    (writeResult K o out s).main = s.main := by
  refine forRange_frame (fun u => u.main) (fun i u => ?_) _ s
  refine forRange_frame (fun u => u.main) (fun j w => ?_) _ u
  simpa using engineWrite_cells_other K (b := .buf) (b' := .main) (by decide) (resultAddr s.cfg.N o i j) (out i j) w

theorem writeResult_readSet (K : ScalarOps S) (o : GemmOp) (out : Nat → Nat → S) (b : BankId) (s : State S) :
    readSet b (writeResult K o out s) = readSet b s := by
  refine forRange_frame (readSet b) (fun _ u => ?_) _ s
  refine forRange_frame (readSet b) (fun _ _ => ?_) _ u
  simp

/-- One row of the write-back. -/
theorem writeRow_peek (K : ScalarOps S) (base : Nat) (v : Nat → S) (n : Nat) (s : State S) (b : BankId) (a : Nat) :
    peek K b a (forRange n (fun j => engineWrite K .buf (base + j) (v j)) s) =
      if b = .buf ∧ base ≤ a ∧ a < base + n ∧ a < cap .buf s then v (a - base) else peek K b a s := by
  induction n with
  | zero =>
    have : ¬ (b = .buf ∧ base ≤ a ∧ a < base + 0 ∧ a < cap .buf s) := by omega
    rw [if_neg this]
    rfl
  | succ n ih =>
    have hcap : ∀ m, cap .buf (forRange m (fun j => engineWrite K .buf (base + j) (v j)) s) = cap .buf s :=
      fun m => (forRange_control (fun _ w => engineWrite_control K .buf _ _ w) m s).cap .buf
    rw [forRange_succ, engineWrite_peek, ih, hcap]
    by_cases hb : b = .buf
    · by_cases ha : a = base + n
      · subst ha
        by_cases hc : base + n < cap .buf s
        · simp only [hb, hc, true_and, if_true, Nat.le_add_right, Nat.add_sub_cancel_left, and_true]
          rw [if_pos (by omega)]
        · simp only [hb, hc, and_false, if_false]
      · have : (base ≤ a ∧ a < base + (n + 1) ∧ a < cap .buf s) ↔ (base ≤ a ∧ a < base + n ∧ a < cap .buf s) := by omega
        simp only [hb, ha, this, true_and, false_and, if_false]
    · simp only [hb, false_and, if_false]

/-- A read of either bank after the write-back: the N² cells from addrC hold the result row-major, where they
exist; every other cell is as before (44_gemm R196, R202). -/
theorem writeResult_peek (K : ScalarOps S) (o : GemmOp) (out : Nat → Nat → S) (s : State S) (b : BankId) (a : Nat) :
    peek K b a (writeResult K o out s) =
      if b = .buf ∧ o.addrC ≤ a ∧ a < o.addrC + s.cfg.N * s.cfg.N ∧ a < cap .buf s then
        out ((a - o.addrC) / s.cfg.N) ((a - o.addrC) % s.cfg.N)
      else peek K b a s := by
  have hN := s.cfg.N_pos
  unfold writeResult
  generalize hs : s.cfg.N = N at *
  have rows : ∀ m, peek K b a (forRange m
      (fun i u => forRange N (fun j => engineWrite K .buf (resultAddr N o i j) (out i j)) u) s) =
      if b = .buf ∧ o.addrC ≤ a ∧ a < o.addrC + m * N ∧ a < cap .buf s then
        out ((a - o.addrC) / N) ((a - o.addrC) % N)
      else peek K b a s := by
    intro m
    induction m with
    | zero =>
      have : ¬ (b = .buf ∧ o.addrC ≤ a ∧ a < o.addrC + 0 * N ∧ a < cap .buf s) := by omega
      rw [if_neg this]
      rfl
    | succ m ih =>
      have hcap : cap .buf (forRange m
          (fun i u => forRange N (fun j => engineWrite K .buf (resultAddr N o i j) (out i j)) u) s) = cap .buf s :=
        (forRange_control (fun _ u => forRange_control (fun _ w => engineWrite_control K .buf _ _ w) _ u) m s).cap .buf
      rw [forRange_succ]
      simp only [resultAddr, matrixAddr] at ih hcap ⊢
      rw [writeRow_peek K, ih, hcap, Nat.succ_mul]
      by_cases hin : b = .buf ∧ o.addrC + m * N ≤ a ∧ a < o.addrC + m * N + N ∧ a < cap .buf s
      · obtain ⟨hb, h1, h2, h3⟩ := hin
        have hx : a - o.addrC = N * m + (a - (o.addrC + m * N)) := by rw [Nat.mul_comm N m]; omega
        have hd : (a - o.addrC) / N = m := by
          rw [hx, Nat.mul_add_div hN, Nat.div_eq_of_lt (by omega), Nat.add_zero]
        have hm : (a - o.addrC) % N = a - (o.addrC + m * N) := by
          rw [hx, Nat.mul_add_mod, Nat.mod_eq_of_lt (by omega)]
        rw [if_pos ⟨hb, h1, h2, h3⟩, if_pos ⟨hb, by omega, by omega, h3⟩, hd, hm]
      · rw [if_neg hin]
        by_cases hb : b = .buf
        · have : (o.addrC ≤ a ∧ a < o.addrC + m * N ∧ a < cap .buf s) ↔
              (o.addrC ≤ a ∧ a < o.addrC + (m * N + N) ∧ a < cap .buf s) := by
            have : ¬ (o.addrC + m * N ≤ a ∧ a < o.addrC + m * N + N ∧ a < cap .buf s) := fun h => hin ⟨hb, h⟩
            omega
          simp only [hb, this, true_and]
        · simp only [hb, false_and, if_false]
  exact rows N

theorem writeResult_wf (K : ScalarOps S) (o : GemmOp) (out : Nat → Nat → S) (s : State S) (h : DataWf K s) :
    DataWf K (writeResult K o out s) :=
  forRange_induct h (fun _ _ _ hu => forRange_induct hu (fun _ _ w hw => engineWrite_dataWf K .buf _ _ w hw))

end Sys2Proof.Npu
end

