-- ==== Sys2Proof/Laws/PerInstr.lean ====
section
/-!
SUPPORT. Facts about every instruction as syntax, one lemma per constructor.

EncodeOpcode: the word of a well-formed instruction carries the instruction's opcode value in bits [63:60] (30_encoding
R83), so the words of two rows of the opcode table are never confused.
-/

namespace Sys2Proof.Laws.EncodeOpcode

/-- The opcode field of a well-formed instruction's word is its opcode value (30_encoding R83, R96). -/
def Statement (i : Instr) : Prop := i.wf = true → (opcField (encodeWord i)).toNat = i.opc

theorem fieldFits_lt {n : Nat} (h : fieldFits n = true) : n < 65536 := by simpa [fieldFits] using h

theorem code_lt {fn : ActFn} (h : fn.wf = true) : fn.code < 16 := by
  cases fn with
  | other code => simp only [ActFn.wf, Bool.and_eq_true, decide_eq_true_eq] at h; simp only [ActFn.code]; omega
  | _ => simp [ActFn.code]

theorem load (src dest size : Nat) : Statement (.load src dest size) := by
  intro h
  simp only [Instr.wf, Bool.and_eq_true] at h
  exact (packWord_fields (by simp [Instr.opc]) (by decide) (fieldFits_lt h.1.1) (fieldFits_lt h.1.2) (fieldFits_lt h.2)).1

theorem store (src dest size : Nat) : Statement (.store src dest size) := by
  intro h
  simp only [Instr.wf, Bool.and_eq_true] at h
  exact (packWord_fields (by simp [Instr.opc]) (by decide) (fieldFits_lt h.1.1) (fieldFits_lt h.1.2) (fieldFits_lt h.2)).1

theorem gemm (addrA addrB addrC : Nat) : Statement (.gemm addrA addrB addrC) := by
  intro h
  simp only [Instr.wf, Bool.and_eq_true] at h
  exact (packWord_fields (by simp [Instr.opc]) (by decide) (fieldFits_lt h.1.1) (fieldFits_lt h.1.2) (fieldFits_lt h.2)).1

theorem activate (fn : ActFn) (addr size : Nat) : Statement (.activate fn addr size) := by
  intro h
  simp only [Instr.wf, Bool.and_eq_true] at h
  exact (packWord_fields (by simp [Instr.opc]) (code_lt h.1.1) (fieldFits_lt h.1.2) (by decide) (fieldFits_lt h.2)).1

theorem wait : Statement .wait := fun _ => by decide
theorem unknown0 : Statement .unknown0 := fun _ => by decide
theorem unknown6 : Statement .unknown6 := fun _ => by decide
theorem unknown7 : Statement .unknown7 := fun _ => by decide
theorem unknown8 : Statement .unknown8 := fun _ => by decide
theorem unknown9 : Statement .unknown9 := fun _ => by decide
theorem unknownA : Statement .unknownA := fun _ => by decide
theorem unknownB : Statement .unknownB := fun _ => by decide
theorem unknownC : Statement .unknownC := fun _ => by decide
theorem unknownD : Statement .unknownD := fun _ => by decide
theorem unknownE : Statement .unknownE := fun _ => by decide
theorem unknownF : Statement .unknownF := fun _ => by decide
theorem unknownAbove (beyond : Nat) : Statement (.unknownAbove beyond) := fun h => nomatch h

end Sys2Proof.Laws.EncodeOpcode
end

