-- ==== Sys2Proof/Laws/Step.lean ====
section
/-!
SUPPORT. The BINARY64 machine is the generic machine at BINARY64, and what one step can do, said once.
-/

namespace Sys2Proof.Machine

/-- Every instruction answers the next state of its generic effect (42_scheduler R147). -/
theorem exec_eq_effect (i : Instr) (s : State) : exec i s = .next (Npu.instrEffect Binary64.ops i s) := by
  cases i <;> rfl

/-- Every step answers the next state of the generic step (42_scheduler R145). -/
theorem step_eq_effect (s : State) : step s = .next (Npu.stepEffect Binary64.ops s) := by
  unfold step Npu.stepEffect
  split
  · rfl
  · cases hop : s.op with
    | some o => rfl
    | none =>
      cases hf : Npu.fetch s with
      | some i => simp only [closeStep, exec_eq_effect]
      | none => rfl

/-- What a step can do, guards included: a terminal step, a GEMM tick, or one cycle of the fetched instruction. -/
theorem step_cases {s t : State} (h : step s = .next t) :
    (Npu.terminal s = true ∧ t = Npu.finish s) ∨
    (Npu.terminal s = false ∧ ∃ o, s.op = some o ∧
      t = Npu.endStep s (.tick o) (Npu.gemmTick Binary64.ops o (Npu.beginStep s))) ∨
    (Npu.terminal s = false ∧ s.op = none ∧ ∃ i, s.prog[s.pc]? = some i ∧
      t = Npu.endStep s (.instr i) (Npu.instrEffect Binary64.ops i (Npu.beginStep s))) := by
  rw [step_eq_effect] at h
  have ht : Npu.stepEffect Binary64.ops s = t := by simpa using h
  unfold Npu.stepEffect at ht
  cases hterm : Npu.terminal s with
  | true =>
    rw [hterm] at ht
    exact .inl ⟨rfl, ht.symm⟩
  | false =>
    rw [hterm] at ht
    refine .inr ?_
    cases hop : s.op with
    | some o =>
      simp only [hop] at ht
      exact .inl ⟨rfl, o, rfl, ht.symm⟩
    | none =>
      cases hf : Npu.fetch s with
      | some i =>
        simp only [hop, hf] at ht
        exact .inr ⟨rfl, rfl, i, hf, ht.symm⟩
      | none =>
        have hpc : s.prog.length ≤ s.pc := by simpa [Npu.fetch] using hf
        simp [Npu.terminal, hop, hpc] at hterm

/-- A step that is not terminal and has no GEMM in progress has an instruction to fetch (42_scheduler R146). -/
theorem fetch_of_not_terminal {s : State} (h : Npu.terminal s = false) (hop : s.op = none) :
    ∃ i, Npu.fetch s = some i ∧ s.pc < s.prog.length := by
  have hpc : s.pc < s.prog.length := by
    by_contra hge
    simp [Npu.terminal, hop, Nat.not_lt.mp hge] at h
  exact ⟨s.prog[s.pc], by simp [Npu.fetch, hpc], hpc⟩

end Sys2Proof.Machine
end

