-- ==== Sys2Proof/Machine/Flags.lean ====
section
/-!
DEFINITION. Status values as bits. The block has no flags, condition codes or predicates (10_state R34): what stands
here is the 2-bit encoding of the status register (R38) and the GEMM active flag, the one Boolean of the state (R31).
-/

namespace Sys2Proof

/-- The status register's binary encoding (10_state R38). -/
def statusCode : Status → BitVec 2
  | .idle => 0#2
  | .ready => 1#2
  | .running => 2#2
  | .finished => 3#2

/-- The status a 2-bit value stands for: all four are legal (10_state R38). -/
def statusOfCode (v : BitVec 2) : Status :=
  match v.toNat with
  | 0 => .idle
  | 1 => .ready
  | 2 => .running
  | _ => .finished

/-- The GEMM active flag is `op ≠ none` (10_state R31). -/
def Npu.gemmActive {S : Type} (s : Npu.State S) : Bool := s.op.isSome

end Sys2Proof
end

