-- ==== Sys2Proof/Tests/Slice0.lean ====
section
/-!
SUPPORT. The model's own tests: words written out from the spec's encoding, the smoke test of WellFormed, single steps
with the results of spec/95_test_vectors.md, and for every statement with hypotheses a witness that meets them.
-/

namespace Sys2Proof.Tests

set_option Elab.async false

open Sys2Proof Sys2Proof.Machine

/-! ## WellFormed refuses ill-formed instructions (30_encoding R96) -/

theorem test_wf_refuses_wide_load : (Instr.load 65536 0 0).wf = false := by decide
theorem test_wf_refuses_wide_load_dest : (Instr.load 0 65536 0).wf = false := by decide
theorem test_wf_refuses_wide_load_size : (Instr.load 0 0 65536).wf = false := by decide
theorem test_wf_refuses_wide_store : (Instr.store 0 0 65536).wf = false := by decide
theorem test_wf_refuses_wide_gemm : (Instr.gemm 0 65536 0).wf = false := by decide
theorem test_wf_refuses_wide_activate : (Instr.activate .relu 65536 0).wf = false := by decide
theorem test_wf_refuses_named_code_as_other : (Instr.activate (.other 2) 0 0).wf = false := by decide
theorem test_wf_refuses_abstract_opcode : (Instr.unknownAbove 0).wf = false := by decide
theorem test_wf_refuses_wide_code : (Instr.activate (.other 16) 0 0).wf = false := by decide
theorem test_wf_admits_largest : (Instr.activate (.other 15) 65535 65535).wf = true := by decide

/-! ## Decoding, from words written out bit by bit (30_encoding R82 to R85) and 95_test_vectors 2.0 -/

theorem test_decode_load : decode 0x1123456789ABCDEF#64 = .load 17767 35243 52719 := by decide
theorem test_decode_store : decode 0x2000002000200010#64 = .store 32 32 16 := by decide
theorem test_decode_gemm : decode 0x3000000000100020#64 = .gemm 0 16 32 := by decide
theorem test_decode_relu : decode 0x4000002000000010#64 = .activate .relu 32 16 := by decide
theorem test_decode_sigmoid : decode 0x4100002000FF0010#64 = .activate .sigmoid 32 16 := by decide
theorem test_decode_tanh : decode 0x4200000000000002#64 = .activate .tanh 0 2 := by decide
theorem test_decode_other : decode 0x4700000200000002#64 = .activate (.other 7) 2 2 := by decide
theorem test_decode_wait : decode 0x5FFFFFFFFFFFFFFF#64 = .wait := by decide
theorem test_decode_unknown0 : decode 0x0000000000000000#64 = .unknown0 := by decide
theorem test_decode_unknown6 : decode 0x6000000000000000#64 = .unknown6 := by decide
theorem test_decode_unknown7 : decode 0x7000000000000000#64 = .unknown7 := by decide
theorem test_decode_unknown8 : decode 0x8000000000000000#64 = .unknown8 := by decide
theorem test_decode_unknown9 : decode 0x9000000000000000#64 = .unknown9 := by decide
theorem test_decode_unknownA : decode 0xA000000000000000#64 = .unknownA := by decide
theorem test_decode_unknownB : decode 0xB000000000000000#64 = .unknownB := by decide
theorem test_decode_unknownC : decode 0xC000000000000000#64 = .unknownC := by decide
theorem test_decode_unknownD : decode 0xD000000000000000#64 = .unknownD := by decide
theorem test_decode_unknownE : decode 0xE000000000000000#64 = .unknownE := by decide
theorem test_decode_unknownF : decode 0xF000000000000000#64 = .unknownF := by decide

/-- LOAD(5, 9, 3): OPC 0001, FN 0000, RSV 00000000, X = 5, Y = 9, Z = 3, each field from R84. -/
theorem test_decode_load_bits :
    decode (0b0001_0000_00000000_0000000000000101_0000000000001001_0000000000000011#64) = .load 5 9 3 := by decide

/-- A short byte list is rejected by name; eight bytes are a word, the least significant first (20_memory R58). -/
theorem test_decode_short : decodeBytes [0x10#8, 0#8] = .rejected .truncatedWord := by decide
theorem test_decode_little_endian :
    decodeBytes [0x10#8, 0#8, 0#8, 0#8, 0#8, 0#8, 0#8, 0x10#8] = .ok (.load 0 0 16) [] := by decide

/-- The rows of the opcode table do not overlap: sixteen opcode values, sixteen instructions. -/
theorem test_opcodes_distinct :
    ([Instr.load 0 0 0, .store 0 0 0, .gemm 0 0 0, .activate .relu 0 0, .wait, .unknown0, .unknown6, .unknown7,
      .unknown8, .unknown9, .unknownA, .unknownB, .unknownC, .unknownD, .unknownE, .unknownF].map Instr.opc).Pairwise
      (· ≠ ·) := by decide

/-! ## The assembler (30_encoding R94) -/

theorem test_asm_gemm : Asm.assembleLine ['G', 'E', 'M', 'M', '(', '0', ',', ' ', '1', '6', ',', '0', 'x', '2', '0', ')'] =
    .word 0x3000000000100020#64 := by decide +kernel
theorem test_asm_sigmoid : Asm.assembleLine (['A', 'C', 'T', 'I', 'V', 'A', 'T', 'E', '('] ++
    ['s', 'i', 'g', 'm', 'o', 'i', 'd', ',', '3', '2', ',', '1', '6', ')', ' ', '#', 'x']) =
    .word 0x4100002000000010#64 := by decide +kernel
theorem test_asm_raw : Asm.assembleLine (['.', 'w', 'o', 'r', 'd', ' ', '0', 'x'] ++
    ['F', '1', '2', '3', '4', '5', '6', '7', '8', '9', 'A', 'B', 'C', 'D', 'E', 'F']) =
    .word 0xF123456789ABCDEF#64 := by decide +kernel

/-! ## BINARY64 (95_test_vectors 2.3.11 and the table of 2.4) -/

theorem test_mac_two_roundings : Binary64.add (Binary64.mul 0x3FB999999999999A#64 0x3FB999999999999A#64)
    (Binary64.mul 0x3FC999999999999A#64 0x3FC999999999999A#64) = 0x3FA999999999999B#64 := by decide +kernel
theorem test_mul_overflow : Binary64.mul 0x6974E718D7D7625A#64 0x6974E718D7D7625A#64 = 0x7FF0000000000000#64 := by
  decide +kernel
theorem test_mul_inf_zero_is_nan : Binary64.isNaN (Binary64.mul 0x7FF0000000000000#64 0#64) = true :=
  (by
    have h : ∀ (n : Bool) (k : Fin 4503599627370495),
        Binary64.isNaN (Binary64.pack n (Binary64.infMagnitude + 1 + k.val)) = true := by
      intro n k
      have hk := k.isLt
      simp only [Binary64.isNaN, Binary64.magnitude, Binary64.pack, Binary64.infMagnitude, BitVec.toNat_ofNat,
        decide_eq_true_eq]
      cases n
      · simp only [Bool.false_eq_true, if_false]
        omega
      · simp only [if_true]
        omega
    exact h _ _)
theorem test_relu_negative : Binary64.relu 0xC004000000000000#64 = 0#64 := by decide +kernel
theorem test_relu_negative_zero : Binary64.relu 0x8000000000000000#64 = 0#64 := by decide +kernel
theorem test_sigmoid_zero : Binary64.sigmoid 0#64 = 0x3FE0000000000000#64 := by decide +kernel
theorem test_tanh_minus_infinity : Binary64.tanh 0xFFF0000000000000#64 = 0xBFF0000000000000#64 := by decide +kernel

/-! ## Single steps -/

/-- A ready block with a 2×2 array and given capacities, main memory, buffer and program. -/
def small (mainCap bufCap : Nat) (main buf : Memory Scalar) (prog : List Instr) : State :=
  { Npu.State.powerOn 0#64 { N := 2, mainCap := mainCap, bufCap := bufCap, progCap := some 200, N_pos := by decide }
    with main := main, buf := buf, prog := prog, status := .ready }

/-- The same with a 1×1 array. -/
def tiny (buf : Memory Scalar) (prog : List Instr) : State :=
  { Npu.State.powerOn 0#64 { N := 1, mainCap := 4, bufCap := 4, progCap := none, N_pos := by decide }
    with buf := buf, prog := prog, status := .ready }

/-- Does an outcome answer a next state with a property? -/
def nextHas (o : Host.Outcome State Fault Refusal) (p : State → Bool) : Bool :=
  match o with
  | .next t => p t
  | .fault _ => false
  | .refused _ => false

/-- A step from `s` answers a state with the property. -/
def stepHas (s : State) (p : State → Bool) : Bool := nextHas (step s) p

/-- 95_test_vectors 2.1.1. -/
theorem test_load_copies : stepHas (small 16 16 [(0, 0x3FF0000000000000#64), (1, 0x4000000000000000#64), (2, 0x4008000000000000#64), (3, 0x4010000000000000#64)] [] [.load 0 8 4])
    (fun t => t.buf == [(8, 0x3FF0000000000000#64), (9, 0x4000000000000000#64), (10, 0x4008000000000000#64), (11, 0x4010000000000000#64)] &&
      t.main == [(0, 0x3FF0000000000000#64), (1, 0x4000000000000000#64), (2, 0x4008000000000000#64), (3, 0x4010000000000000#64)] &&
      t.mainRd == [0, 1, 2, 3] &&
      t.bufWr == [8, 9, 10, 11] &&
      t.pc == 1 &&
      t.cycle == 1 &&
      t.diags == []) = true := by decide +kernel

/-- 95_test_vectors 2.1.3. -/
theorem test_load_out_of_bounds : stepHas (small 8 8 [(6, 0x401C000000000000#64), (7, 0x4020000000000000#64)] [] [.load 6 0 4])
    (fun t => t.buf == [(0, 0x401C000000000000#64), (1, 0x4020000000000000#64)] &&
      t.mainRd == [6, 7, 8, 9] &&
      t.bufWr == [0, 1, 2, 3] &&
      t.diags == [.oobRead .main 8, .oobRead .main 9]) = true := by decide +kernel

/-- 95_test_vectors 2.1.6. -/
theorem test_store_copies : stepHas (small 8 8 [] [(0, 0x4022000000000000#64), (1, 0x4020000000000000#64)] [.store 0 4 2])
    (fun t => t.main == [(4, 0x4022000000000000#64), (5, 0x4020000000000000#64)] &&
      t.buf == [(0, 0x4022000000000000#64), (1, 0x4020000000000000#64)] &&
      t.bufRd == [0, 1] &&
      t.mainWr == [4, 5] &&
      t.diags == []) = true := by decide +kernel

/-- 95_test_vectors 2.1.7. -/
theorem test_store_out_of_bounds : stepHas (small 8 4 [(1, 0x4018000000000000#64)] [(3, 0x4014000000000000#64)] [.store 3 0 2])
    (fun t => t.main == [(0, 0x4014000000000000#64)] &&
      t.bufRd == [3, 4] &&
      t.mainWr == [0, 1] &&
      t.diags == [.oobRead .buf 4]) = true := by decide +kernel

/-- 95_test_vectors 2.3.1. -/
theorem test_gemm_one_by_one : stepHas (tiny [(0, 0x4000000000000000#64), (1, 0x4008000000000000#64)] [.gemm 0 1 2])
    (fun t => t.buf == [(0, 0x4000000000000000#64), (1, 0x4008000000000000#64), (2, 0x4018000000000000#64)] &&
      t.pe == [[⟨0x4018000000000000#64, 0x4000000000000000#64, 0x4008000000000000#64⟩]] &&
      t.pc == 1 &&
      t.cycle == 1 &&
      t.op == none &&
      t.bufRd == [0, 1] &&
      t.bufWr == [2]) = true := by decide +kernel

/-- 95_test_vectors 2.3.2, its third step from the state after the second. -/
theorem test_gemm_last_tick : stepHas (let s := small 4 12 [] [(0, 0x3FF0000000000000#64), (1, 0x4000000000000000#64), (2, 0x4008000000000000#64), (3, 0x4010000000000000#64), (4, 0x4014000000000000#64), (5, 0x4018000000000000#64), (6, 0x401C000000000000#64), (7, 0x4020000000000000#64)] [.gemm 0 4 8];
    { s with
      op := some ⟨2, 3, 0, 4, 8⟩
      status := .running
      cycle := 2
      pe := [[⟨0x4033000000000000#64, 0x4000000000000000#64, 0x401C000000000000#64⟩, ⟨0x4018000000000000#64, 0x3FF0000000000000#64, 0x4018000000000000#64⟩], [⟨0x402E000000000000#64, 0x4008000000000000#64, 0x4014000000000000#64⟩, ⟨0#64, 0#64, 0#64⟩]] })
    (fun t => t.buf == [(0, 0x3FF0000000000000#64), (1, 0x4000000000000000#64), (2, 0x4008000000000000#64), (3, 0x4010000000000000#64), (4, 0x4014000000000000#64), (5, 0x4018000000000000#64), (6, 0x401C000000000000#64), (7, 0x4020000000000000#64), (8, 0x4033000000000000#64), (9, 0x4036000000000000#64), (10, 0x4045800000000000#64), (11, 0x4032000000000000#64)] &&
      t.op == none &&
      t.pc == 1 &&
      t.cycle == 3 &&
      t.bufRd == [3, 7] &&
      t.bufWr == [8, 9, 10, 11] &&
      t.pe == [[⟨0x4033000000000000#64, 0#64, 0#64⟩, ⟨0x4036000000000000#64, 0x4000000000000000#64, 0x4020000000000000#64⟩], [⟨0x4045800000000000#64, 0x4010000000000000#64, 0x401C000000000000#64⟩, ⟨0x4032000000000000#64, 0x4008000000000000#64, 0x4018000000000000#64⟩]]) = true := by decide +kernel

/-- 95_test_vectors 2.4.5. -/
theorem test_activate_relu : stepHas (small 8 4 [] [(3, 0xBFF0000000000000#64)] [.activate .relu 3 2])
    (fun t => t.buf == [] &&
      t.bufRd == [3, 4] &&
      t.bufWr == [3, 4] &&
      t.diags == [.oobRead .buf 4, .oobWrite .buf 4] &&
      t.pc == 1) = true := by decide +kernel

/-- 95_test_vectors 2.4.4. -/
theorem test_activate_other_is_relu : stepHas (small 8 8 [] [(2, 0xC014000000000000#64), (3, 0x4014000000000000#64)] [.activate (.other 7) 2 2])
    (fun t => t.buf == [(3, 0x4014000000000000#64)] &&
      t.bufRd == [2, 3] &&
      t.diags == []) = true := by decide +kernel

/-- 95_test_vectors 2.5: pc = 3, cycle = 9. -/
theorem test_wait : stepHas ({ small 4 4 [] [] [.wait, .wait, .wait, .wait] with pc := 3, cycle := 9, status := .running })
    (fun t => t.pc == 4 &&
      t.cycle == 10 &&
      (t.log.map (fun e => (e.cycle, e.pc, e.tag))) == [(9, 3, Tag.wait)] &&
      t.mainRd == []) = true := by decide +kernel

/-- 95_test_vectors 2.5. -/
theorem test_unknown0 : stepHas (small 4 4 [] [] [.unknown0])
    (fun t => t.pc == 1 &&
      t.diags == [.unknownOpcode 0 0] &&
      (t.log.map (fun e => e.tag)) == [Tag.error] &&
      t.status == .running) = true := by decide +kernel

/-- 95_test_vectors 2.5. -/
theorem test_unknown6 : stepHas (small 4 4 [] [] [.unknown6])
    (fun t => t.pc == 1 &&
      t.diags == [.unknownOpcode 0 6] &&
      (t.log.map (fun e => e.tag)) == [Tag.error] &&
      t.status == .running) = true := by decide +kernel

/-- 95_test_vectors 2.5. -/
theorem test_unknown7 : stepHas (small 4 4 [] [] [.unknown7])
    (fun t => t.pc == 1 &&
      t.diags == [.unknownOpcode 0 7] &&
      (t.log.map (fun e => e.tag)) == [Tag.error] &&
      t.status == .running) = true := by decide +kernel

/-- 95_test_vectors 2.5. -/
theorem test_unknown8 : stepHas (small 4 4 [] [] [.unknown8])
    (fun t => t.pc == 1 &&
      t.diags == [.unknownOpcode 0 8] &&
      (t.log.map (fun e => e.tag)) == [Tag.error] &&
      t.status == .running) = true := by decide +kernel

/-- 95_test_vectors 2.5. -/
theorem test_unknown9 : stepHas (small 4 4 [] [] [.unknown9])
    (fun t => t.pc == 1 &&
      t.diags == [.unknownOpcode 0 9] &&
      (t.log.map (fun e => e.tag)) == [Tag.error] &&
      t.status == .running) = true := by decide +kernel

/-- 95_test_vectors 2.5. -/
theorem test_unknownA : stepHas (small 4 4 [] [] [.unknownA])
    (fun t => t.pc == 1 &&
      t.diags == [.unknownOpcode 0 10] &&
      (t.log.map (fun e => e.tag)) == [Tag.error] &&
      t.status == .running) = true := by decide +kernel

/-- 95_test_vectors 2.5. -/
theorem test_unknownB : stepHas (small 4 4 [] [] [.unknownB])
    (fun t => t.pc == 1 &&
      t.diags == [.unknownOpcode 0 11] &&
      (t.log.map (fun e => e.tag)) == [Tag.error] &&
      t.status == .running) = true := by decide +kernel

/-- 95_test_vectors 2.5. -/
theorem test_unknownC : stepHas (small 4 4 [] [] [.unknownC])
    (fun t => t.pc == 1 &&
      t.diags == [.unknownOpcode 0 12] &&
      (t.log.map (fun e => e.tag)) == [Tag.error] &&
      t.status == .running) = true := by decide +kernel

/-- 95_test_vectors 2.5. -/
theorem test_unknownD : stepHas (small 4 4 [] [] [.unknownD])
    (fun t => t.pc == 1 &&
      t.diags == [.unknownOpcode 0 13] &&
      (t.log.map (fun e => e.tag)) == [Tag.error] &&
      t.status == .running) = true := by decide +kernel

/-- 95_test_vectors 2.5. -/
theorem test_unknownE : stepHas (small 4 4 [] [] [.unknownE])
    (fun t => t.pc == 1 &&
      t.diags == [.unknownOpcode 0 14] &&
      (t.log.map (fun e => e.tag)) == [Tag.error] &&
      t.status == .running) = true := by decide +kernel

/-- 95_test_vectors 2.5. -/
theorem test_unknownF : stepHas (small 4 4 [] [] [.unknownF])
    (fun t => t.pc == 1 &&
      t.diags == [.unknownOpcode 0 15] &&
      (t.log.map (fun e => e.tag)) == [Tag.error] &&
      t.status == .running) = true := by decide +kernel

/-- 30_encoding R81, 46_control R241: UNKNOWN(16) of the abstract form. -/
theorem test_unknownAbove : stepHas (small 4 4 [] [] [.unknownAbove 0])
    (fun t => t.pc == 1 &&
      t.diags == [.unknownOpcode 0 16] &&
      (t.log.map (fun e => e.tag)) == [Tag.error] &&
      t.status == .running) = true := by decide +kernel

/-- 95_test_vectors 2.6.1. -/
theorem test_power_on_step : stepHas (State.reset)
    (fun t => t.status == .finished &&
      t.cycle == 0 &&
      t.pc == 0 &&
      (t.log.length) == 0) = true := by decide +kernel

/-- 95_test_vectors 2.6.7: loadProgram in the middle of a GEMM abandons it and clears the buffer. -/
theorem test_load_program_mid_gemm : nextHas
    (loadProgram [.wait] { small 4 12 [] [(0, 0x3FF0000000000000#64)] [.gemm 0 4 8] with
      op := some ⟨1, 3, 0, 4, 8⟩
      status := .running
      cycle := 1 })
    (fun t => t.op == none && t.buf == [] && t.pc == 0 && t.cycle == 0 && t.status == .ready) = true := by
  decide +kernel

/-- withFetchWord: the very next step from reset runs the word. -/
theorem test_with_fetch_word : stepHas (State.reset.withFetchWord 64 0x3000000000100020)
    (fun t => t.op == some ⟨1, 7, 0, 16, 32⟩ && t.pc == 0 && t.bufRd == [0, 16]) = true := by decide +kernel

/-! ## Witnesses: states and operands that meet the hypotheses of each statement that has any -/

theorem witness_DecodeFollowsFieldLayout :
    (0x4#4 = 0x4#4 ∧ 3 ≤ (3#4).toNat ∧ 3 ≤ (15#4).toNat) ∧
      decode (0x4#4 ++ 15#4 ++ 255#8 ++ 65535#16 ++ 1#16 ++ 2#16) = .activate (.other 15) 65535 2 := by decide +kernel

theorem witness_IgnoredBitsDoNotChangeDecode :
    opcField 0x5000000000000000#64 = opcField 0x5FFFFFFFFFFFFFFF#64 ∧
      0x5000000000000000#64 &&& ~~~ (ignoredBits 5#4) = 0x5FFFFFFFFFFFFFFF#64 &&& ~~~ (ignoredBits 5#4) ∧
      encode .wait = some 0x5000000000000000#64 := by decide +kernel

theorem witness_DecodeEncodeInverse :
    (Instr.load 65535 65535 65535).wf = true ∧ (Instr.load 65536 0 0).wf = false ∧
      0x4F00FFFF0000FFFF#64 &&& ignoredBits (opcField 0x4F00FFFF0000FFFF#64) = 0#64 := by decide +kernel

theorem witness_DecimalLinesAssemble :
    (0 < 65536 ∧ 65535 < 65536 ∧ 65536 ≤ 65536) ∧
      Asm.assembleLine (callText ['G', 'E', 'M', 'M'] [decimal 0, decimal 10, decimal 65535]) =
        .word (encodeWord (.gemm 0 10 65535)) := by decide +kernel

theorem witness_MemReadReturnsCellOrZero :
    7 < Npu.cap .main (small 8 12 [] [] []) ∧ Npu.cap .main (small 8 12 [] [] []) ≤ 8 := by decide +kernel

theorem witness_MemWriteWritesOneCellOrNone :
    11 < Npu.cap .buf (small 8 12 [] [] []) ∧ Npu.cap .buf (small 8 12 [] [] []) ≤ 12 := by decide +kernel

theorem witness_OutOfBoundsAccessChangesNoCell :
    Npu.cap .buf (small 8 12 [] [] []) ≤ 12 ∧ 11 < Npu.cap .buf (small 8 12 [] [] []) ∧
      7 < Npu.cap .main (small 8 12 [] [] []) := by decide +kernel

theorem witness_UnknownOpcodeReportsAndAdvances :
    (Instr.unknownF, 15) ∈ reservedOpcodes ∧ ¬ (1 ≤ 0 ∧ 0 ≤ 5) ∧ ¬ (1 ≤ 6 ∧ 6 ≤ 5) ∧ Instr.unknown 5 = none ∧
      Instr.unknown 16 = some (.unknownAbove 0) := by decide

/-- Both clauses of the tick: one that is not the last, and the last. -/
theorem witness_StepContinuesGemm :
    (∃ o, ({ small 8 12 [] [] [.gemm 0 4 8] with op := some ⟨1, 3, 0, 4, 8⟩, status := .running, cycle := 1, log := [⟨0, 0, .gemm, ""⟩] } : State).status ≠ .finished ∧
      ({ small 8 12 [] [] [.gemm 0 4 8] with op := some ⟨1, 3, 0, 4, 8⟩, status := .running, cycle := 1, log := [⟨0, 0, .gemm, ""⟩] } : State).op = some o ∧ o.tick ≠ o.total - 1) ∧
      (∃ o, ({ small 8 12 [] [] [.gemm 0 4 8] with op := some ⟨2, 3, 0, 4, 8⟩, status := .running, cycle := 2 } : State).op = some o ∧ o.tick = o.total - 1) := ⟨⟨⟨1, 3, 0, 4, 8⟩, by decide, rfl, by decide⟩, ⟨⟨2, 3, 0, 4, 8⟩, rfl, by decide⟩⟩

/-- 95_test_vectors P1 step 6: tick 3 of N = 4 has four left reads. -/
theorem witness_FeedCountOfTick :
    (0 < 1 ∧ 0 < 2 * 1 - 1) ∧ (0 < 4 ∧ 6 < 2 * 4 - 1) ∧
      ((List.range 4).filter (fun k => feeds 4 3 k)).length = 4 := by decide

theorem witness_GemmTakesExactlyItsTicks :
    FetchesGemm (small 8 12 [] [] [.gemm 0 4 8]) 0 4 8 ∧ (0 < 2 ∧ 2 < 2 * (small 8 12 [] [] [.gemm 0 4 8]).cfg.N - 1) := by decide

theorem witness_GemmWritesTruncatedProduct :
    FetchesGemm (small 8 12 [] [] [.gemm 0 4 8]) 0 4 8 ∧ 8 + 1 * (small 8 12 [] [] [.gemm 0 4 8]).cfg.N + 1 < (small 8 12 [] [] [.gemm 0 4 8]).cfg.bufCap ∧
      ¬ (8 ≤ 7 ∧ 7 < 8 + (small 8 12 [] [] [.gemm 0 4 8]).cfg.N * (small 8 12 [] [] [.gemm 0 4 8]).cfg.N) := by decide

theorem witness_GridAfterGemm :
    FetchesGemm (small 8 12 [] [] [.gemm 0 4 8]) 0 4 8 ∧ 1 < (small 8 12 [] [] [.gemm 0 4 8]).cfg.N ∧ (small 8 12 [] [] [.gemm 0 4 8]).cfg.N - 1 ≤ 0 + 1 ∧
      ¬ (small 8 12 [] [] [.gemm 0 4 8]).cfg.N - 1 ≤ 0 + 0 := by decide

theorem witness_LoadStoreRoundTrip :
    (5 + 3 ≤ (small 8 12 [] [] []).cfg.mainCap ∧ 9 + 3 ≤ (small 8 12 [] [] []).cfg.bufCap) ∧
      (2 < 3 ∧ 0 + 2 < (small 8 12 [] [] []).cfg.mainCap ∧ (small 8 12 [] [] []).cfg.bufCap ≤ 10 + 2) := by decide

theorem witness_OperandsMoveOnePlacePerTick :
    (1 < 2 ∧ 1 ≤ 1 ∧ ¬ 1 ≤ 0) ∧
      (Grid.at Binary64.ops (arrayRun Binary64.ops 2 (fun _ _ => 1#64) (fun _ _ => 0#64) 2) 1 1).a = 1#64 := by decide +kernel

theorem witness_EachTickAddsOneProduct :
    0 < 1 ∧
      (Grid.at Binary64.ops (arrayRun Binary64.ops 1 (fun _ _ => Binary64.one) (fun _ _ => Binary64.one) 1) 0 0).acc =
        Binary64.one := by decide +kernel

/-- A REAL block about to fetch a GEMM. -/
noncomputable def realSmall : Npu.State ℝ :=
  { Npu.State.powerOn 0 { N := 2, mainCap := 4, bufCap := 12, progCap := none, N_pos := by decide }
    with prog := [.gemm 0 4 8], status := .ready }

theorem witness_RealGemmWritesPartialSums :
    realSmall.status ≠ .finished ∧ realSmall.op = none ∧ realSmall.prog[realSmall.pc]? = some (.gemm 0 4 8) ∧
      1 < realSmall.cfg.N ∧ 8 + 1 * realSmall.cfg.N + 1 < realSmall.cfg.bufCap := by
  refine ⟨?_, rfl, rfl, ?_, ?_⟩ <;> simp [realSmall, Npu.State.powerOn]

theorem witness_RealGemmIsProductIff : ∃ (N : Nat) (A B : Nat → Nat → ℝ), 0 < N ∧
    ∀ r < N, ∀ c < N, N ≤ r + c → ∑ k ∈ Finset.Ico (2 * N - 1 - r - c) N, A r k * B k c = 0 :=
  ⟨2, fun _ _ => 0, fun _ _ => 0, by decide, fun _ _ _ _ _ => by simp⟩

/-- Each of the three conditions is met by operands that are not all zero. -/
theorem witness_RealGemmIsProductWhen :
    (∃ (A : Nat → Nat → ℝ), A 0 0 = 1 ∧ 3 * (3 - 1) ≤ 2 * 4 - 2 ∧ ∀ i < 4, ∀ j < 4, 3 ≤ i ∨ 3 ≤ j → A i j = 0) ∧
    (∃ (A B : Nat → Nat → ℝ), A 0 0 = 1 ∧ B 0 0 = 1 ∧
      ∀ r < 4, ∀ c < 4, ∀ k < 4, 2 * 4 - 2 < r + c + k → A r k * B k c = 0) :=
  ⟨⟨fun i j => if i = 0 ∧ j = 0 then 1 else 0, by simp, by decide, fun i _ j _ h => by
      simp only [ite_eq_right_iff]
      omega⟩,
    ⟨fun i j => if i = 0 ∧ j = 0 then 1 else 0, fun i j => if i = 0 ∧ j = 0 then 1 else 0, by simp, by simp,
      fun r _ c _ k _ h => by
        have : ¬ (r = 0 ∧ k = 0) ∨ ¬ (k = 0 ∧ c = 0) := by omega
        rcases this with h1 | h1 <;> simp only [h1, if_false, zero_mul, mul_zero]⟩⟩

theorem witness_ReluOfEveryPattern :
    Binary64.isNaN 0x7FF0000000000001#64 = true ∧
      (Binary64.isNaN 0x7FF0000000000000#64 = false ∧ Binary64.sign 0x7FF0000000000000#64 = false ∧
        Binary64.isZero 0x7FF0000000000000#64 = false) ∧
      (Binary64.isNaN 0x8000000000000000#64 = false ∧ Binary64.sign 0x8000000000000000#64 = true) := by decide +kernel

theorem witness_SigmoidStatedValues :
    Binary64.isNaN 0xFFF8000000000000#64 = true := by decide +kernel

theorem witness_TanhStatedValues :
    Binary64.isNaN 0x7FFFFFFFFFFFFFFF#64 = true := by decide +kernel

theorem witness_BinaryActivationBounds :
    Binary64.isNaN 0x7FF0000000000000#64 = false := by decide +kernel

/-- Half a unit: a tie between 0 and 1, rounded to 0. -/
theorem witness_RoundingIsToNearestEven :
    (0 < 2 ∧ Binary64.roundMagnitude 1 2 < Binary64.infMagnitude ∧ 1 < Binary64.infMagnitude) ∧
      (1 ≠ Binary64.roundMagnitude 1 2 ∧
        ((Binary64.unitsOf (Binary64.roundMagnitude 1 2) * 2 : Int) - 1).natAbs =
          ((Binary64.unitsOf 1 * 2 : Int) - 1).natAbs) := by decide +kernel

theorem witness_RepresentableValuesRoundToThemselves :
    0 < 3 ∧ 0x7FEFFFFFFFFFFFFF < Binary64.infMagnitude := by decide +kernel

theorem witness_AddingZeroKeepsAccumulator :
    (1#64 : Scalar) ≠ 0x8000000000000000#64 ∧
      Binary64.add 0x8000000000000000#64 0x8000000000000000#64 = 0x8000000000000000#64 := by decide +kernel

theorem witness_StepRunsFetchedInstruction :
    (small 8 8 [] [] [.wait]).status ≠ .finished ∧ (small 8 8 [] [] [.wait]).op = none ∧
      (small 8 8 [] [] [.wait]).prog[(small 8 8 [] [] [.wait]).pc]? = some .wait := by decide

theorem witness_LoadedWordsAreDecoded :
    Npu.programFits (small 8 8 [] [] []).cfg ([0x5000000000000000#64].map decode) = true ∧
      ([0x5000000000000000#64] : List Word)[0]? = some 0x5000000000000000#64 := by decide +kernel

theorem witness_TerminalStepOnlyFinishes :
    ({ small 8 8 [] [] [] with status := .finished } : State).status = .finished ∧
      ((small 8 8 [] [] [.wait]).op = none ∧ ({ small 8 8 [] [] [.wait] with pc := 1 } : State).prog.length ≤ 1) := by decide

/-- The small block meets the invariant. -/
theorem small_inv : Inv (small 8 8 [(1, 1#64), (7, 2#64)] [(0, 3#64)] [.wait]) := by
  constructor <;> decide

theorem small_mid_gemm_inv : Inv ({ small 8 12 [] [] [.gemm 0 4 8] with op := some ⟨1, 3, 0, 4, 8⟩, status := .running, cycle := 1, log := [⟨0, 0, .gemm, ""⟩] }) := by
  constructor <;> decide

theorem witness_StatusTransitions :
    Npu.programFits (small 4 4 [] [] []).cfg [.wait] = true ∧ (∃ s, Inv s ∧ s.status = .idle) ∧
      (∃ s, Inv s ∧ s.status = .ready ∧ s.prog = []) ∧ (∃ s, Inv s ∧ s.status = .finished) := by
  refine ⟨rfl, ⟨small 4 4 [] [] [] |> fun s => { s with status := .idle }, ?_, rfl⟩,
    ⟨small 4 4 [] [] [] |> fun s => { s with status := .ready }, ?_, rfl, rfl⟩,
    ⟨small 4 4 [] [] [] |> fun s => { s with status := .finished }, ?_, rfl⟩⟩ <;>
  constructor <;> decide

theorem witness_CycleCountsNonTerminalSteps :
    Npu.programFits (small 8 8 [] [] []).cfg [.wait] = true ∧ Npu.terminal (small 8 8 [] [] []) = true ∧
      Npu.terminal (small 8 8 [] [] [.wait]) = false := by decide

theorem witness_PcMovesOnlyByOne :
    Npu.terminal (small 8 8 [] [] []) = true ∧
      (∃ o, Npu.terminal ({ small 8 12 [] [] [.gemm 0 4 8] with op := some ⟨2, 3, 0, 4, 8⟩, status := .running, cycle := 2 }) = false ∧
        ({ small 8 12 [] [] [.gemm 0 4 8] with op := some ⟨2, 3, 0, 4, 8⟩, status := .running, cycle := 2 } : State).op = some o) ∧
      (Npu.terminal (small 8 8 [] [] [.wait]) = false ∧ (small 8 8 [] [] [.wait]).op = none ∧
        (small 8 8 [] [] [.wait]).prog[0]? = some .wait) ∧ Npu.programFits (small 8 8 [] [] []).cfg [] = true := ⟨by decide, ⟨⟨2, 3, 0, 4, 8⟩, by decide, rfl⟩, by decide, by decide⟩

theorem witness_StepAppendsOneLogEntry :
    Npu.terminal (small 8 8 [] [] []) = true ∧
      (∃ o, Npu.terminal ({ small 8 12 [] [] [.gemm 0 4 8] with op := some ⟨1, 3, 0, 4, 8⟩, status := .running, cycle := 1, log := [⟨0, 0, .gemm, ""⟩] }) = false ∧
        ({ small 8 12 [] [] [.gemm 0 4 8] with op := some ⟨1, 3, 0, 4, 8⟩, status := .running, cycle := 1, log := [⟨0, 0, .gemm, ""⟩] } : State).op = some o) ∧
      (Npu.terminal (small 8 8 [] [] [.unknownF]) = false ∧
        (small 8 8 [] [] [.unknownF]).prog[0]? = some .unknownF) := ⟨by decide, ⟨⟨1, 3, 0, 4, 8⟩, by decide, rfl⟩, by decide⟩

theorem witness_ProgramRunLength :
    ∃ t, loadProgram [.gemm 0 4 8, .wait] (small 8 12 [] [] []) = .next t := ⟨_, rfl⟩

theorem witness_ObservationStateIsNeverRead :
    ∃ s s' : State, s ≠ s' ∧ SameCore s s' := ⟨small 8 8 [] [] [.wait], { small 8 8 [] [] [.wait] with mainRd := [3], diags := [.oobRead .main 9] }, by decide, rfl⟩

/-- A GEMM in progress. -/
theorem witness_StepKeepsInvariant :
    ∃ s t : State, Inv s ∧ step s = .next t ∧ s.op.isSome = true := ⟨_, _, small_mid_gemm_inv, step_eq_effect _, rfl⟩

/-- An observe in the middle of a GEMM. -/
theorem witness_EveryReachableStateMeetsInvariant :
    ∃ (s t : State) (r : Reply), Inv s ∧ hostCommand .observe s = .next (t, r) ∧ s.op.isSome = true :=
  ⟨_, _, _, small_mid_gemm_inv, rfl, rfl⟩

theorem witness_BanksChangeOnlyByTheirInstructions :
    ∃ s t : State, step s = .next t ∧ t.main ≠ s.main := ⟨small 8 4 [] [(3, 0x4014000000000000#64)] [.store 3 0 2], _, step_eq_effect _, by decide +kernel⟩

theorem witness_ArrayChangesOnlyByGemm :
    ∃ s t : State, step s = .next t ∧ t.pe ≠ s.pe := ⟨tiny [(0, 0x4000000000000000#64), (1, 0x4008000000000000#64)] [.gemm 0 1 2], _, step_eq_effect _, by decide +kernel⟩

theorem witness_MainMemoryDoesNotAffectGemm :
    ∃ o, ({ small 8 12 [] [] [.gemm 0 4 8] with op := some ⟨1, 3, 0, 4, 8⟩, status := .running, cycle := 1, log := [⟨0, 0, .gemm, ""⟩] } : State).status ≠ .finished ∧
      ({ small 8 12 [] [] [.gemm 0 4 8] with op := some ⟨1, 3, 0, 4, 8⟩, status := .running, cycle := 1, log := [⟨0, 0, .gemm, ""⟩] } : State).op = some o := ⟨⟨1, 3, 0, 4, 8⟩, by decide, rfl⟩

theorem witness_LoadProgramKeepsOnlyMain :
    Npu.programFits (small 8 8 [] [] []).cfg (List.replicate 200 .wait) = true ∧
      (small 8 8 [] [] []).cfg.progCap = some 200 ∧ 200 < (List.replicate 201 Instr.wait).length := by decide +kernel

/-- Both clauses of a read or write: the last cell of a bank and the first address beyond it. -/
theorem witness_ReadsOfEveryRange :
    ((0 : Nat) < 2 ∧ (0 : Nat) < Npu.cap .buf (small 8 12 [] [] [])) ∧ ¬ 12 < Npu.cap .buf (small 8 12 [] [] []) := by decide

end Sys2Proof.Tests
end

section
/-!
BINARY64 rounding (00_scope R8, decision D1). A magnitude is `u * 2 ^ 52 + q`: a number `q` of units of the place
`2 ^ u`. The value `unitsOf` is strictly increasing in the magnitude, and `roundMagnitude` chooses between the two
neighbours `lo` and `lo + 1` that enclose the quotient. Both obligations follow from these two facts alone.
-/

namespace Sys2Proof.Binary64

/-! ## Magnitudes and their values -/

/-- Exponent field 0: a subnormal magnitude is its own number of units. -/
theorem unitsOf_subnormal {m : Nat} (hm : m < 2 ^ 52) : unitsOf m = m := by
  simp only [unitsOf, Nat.div_eq_of_lt hm, Nat.mod_eq_of_lt hm, if_true]

/-- Exponent field `u + 1`: a normal magnitude has the implicit leading bit and the place `2 ^ u`. -/
theorem unitsOf_normal (u : Nat) {f : Nat} (hf : f < 2 ^ 52) :
    unitsOf ((u + 1) * 2 ^ 52 + f) = (2 ^ 52 + f) * 2 ^ u := by
  have hexp : ((u + 1) * 2 ^ 52 + f) / 2 ^ 52 = u + 1 := by omega
  have hfrac : ((u + 1) * 2 ^ 52 + f) % 2 ^ 52 = f := by omega
  simp only [unitsOf, hexp, hfrac, Nat.succ_ne_zero, if_false, Nat.add_sub_cancel]

/-- The value of `q` units in the place `2 ^ u`; at `q = 2 ^ 53` the magnitude carries into the next exponent. -/
theorem unitsOf_place {u q : Nat} (hq : q ≤ 2 ^ 53) (hu : u = 0 ∨ 2 ^ 52 ≤ q) :
    unitsOf (u * 2 ^ 52 + q) = q * 2 ^ u := by
  obtain ⟨hlt, rfl⟩ | ⟨hge, hlt⟩ | rfl :
      (q < 2 ^ 52 ∧ u = 0) ∨ (2 ^ 52 ≤ q ∧ q < 2 ^ 53) ∨ q = 2 ^ 53 := by omega
  · rw [zero_mul, zero_add, unitsOf_subnormal hlt, pow_zero, mul_one]
  · obtain ⟨f, rfl⟩ := Nat.exists_eq_add_of_le hge
    rw [← unitsOf_normal u (by omega), add_one_mul, add_assoc]
  · have hcarry : u * 2 ^ 52 + 2 ^ 53 = (u + 1 + 1) * 2 ^ 52 + 0 := by omega
    rw [hcarry, unitsOf_normal (u + 1) (by omega)]
    ring

theorem exists_place (m : Nat) : ∃ u q, m = u * 2 ^ 52 + q ∧ q < 2 ^ 53 ∧ (u = 0 ∨ 2 ^ 52 ≤ q) :=
  ⟨m / 2 ^ 52 - 1, m - (m / 2 ^ 52 - 1) * 2 ^ 52, by omega, by omega, by omega⟩

theorem unitsOf_strictMono : StrictMono unitsOf := by
  refine strictMono_nat_of_lt_succ fun m => ?_
  obtain ⟨u, q, rfl, hq, hu⟩ := exists_place m
  rw [add_assoc, unitsOf_place hq.le hu, unitsOf_place (q := q + 1) (by omega) (by omega)]
  exact Nat.mul_lt_mul_of_pos_right (Nat.lt_succ_self q) (by positivity)

/-- Values compared with a quotient over `den` are scaled by `den`, which keeps their order. -/
theorem unitsOf_mul_strictMono {den : Nat} (hden : 0 < den) : StrictMono fun m => unitsOf m * den :=
  unitsOf_strictMono.mul_const hden

/-! ## The neighbours of a quotient -/

/-- In the place that `roundMagnitude` chooses, a quotient has at most 53 bits. -/
theorem div_place_lt (t : Nat) : t / 2 ^ (t.log2 - 52) < 2 ^ 53 := by
  refine Nat.div_lt_of_lt_mul ?_
  calc t < 2 ^ (t.log2 + 1) := Nat.lt_log2_self
    _ ≤ 2 ^ (t.log2 - 52 + 53) := Nat.pow_le_pow_right (by decide) (by omega)
    _ = 2 ^ (t.log2 - 52) * 2 ^ 53 := pow_add ..

/-- Above the lowest place, it has exactly 53 bits. -/
theorem le_div_place {t : Nat} (hu : t.log2 - 52 ≠ 0) : 2 ^ 52 ≤ t / 2 ^ (t.log2 - 52) := by
  have ht : t ≠ 0 := by rintro rfl; simp at hu
  rw [Nat.le_div_iff_mul_le (by positivity), ← pow_add, show 52 + (t.log2 - 52) = t.log2 by omega]
  exact Nat.log2_self_le ht

/-- What `roundMagnitude` computes, in terms of values only: it takes the neighbour on the quotient's side of the
midpoint, and at the midpoint the even one. -/
theorem roundMagnitude_eq_neighbour (num : Nat) {den : Nat} (hden : 0 < den) :
    ∃ lo, unitsOf lo * den ≤ num ∧ num < unitsOf (lo + 1) * den ∧
      roundMagnitude num den = min (if unitsOf lo * den + unitsOf (lo + 1) * den < 2 * num ∨
        (2 * num = unitsOf lo * den + unitsOf (lo + 1) * den ∧ lo % 2 = 1) then lo + 1 else lo) infMagnitude := by
  obtain ⟨u, hu⟩ : ∃ u, u = (num / den).log2 - 52 := ⟨_, rfl⟩
  obtain ⟨q, hq⟩ : ∃ q, q = num / (den * 2 ^ u) := ⟨_, rfl⟩
  have hq53 : q < 2 ^ 53 := by
    rw [hq, ← Nat.div_div_eq_div_mul, hu]; exact div_place_lt _
  have hq52 : u = 0 ∨ 2 ^ 52 ≤ q := by
    rw [hq, ← Nat.div_div_eq_div_mul, hu]; exact or_iff_not_imp_left.2 le_div_place
  have hlo : unitsOf (u * 2 ^ 52 + q) * den = q * (den * 2 ^ u) := by
    rw [unitsOf_place hq53.le hq52]; ring
  have hhi : unitsOf (u * 2 ^ 52 + q + 1) * den = q * (den * 2 ^ u) + den * 2 ^ u := by
    rw [add_assoc, unitsOf_place (q := q + 1) (by omega) (by omega)]; ring
  have hnum : q * (den * 2 ^ u) + num % (den * 2 ^ u) = num := by rw [hq]; exact Nat.div_add_mod' ..
  have hrem : num % (den * 2 ^ u) < den * 2 ^ u := Nat.mod_lt _ (by positivity)
  refine ⟨u * 2 ^ 52 + q, by omega, by omega, ?_⟩
  simp only [roundMagnitude, ← hu, ← hq, hlo, hhi]
  congr 1
  split <;> split <;> omega

/-! ## The obligations -/

/-- Settles O35: a magnitude other than the two neighbours of the quotient lies beyond one of them. -/
theorem roundingIsToNearestEven : Obligations.RoundingIsToNearestEven := by
  unfold Obligations.RoundingIsToNearestEven
  intro num den hden hfin m _
  obtain ⟨lo, hlo, hhi, hround⟩ := roundMagnitude_eq_neighbour num hden
  have hbelow : m < lo → unitsOf m * den < unitsOf lo * den := fun h => unitsOf_mul_strictMono hden h
  have habove : lo + 1 < m → unitsOf (lo + 1) * den < unitsOf m * den := fun h => unitsOf_mul_strictMono hden h
  have hresult := hround.trans (min_eq_left_of_lt (by omega))
  have hm : m < lo ∨ m = lo ∨ m = lo + 1 ∨ lo + 1 < m := by omega
  simp only [hresult, ← Nat.cast_mul]
  split
  · -- the quotient lies above the midpoint, or at it with `lo` odd: the result is `lo + 1`
    obtain hm | rfl | rfl | hm := hm <;> omega
  · -- it lies below the midpoint, or at it with `lo` even: the result is `lo`
    obtain hm | rfl | rfl | hm := hm <;> omega

/-- Settles O36: the quotient is the value of `m`, so its lower neighbour is `m` and it lies below the midpoint. -/
theorem representableValuesRoundToThemselves : Obligations.RepresentableValuesRoundToThemselves := by
  unfold Obligations.RepresentableValuesRoundToThemselves
  intro m den hden hfin
  obtain ⟨lo, hlo, hhi, hround⟩ := roundMagnitude_eq_neighbour (unitsOf m * den) hden
  have hle : lo ≤ m := (unitsOf_mul_strictMono hden).le_iff_le.1 hlo
  have hlt : m < lo + 1 := (unitsOf_mul_strictMono hden).lt_iff_lt.1 hhi
  obtain rfl : lo = m := by omega
  rw [hround, if_neg (by omega), min_eq_left hfin.le]

end Sys2Proof.Binary64
end

section
/-!
What the work of one cycle does (42_scheduler R143, R147), said once for a GEMM tick and once for a fetched
instruction, and the rules over every step that follow from it (10_state): the program and the parameters stay, the
invariant is kept, and observation-only state is never read.
-/

namespace Sys2Proof.Npu

variable {S : Type}

/-! ## Small laws of the updates -/

theorem emit_control (d : Diag) (s : State S) : SameControl s (emit d s) := by
  constructor <;> simp

theorem emit_dataWf (K : ScalarOps S) (d : Diag) {s : State S} (h : DataWf K s) : DataWf K (emit d s) :=
  ⟨h.bank, h.reads, h.writes⟩

theorem advancePc_dataWf (K : ScalarOps S) {s : State S} (h : DataWf K s) : DataWf K (advancePc s) :=
  ⟨h.bank, h.reads, h.writes⟩

theorem beginStep_dataWf (K : ScalarOps S) {s : State S} (h : DataWf K s) : DataWf K (beginStep s) :=
  ⟨h.bank, fun | .main | .buf => AddrSet.wf_nil, fun | .main | .buf => AddrSet.wf_nil⟩

/-- The log holds one entry per cycle until it is full, and is full from then on (42_scheduler R153). -/
theorem logAppend_length {log : List LogEntry} {n : Nat} (h : log.length = min n logCap) (e : LogEntry) :
    (logAppend log e).length = min (n + 1) logCap := by
  simp only [logAppend, List.length_drop, List.length_append, List.length_singleton, h]
  omega

/-- The parts of the state that the work of a cycle leaves alone: only what surrounds it (`beginStep`, `endStep`) and
the host change them. -/
structure WorkFrame (s u : State S) : Prop where
  cfg : u.cfg = s.cfg
  prog : u.prog = s.prog
  status : u.status = s.status
  cycle : u.cycle = s.cycle
  log : u.log = s.log

theorem SameControl.workFrame {s u : State S} (h : SameControl s u) : WorkFrame s u :=
  ⟨h.cfg, h.prog, h.status, h.cycle, h.log⟩

/-! ## One GEMM tick -/

/-- The state in which a GEMM performs tick 0: the array reset and the sub-state set (44_gemm R192). -/
def startGemm (K : ScalarOps S) (addrA addrB addrC : Nat) (s : State S) : State S :=
  { s with pe := arrayReset K s.cfg.N, op := some (gemmOpOf s.cfg.N addrA addrB addrC) }

/-- The state of a GEMM tick once the feeds are read and the array is stepped (44_gemm R205), before the sub-state
moves. -/
def afterFeeds (K : ScalarOps S) (o : GemmOp) (s : State S) : State S :=
  { readFeeds K o s with pe := arrayStep K s.cfg.N (leftFeed K o s) (topFeed K o s) s.pe }

theorem afterFeeds_dataWf (K : ScalarOps S) (o : GemmOp) {s : State S} (h : DataWf K s) :
    DataWf K (afterFeeds K o s) :=
  have hr := readFeeds_wf K o s h
  ⟨hr.bank, hr.reads, hr.writes⟩

variable [DecidableEq S]

/-- The write-back of the accumulators as they stand after the array step (44_gemm R196). -/
def afterResult (K : ScalarOps S) (o : GemmOp) (s : State S) : State S :=
  writeResult K o (arrayOutputs K (afterFeeds K o s).pe) (afterFeeds K o s)

/-- The fetch cycle of a GEMM is tick 0 of a new sub-state (44_gemm R192). -/
theorem gemmEffect_eq_tick (K : ScalarOps S) (addrA addrB addrC : Nat) (s : State S) :
    gemmEffect K addrA addrB addrC s =
      gemmTick K (gemmOpOf s.cfg.N addrA addrB addrC) (startGemm K addrA addrB addrC s) :=
  rfl

/-- The last tick writes the result and ends the GEMM (44_gemm R196). -/
theorem gemmTick_last (K : ScalarOps S) {o : GemmOp} (h : o.tick = o.total - 1) (s : State S) :
    gemmTick K o s = advancePc { afterResult K o s with op := none } :=
  if_pos h

/-- Every other tick only counts itself (44_gemm R197). -/
theorem gemmTick_notLast (K : ScalarOps S) {o : GemmOp} (h : o.tick ≠ o.total - 1) (s : State S) :
    gemmTick K o s = { afterFeeds K o s with op := some { o with tick := o.tick + 1 } } :=
  if_neg h

theorem afterResult_control (K : ScalarOps S) (o : GemmOp) (s : State S) :
    SameControl (afterFeeds K o s) (afterResult K o s) :=
  writeResult_control K o _ _

theorem gemmTick_dataWf (K : ScalarOps S) (o : GemmOp) {s : State S} (h : DataWf K s) :
    DataWf K (gemmTick K o s) := by
  have hfeeds := afterFeeds_dataWf K o h
  by_cases hlast : o.tick = o.total - 1
  · have hres : DataWf K (afterResult K o s) := writeResult_wf K o _ _ hfeeds
    rw [gemmTick_last K hlast]
    exact ⟨hres.bank, hres.reads, hres.writes⟩
  · rw [gemmTick_notLast K hlast]
    exact ⟨hfeeds.bank, hfeeds.reads, hfeeds.writes⟩

theorem gemmTick_frame (K : ScalarOps S) (o : GemmOp) (s : State S) : WorkFrame s (gemmTick K o s) := by
  have hfeeds : WorkFrame s (readFeeds K o s) := (readFeeds_control K o s).workFrame
  by_cases hlast : o.tick = o.total - 1
  · have hres := (afterResult_control K o s).workFrame
    rw [gemmTick_last K hlast]
    exact ⟨hres.cfg.trans hfeeds.cfg, hres.prog.trans hfeeds.prog, hres.status.trans hfeeds.status,
      hres.cycle.trans hfeeds.cycle, hres.log.trans hfeeds.log⟩
  · rw [gemmTick_notLast K hlast]
    exact ⟨hfeeds.cfg, hfeeds.prog, hfeeds.status, hfeeds.cycle, hfeeds.log⟩

/-- Every tick steps the array from the snapshot (44_gemm R205). -/
theorem gemmTick_pe (K : ScalarOps S) (o : GemmOp) (s : State S) :
    (gemmTick K o s).pe = arrayStep K s.cfg.N (leftFeed K o s) (topFeed K o s) s.pe := by
  by_cases hlast : o.tick = o.total - 1
  · rw [gemmTick_last K hlast]
    exact (afterResult_control K o s).pe
  · rw [gemmTick_notLast K hlast]
    rfl

/-- The last tick clears the sub-state and moves the pc. -/
theorem gemmTick_control_last (K : ScalarOps S) {o : GemmOp} (h : o.tick = o.total - 1) (s : State S) :
    (gemmTick K o s).op = none ∧ (gemmTick K o s).pc = s.pc + 1 := by
  have hpc : (afterResult K o s).pc = s.pc := (afterResult_control K o s).pc.trans (readFeeds_control K o s).pc
  rw [gemmTick_last K h]
  exact ⟨rfl, congrArg (· + 1) hpc⟩

/-- Every other tick counts itself and keeps the pc. -/
theorem gemmTick_control_notLast (K : ScalarOps S) {o : GemmOp} (h : o.tick ≠ o.total - 1) (s : State S) :
    (gemmTick K o s).op = some { o with tick := o.tick + 1 } ∧ (gemmTick K o s).pc = s.pc := by
  rw [gemmTick_notLast K h]
  exact ⟨rfl, (readFeeds_control K o s).pc⟩

/-! ## One cycle of the fetched instruction -/

/-- What an instruction's cycle can do: start a GEMM, or access the banks, the sets and the diagnostics alone and then
move the pc (42_scheduler R147). -/
theorem instrEffect_cases (K : ScalarOps S) (i : Instr) (s : State S) :
    (∃ addrA addrB addrC, i = .gemm addrA addrB addrC ∧ instrEffect K i s = gemmEffect K addrA addrB addrC s) ∨
    (∃ u, instrEffect K i s = advancePc u ∧ SameControl s u ∧ (DataWf K s → DataWf K u)) := by
  cases i with
  | gemm addrA addrB addrC => exact .inl ⟨addrA, addrB, addrC, rfl, rfl⟩
  | load src dest size =>
    exact .inr ⟨_, rfl, copyCells_control K .main .buf src dest size s, copyCells_wf K .main .buf src dest size s⟩
  | store src dest size =>
    exact .inr ⟨_, rfl, copyCells_control K .buf .main src dest size s, copyCells_wf K .buf .main src dest size s⟩
  | activate fn addr size =>
    exact .inr ⟨_, rfl, activateLoop_control K (act K fn) addr size s, activateLoop_wf K (act K fn) addr size s⟩
  | wait => exact .inr ⟨s, rfl, .refl s, id⟩
  | _ => exact .inr ⟨_, rfl, emit_control _ s, emit_dataWf K _⟩

theorem gemmEffect_frame (K : ScalarOps S) (addrA addrB addrC : Nat) (s : State S) :
    WorkFrame s (gemmEffect K addrA addrB addrC s) :=
  have h := gemmTick_frame K (gemmOpOf s.cfg.N addrA addrB addrC) (startGemm K addrA addrB addrC s)
  ⟨h.cfg, h.prog, h.status, h.cycle, h.log⟩

theorem instrEffect_frame (K : ScalarOps S) (i : Instr) (s : State S) : WorkFrame s (instrEffect K i s) := by
  obtain ⟨addrA, addrB, addrC, -, heff⟩ | ⟨u, heff, hu, -⟩ := instrEffect_cases K i s
  · rw [heff]
    exact gemmEffect_frame K addrA addrB addrC s
  · rw [heff]
    exact ⟨hu.cfg, hu.prog, hu.status, hu.cycle, hu.log⟩

/-! ## Sound work: what the invariant needs of a cycle -/

/-- The sub-state `o` belongs to the GEMM at the pc, with a tick done and a tick left (10_state R28, R30). -/
structure MidGemm (s : State S) (o : GemmOp) : Prop where
  total : o.total = gemmTicks s.cfg.N
  started : 0 < o.tick
  unfinished : o.tick < o.total
  fetched : s.prog[s.pc]? = some (.gemm o.addrA o.addrB o.addrC)

/-- The state `u` after the work of a cycle from `s`: canonical data, a grid of the right shape, and the instruction
at the pc either done or a GEMM in progress. -/
structure SoundWork (K : ScalarOps S) (s u : State S) : Prop where
  frame : WorkFrame s u
  data : DataWf K u
  grid : Grid.wf s.cfg.N u.pe
  control : (u.op = none ∧ u.pc = s.pc + 1) ∨ (u.pc = s.pc ∧ ∃ o, u.op = some o ∧ MidGemm s o)

theorem gemmTick_sound (K : ScalarOps S) {o : GemmOp} {s : State S} (hdata : DataWf K s)
    (htotal : o.total = gemmTicks s.cfg.N) (htick : o.tick < o.total)
    (hfetched : s.prog[s.pc]? = some (.gemm o.addrA o.addrB o.addrC)) : SoundWork K s (gemmTick K o s) where
  frame := gemmTick_frame K o s
  data := gemmTick_dataWf K o hdata
  grid := by
    rw [gemmTick_pe]
    exact arrayStep_wf K _ _ _ _
  control := by
    by_cases hlast : o.tick = o.total - 1
    · exact .inl (gemmTick_control_last K hlast s)
    · obtain ⟨hop, hpc⟩ := gemmTick_control_notLast K hlast s
      exact .inr ⟨hpc, _, hop, htotal, Nat.succ_pos _, show o.tick + 1 < o.total by omega, hfetched⟩

/-- Before tick 0 no tick is done, and at least one is left because N is positive (00_scope R5). -/
theorem gemmEffect_sound (K : ScalarOps S) {addrA addrB addrC : Nat} {s : State S} (hdata : DataWf K s)
    (hfetched : s.prog[s.pc]? = some (.gemm addrA addrB addrC)) :
    SoundWork K s (gemmEffect K addrA addrB addrC s) :=
  have hticks : 0 < gemmTicks s.cfg.N := by
    have := s.cfg.N_pos
    simp only [gemmTicks]
    omega
  have h := gemmTick_sound K (o := gemmOpOf s.cfg.N addrA addrB addrC)
    (s := startGemm K addrA addrB addrC s) ⟨hdata.bank, hdata.reads, hdata.writes⟩ rfl hticks hfetched
  { frame := gemmEffect_frame K addrA addrB addrC s
    data := h.data
    grid := h.grid
    control := h.control.imp_right fun ⟨hpc, o, hop, hmid⟩ =>
      ⟨hpc, o, hop, hmid.total, hmid.started, hmid.unfinished, hmid.fetched⟩ }

theorem instrEffect_sound (K : ScalarOps S) {i : Instr} {s : State S} (hdata : DataWf K s)
    (hgrid : Grid.wf s.cfg.N s.pe) (hop : s.op = none) (hfetched : s.prog[s.pc]? = some i) :
    SoundWork K s (instrEffect K i s) := by
  obtain ⟨addrA, addrB, addrC, rfl, heff⟩ | ⟨u, heff, hu, hdu⟩ := instrEffect_cases K i s
  · rw [heff]
    exact gemmEffect_sound K hdata hfetched
  · have hframe := instrEffect_frame K i s
    rw [heff] at hframe ⊢
    exact { frame := hframe
            data := advancePc_dataWf K (hdu hdata)
            grid := by simpa [hu.pe] using hgrid
            control := .inl ⟨by simp [hu.op, hop], by simp [hu.pc]⟩ }

end Sys2Proof.Npu

namespace Sys2Proof.Machine

/-! ## Steps keep the program and the parameters -/

theorem step_keeps_program_and_parameters {s t : State} (h : step s = .next t) : t.prog = s.prog ∧ t.cfg = s.cfg := by
  obtain ⟨-, rfl⟩ | ⟨-, o, -, rfl⟩ | ⟨-, -, i, -, rfl⟩ := step_cases h
  · exact ⟨rfl, rfl⟩
  · have hframe := Npu.gemmTick_frame Binary64.ops o (Npu.beginStep s)
    exact ⟨hframe.prog, hframe.cfg⟩
  · have hframe := Npu.instrEffect_frame Binary64.ops i (Npu.beginStep s)
    exact ⟨hframe.prog, hframe.cfg⟩

/-- Any number of steps can be taken, and what every step keeps holds after them. -/
theorem run_induct {P : State → Prop} (hstep : ∀ s t, P s → step s = .next t → P t) (k : Nat) {s : State} (h : P s) :
    ∃ t, Host.Core.run Sys2Proof.core k s = .next t ∧ P t := by
  induction k generalizing s with
  | zero => exact ⟨s, rfl, h⟩
  | succ k ih =>
    have hs : Sys2Proof.core.step s = .next (Npu.stepEffect Binary64.ops s) := step_eq_effect s
    obtain ⟨t, hrun, ht⟩ := ih (hstep s _ h hs)
    exact ⟨t, by simpa only [Host.Core.run, hs] using hrun, ht⟩

/-- Settles O55, by induction on the steps. -/
theorem stepsKeepProgramAndParameters : Obligations.StepsKeepProgramAndParameters := by
  unfold Obligations.StepsKeepProgramAndParameters
  intro k s
  refine run_induct (P := fun t => Npu.State.prog t = s.prog ∧ Npu.State.cfg t = s.cfg) ?_ k ⟨rfl, rfl⟩
  intro u t ⟨hprog, hcfg⟩ h
  obtain ⟨hprog', hcfg'⟩ := step_keeps_program_and_parameters h
  exact ⟨hprog'.trans hprog, hcfg'.trans hcfg⟩

/-! ## Every step keeps the invariant -/

theorem Inv.dataWf {s : State} (h : Inv s) : Npu.DataWf Binary64.ops s := by
  obtain ⟨hmainRd, hmainWr, hbufRd, hbufWr⟩ := h.setsWf
  exact ⟨fun | .main => h.mainWf | .buf => h.bufWf, fun | .main => hmainRd | .buf => hbufRd,
    fun | .main => hmainWr | .buf => hbufWr⟩

/-- A terminal step from a sound state finds the whole program done (42_scheduler R132, R140). -/
theorem Inv.done_of_terminal {s : State} (h : Inv s) (hterm : Npu.terminal s = true) :
    s.op = none ∧ s.pc = s.prog.length := by
  have hcases : s.status = .finished ∨ (s.op = none ∧ s.prog.length ≤ s.pc) := by
    simpa [Npu.terminal] using hterm
  obtain hfin | ⟨hop, hpc⟩ := hcases
  · exact h.finishedDone hfin
  · exact ⟨hop, le_antisymm h.pcInProgram hpc⟩

theorem Inv.finish {s : State} (h : Inv s) (hterm : Npu.terminal s = true) : Inv (Npu.finish s) where
  mainWf := h.mainWf
  bufWf := h.bufWf
  gridShape := h.gridShape
  setsWf := h.setsWf
  pcInProgram := h.pcInProgram
  progFits := h.progFits
  logLength := h.logLength
  gemmInProgress := by simp [(h.done_of_terminal hterm).1]
  idleEmpty := by simp
  readyFresh := by simp
  finishedDone := fun _ => h.done_of_terminal hterm

/-- A cycle of sound work, with its log entry and its count, keeps the invariant. -/
theorem Inv.endStep {s u : State} (h : Inv s) (hpc : s.pc < s.prog.length)
    (hu : Npu.SoundWork Binary64.ops (Npu.beginStep s) u) (w : Work) : Inv (Npu.endStep s w u) := by
  obtain ⟨⟨hcfg, hprog, hstatus, hcycle, hlog⟩, hdata, hgrid, hcontrol⟩ := hu
  simp only [Npu.beginStep_cfg, Npu.beginStep_prog, Npu.beginStep_status, Npu.beginStep_cycle, Npu.beginStep_log,
    Npu.beginStep_pc] at hcfg hprog hstatus hcycle hlog hgrid hcontrol
  exact {
    mainWf := hdata.bank .main
    bufWf := hdata.bank .buf
    gridShape := by rwa [Npu.endStep_cfg, hcfg]
    setsWf := ⟨hdata.reads .main, hdata.writes .main, hdata.reads .buf, hdata.writes .buf⟩
    pcInProgram := by
      have hupc : u.pc ≤ s.pc + 1 := by
        obtain ⟨-, hupc⟩ | ⟨hupc, -⟩ := hcontrol <;> omega
      rw [Npu.endStep_pc, Npu.endStep_prog, hprog]
      exact hupc.trans hpc
    progFits := by
      rw [Npu.endStep_cfg, Npu.endStep_prog, hcfg, hprog]
      exact h.progFits
    logLength := by
      rw [Npu.endStep_log, Npu.endStep_cycle, hlog, hcycle]
      exact Npu.logAppend_length h.logLength _
    gemmInProgress := by
      obtain ⟨hop, -⟩ | ⟨hupc, o, hop, hmid⟩ := hcontrol
      · simp [hop]
      · intro o' ho'
        obtain rfl : o = o' := by simpa [hop] using ho'
        simp only [Npu.endStep_cfg, Npu.endStep_prog, Npu.endStep_pc, Npu.endStep_status, hcfg, hprog, hupc]
        exact ⟨hmid.total, hmid.started, hmid.unfinished, hmid.fetched, hstatus⟩
    idleEmpty := by simp [hstatus]
    readyFresh := by simp [hstatus]
    finishedDone := by simp [hstatus] }

/-- Settles O50, by the three things a step can do. -/
theorem stepKeepsInvariant : Obligations.StepKeepsInvariant := by
  unfold Obligations.StepKeepsInvariant
  intro s t h hstep
  have hdata := Npu.beginStep_dataWf Binary64.ops h.dataWf
  obtain ⟨hterm, rfl⟩ | ⟨-, o, hop, rfl⟩ | ⟨-, hop, i, hfetched, rfl⟩ := step_cases hstep
  · exact h.finish hterm
  · obtain ⟨htotal, -, htick, hfetched, -⟩ := h.gemmInProgress o hop
    obtain ⟨hpc, -⟩ := List.getElem?_eq_some_iff.mp hfetched
    exact h.endStep hpc (Npu.gemmTick_sound Binary64.ops hdata htotal htick hfetched) (.tick o)
  · obtain ⟨hpc, -⟩ := List.getElem?_eq_some_iff.mp hfetched
    exact h.endStep hpc (Npu.instrEffect_sound Binary64.ops hdata h.gridShape hop hfetched) (.instr i)

end Sys2Proof.Machine

namespace Sys2Proof.Npu

variable {S : Type}

/-! ## Observation-only state is never read -/

/-- Two states with the same parameters, banks, array, program and control state; the access sets, the log and the
diagnostics may differ (10_state R32, R33, R35). -/
structure AgreeOnCore (s t : State S) : Prop where
  cfg : t.cfg = s.cfg
  pe : t.pe = s.pe
  prog : t.prog = s.prog
  status : t.status = s.status
  pc : t.pc = s.pc
  cycle : t.cycle = s.cycle
  op : t.op = s.op
  cells : ∀ b, cells b t = cells b s

theorem AgreeOnCore.peek {s t : State S} (h : AgreeOnCore s t) (K : ScalarOps S) (b : BankId) (a : Nat) :
    Npu.peek K b a t = Npu.peek K b a s :=
  peek_congr K h.cfg b (h.cells b) a

/-- Bank accesses keep the agreement when they leave the same cells. -/
theorem AgreeOnCore.of_control {s t s' t' : State S} (h : AgreeOnCore s t) (hs : SameControl s s')
    (ht : SameControl t t') (hcells : ∀ b, Npu.cells b t' = Npu.cells b s') : AgreeOnCore s' t' where
  cfg := by rw [ht.cfg, h.cfg, hs.cfg]
  pe := by rw [ht.pe, h.pe, hs.pe]
  prog := by rw [ht.prog, h.prog, hs.prog]
  status := by rw [ht.status, h.status, hs.status]
  pc := by rw [ht.pc, h.pc, hs.pc]
  cycle := by rw [ht.cycle, h.cycle, hs.cycle]
  op := by rw [ht.op, h.op, hs.op]
  cells := hcells

theorem AgreeOnCore.engineRead {s t : State S} (h : AgreeOnCore s t) (K : ScalarOps S) (b : BankId) (a : Nat) :
    AgreeOnCore (Npu.engineRead K b a s).2 (Npu.engineRead K b a t).2 :=
  h.of_control (engineRead_control K b a s) (engineRead_control K b a t) fun b' => by
    rw [engineRead_cells, engineRead_cells, h.cells]

theorem AgreeOnCore.advancePc {s t : State S} (h : AgreeOnCore s t) :
    AgreeOnCore (Npu.advancePc s) (Npu.advancePc t) :=
  ⟨h.cfg, h.pe, h.prog, h.status, congrArg (· + 1) h.pc, h.cycle, h.op, h.cells⟩

theorem AgreeOnCore.emit {s t : State S} (h : AgreeOnCore s t) (d d' : Diag) :
    AgreeOnCore (Npu.emit d s) (Npu.emit d' t) :=
  ⟨h.cfg, h.pe, h.prog, h.status, h.pc, h.cycle, h.op, h.cells⟩

theorem AgreeOnCore.setOp {s t : State S} (h : AgreeOnCore s t) (o : Option GemmOp) :
    AgreeOnCore { s with op := o } { t with op := o } :=
  ⟨h.cfg, h.pe, h.prog, h.status, h.pc, h.cycle, rfl, h.cells⟩

theorem AgreeOnCore.startGemm {s t : State S} (h : AgreeOnCore s t) (K : ScalarOps S) (addrA addrB addrC : Nat) :
    AgreeOnCore (Npu.startGemm K addrA addrB addrC s) (Npu.startGemm K addrA addrB addrC t) :=
  ⟨h.cfg, by rw [Npu.startGemm, Npu.startGemm, h.cfg], h.prog, h.status, h.pc, h.cycle,
    by rw [Npu.startGemm, Npu.startGemm, h.cfg], h.cells⟩

theorem AgreeOnCore.finish {s t : State S} (h : AgreeOnCore s t) : AgreeOnCore (Npu.finish s) (Npu.finish t) :=
  ⟨h.cfg, h.pe, h.prog, rfl, h.pc, h.cycle, h.op, h.cells⟩

theorem AgreeOnCore.beginStep {s t : State S} (h : AgreeOnCore s t) :
    AgreeOnCore (Npu.beginStep s) (Npu.beginStep t) :=
  ⟨h.cfg, h.pe, h.prog, rfl, h.pc, h.cycle, h.op, h.cells⟩

theorem AgreeOnCore.endStep {s t u v : State S} (h : AgreeOnCore u v) (w : Work) :
    AgreeOnCore (Npu.endStep s w u) (Npu.endStep t w v) :=
  ⟨h.cfg, h.pe, h.prog, h.status, h.pc, congrArg (· + 1) h.cycle, h.op, h.cells⟩

theorem AgreeOnCore.terminal {s t : State S} (h : AgreeOnCore s t) : Npu.terminal t = Npu.terminal s := by
  simp only [Npu.terminal, h.status, h.op, h.prog, h.pc]

/-- Two loops whose rounds keep a relation keep it. -/
theorem forRange_rel {σ : Type} {R : σ → σ → Prop} {body body' : Nat → σ → σ}
    (hbody : ∀ i s t, R s t → R (body i s) (body' i t)) (n : Nat) {s t : σ} (h : R s t) :
    R (forRange n body s) (forRange n body' t) := by
  induction n with
  | zero => exact h
  | succ n ih => exact hbody n _ _ ih

/-- The inputs of the array in a tick are values of the buffer (44_gemm R193, R194). -/
theorem AgreeOnCore.feeds {s t : State S} (h : AgreeOnCore s t) (K : ScalarOps S) (o : GemmOp) :
    leftFeed K o t = leftFeed K o s ∧ topFeed K o t = topFeed K o s := by
  constructor <;> funext k <;> simp only [leftFeed, topFeed, h.cfg, h.peek]

theorem AgreeOnCore.afterFeeds {s t : State S} (h : AgreeOnCore s t) (K : ScalarOps S) (o : GemmOp) :
    AgreeOnCore (Npu.afterFeeds K o s) (Npu.afterFeeds K o t) := by
  have hreads : AgreeOnCore (readFeeds K o s) (readFeeds K o t) :=
    h.of_control (readFeeds_control K o s) (readFeeds_control K o t) fun b => by
      rw [readFeeds_cells, readFeeds_cells, h.cells]
  obtain ⟨hleft, htop⟩ := h.feeds K o
  exact ⟨hreads.cfg, by simp only [Npu.afterFeeds, h.cfg, h.pe, hleft, htop], hreads.prog, hreads.status, hreads.pc,
    hreads.cycle, hreads.op, hreads.cells⟩

variable [DecidableEq S]

theorem engineWrite_cells (K : ScalarOps S) (b b' : BankId) (a : Nat) (v : S) (s : State S) :
    cells b' (engineWrite K b a v s) =
      if b' = b ∧ a < cap b s then Memory.write K.zero a v (cells b s) else cells b' s := by
  rw [engineWrite, recordWrite_cells, memWrite]
  by_cases ha : a < cap b s
  · simp only [ha, and_true, if_true, cells_setCells]
  · rw [if_neg ha, if_neg (fun h => ha h.2)]
    cases b' <;> rfl

theorem AgreeOnCore.engineWrite {s t : State S} (h : AgreeOnCore s t) (K : ScalarOps S) (b : BankId) (a : Nat)
    (v : S) : AgreeOnCore (Npu.engineWrite K b a v s) (Npu.engineWrite K b a v t) :=
  h.of_control (engineWrite_control K b a v s) (engineWrite_control K b a v t) fun b' => by
    rw [engineWrite_cells, engineWrite_cells, cap_congr h.cfg, h.cells, h.cells]

theorem AgreeOnCore.copyCells {s t : State S} (h : AgreeOnCore s t) (K : ScalarOps S) (f b : BankId)
    (src dest size : Nat) : AgreeOnCore (Npu.copyCells K f b src dest size s) (Npu.copyCells K f b src dest size t) := by
  refine forRange_rel (fun i u v huv => ?_) size h
  simp only [copyElem, engineRead_fst, huv.peek]
  exact (huv.engineRead K f _).engineWrite K b _ _

theorem AgreeOnCore.activateLoop {s t : State S} (h : AgreeOnCore s t) (K : ScalarOps S) (f : S → S)
    (addr size : Nat) :
    AgreeOnCore (forRange size (activateElem K f addr) s) (forRange size (activateElem K f addr) t) := by
  refine forRange_rel (fun i u v huv => ?_) size h
  simp only [activateElem, engineRead_fst, huv.peek]
  exact (huv.engineRead K .buf _).engineWrite K .buf _ _

theorem AgreeOnCore.writeResult {s t : State S} (h : AgreeOnCore s t) (K : ScalarOps S) (o : GemmOp)
    (out : Nat → Nat → S) : AgreeOnCore (Npu.writeResult K o out s) (Npu.writeResult K o out t) := by
  simp only [Npu.writeResult, h.cfg]
  exact forRange_rel (fun _ _ _ hrow => forRange_rel (fun _ _ _ hcell => hcell.engineWrite K .buf _ _) _ hrow) _ h

theorem AgreeOnCore.gemmTick {s t : State S} (h : AgreeOnCore s t) (K : ScalarOps S) (o : GemmOp) :
    AgreeOnCore (Npu.gemmTick K o s) (Npu.gemmTick K o t) := by
  have hfeeds := h.afterFeeds K o
  by_cases hlast : o.tick = o.total - 1
  · have hres : AgreeOnCore (afterResult K o s) (afterResult K o t) := by
      rw [afterResult, afterResult, hfeeds.pe]
      exact hfeeds.writeResult K o _
    rw [gemmTick_last K hlast, gemmTick_last K hlast]
    exact (hres.setOp none).advancePc
  · rw [gemmTick_notLast K hlast, gemmTick_notLast K hlast]
    exact hfeeds.setOp _

theorem AgreeOnCore.gemmEffect {s t : State S} (h : AgreeOnCore s t) (K : ScalarOps S) (addrA addrB addrC : Nat) :
    AgreeOnCore (Npu.gemmEffect K addrA addrB addrC s) (Npu.gemmEffect K addrA addrB addrC t) := by
  rw [gemmEffect_eq_tick, gemmEffect_eq_tick, h.cfg]
  exact (h.startGemm K addrA addrB addrC).gemmTick K _

theorem AgreeOnCore.instrEffect {s t : State S} (h : AgreeOnCore s t) (K : ScalarOps S) (i : Instr) :
    AgreeOnCore (Npu.instrEffect K i s) (Npu.instrEffect K i t) := by
  cases i with
  | load src dest size => exact (h.copyCells K .main .buf src dest size).advancePc
  | store src dest size => exact (h.copyCells K .buf .main src dest size).advancePc
  | gemm addrA addrB addrC => exact h.gemmEffect K addrA addrB addrC
  | activate fn addr size => exact (h.activateLoop K (act K fn) addr size).advancePc
  | wait => exact h.advancePc
  | _ => exact (h.emit _ _).advancePc

end Sys2Proof.Npu

namespace Sys2Proof.Machine

theorem sameCore_iff_agreeOnCore {s t : State} : SameCore s t ↔ Npu.AgreeOnCore s t := by
  constructor
  · intro h
    simp only [SameCore, eraseObservation, Npu.State.mk.injEq] at h
    obtain ⟨hcfg, hmain, hbuf, hpe, hprog, hstatus, hpc, hcycle, hop, -⟩ := h
    exact ⟨hcfg.symm, hpe.symm, hprog.symm, hstatus.symm, hpc.symm, hcycle.symm, hop.symm,
      fun | .main => hmain.symm | .buf => hbuf.symm⟩
  · intro h
    have hmain : t.main = s.main := h.cells .main
    have hbuf : t.buf = s.buf := h.cells .buf
    simp only [SameCore, eraseObservation, h.cfg, hmain, hbuf, h.pe, h.prog, h.status, h.pc, h.cycle, h.op]

/-! ## A step by its case, from the state before it -/

theorem step_of_terminal {s : State} (h : Npu.terminal s = true) : step s = .next (Npu.finish s) := by
  rw [step, if_pos h]

theorem step_of_tick {s : State} (h : Npu.terminal s = false) {o : GemmOp} (hop : s.op = some o) :
    step s = .next (Npu.endStep s (.tick o) (Npu.gemmTick Binary64.ops o (Npu.beginStep s))) := by
  simp only [step, h, hop, Bool.false_eq_true, if_false, closeStep]

theorem step_of_fetch {s : State} (h : Npu.terminal s = false) (hop : s.op = none) {i : Instr}
    (hi : s.prog[s.pc]? = some i) :
    step s = .next (Npu.endStep s (.instr i) (Npu.instrEffect Binary64.ops i (Npu.beginStep s))) := by
  simp only [step, h, hop, Npu.fetch, hi, Bool.false_eq_true, if_false, closeStep, exec_eq_effect]

/-- States that agree on what is read take the same case of the step and go on agreeing. -/
theorem step_keeps_agreement {s s' t : State} (h : Npu.AgreeOnCore s s') (hstep : step s = .next t) :
    ∃ t', step s' = .next t' ∧ Npu.AgreeOnCore t t' := by
  obtain ⟨hterm, rfl⟩ | ⟨hterm, o, hop, rfl⟩ | ⟨hterm, hop, i, hi, rfl⟩ := step_cases hstep <;>
    rw [← h.terminal] at hterm
  · exact ⟨_, step_of_terminal hterm, h.finish⟩
  · exact ⟨_, step_of_tick hterm (h.op.trans hop), (h.beginStep.gemmTick Binary64.ops o).endStep _⟩
  · exact ⟨_, step_of_fetch hterm (h.op.trans hop) (by rw [h.prog, h.pc]; exact hi),
      (h.beginStep.instrEffect Binary64.ops i).endStep _⟩

/-- `finish`, `beginStep` and the log entry each drop the diagnostics of before the step (60_exceptions R251). -/
theorem step_setDiags (s : State) (ds : List Diag) : step { s with diags := ds } = step s := rfl

/-- A host read is the state with the diagnostics of that read (42_scheduler R163). -/
theorem hostRead_snd (b : BankId) (addr : Nat) (s : State) :
    (Npu.hostRead Binary64.ops b addr s).2 = { s with diags := Npu.readDiag (Npu.cap b s) b addr } := by
  have hcap : Npu.cap b { s with diags := [] } = Npu.cap b s := Npu.cap_congr rfl b
  rw [Npu.hostRead, Npu.memRead, Npu.readDiag, hcap]
  split <;> rfl

/-- Settles O49, by the agreement that every step keeps, and by the diagnostics that every step drops. -/
theorem observationStateIsNeverRead : Obligations.ObservationStateIsNeverRead := by
  unfold Obligations.ObservationStateIsNeverRead
  refine ⟨fun s s' h => ?_, step_setDiags, fun s b addr => ?_, fun s => ⟨_, _, rfl, step_setDiags s []⟩⟩
  · have hstep := step_eq_effect s
    obtain ⟨t', hstep', hagree⟩ := step_keeps_agreement (sameCore_iff_agreeOnCore.mp h) hstep
    exact ⟨_, t', hstep, hstep', sameCore_iff_agreeOnCore.mpr hagree⟩
  · refine ⟨_, _, rfl, ?_⟩
    rw [hostRead_snd, step_setDiags]

end Sys2Proof.Machine
end

section
/-!
The banks (20_memory): what one MemRead and one MemWrite do on each side of the capacity, the host's bulkLoad as a loop
of MemWrites, and which step can change which bank.
-/

namespace Sys2Proof.Npu

variable {S : Type}

/-! ## One access, below the capacity and above it -/

theorem memRead_of_lt (K : ScalarOps S) {b : BankId} {a : Nat} {s : State S} (h : a < cap b s) :
    memRead K b a s = (Memory.read K.zero a (cells b s), s) := by
  rw [memRead, peek, if_pos h, if_pos h]

theorem memRead_of_ge (K : ScalarOps S) {b : BankId} {a : Nat} {s : State S} (h : cap b s ≤ a) :
    memRead K b a s = (K.zero, emit (.oobRead b a) s) :=
  if_neg (not_lt.mpr h)

/-- A read changes no cell (20_memory R52). -/
@[simp] theorem memRead_peek (K : ScalarOps S) (b b' : BankId) (a a' : Nat) (s : State S) :
    peek K b' a' (memRead K b a s).2 = peek K b' a' s :=
  peek_congr K (memRead_cfg K b a s) b' (memRead_cells K b b' a s) a'

variable [DecidableEq S]

theorem memWrite_of_ge (K : ScalarOps S) {b : BankId} {a : Nat} (v : S) {s : State S} (h : cap b s ≤ a) :
    memWrite K b a v s = emit (.oobWrite b a) s :=
  if_neg (not_lt.mpr h)

theorem memWrite_diags_of_lt (K : ScalarOps S) {b : BankId} {a : Nat} (v : S) {s : State S} (h : a < cap b s) :
    (memWrite K b a v s).diags = s.diags := by
  rw [memWrite_diags, writeDiag, if_pos h, List.append_nil]

/-- An out-of-bounds write changes no cell (20_memory R57). -/
theorem memWrite_peek_of_ge (K : ScalarOps S) {b : BankId} {a : Nat} (v : S) {s : State S} (h : cap b s ≤ a)
    (b' : BankId) (a' : Nat) : peek K b' a' (memWrite K b a v s) = peek K b' a' s := by
  rw [memWrite_peek, if_neg fun ⟨_, _, hlt⟩ => not_lt.mpr h hlt]

theorem engineWrite_peek_of_ge (K : ScalarOps S) {b : BankId} {a : Nat} (v : S) {s : State S} (h : cap b s ≤ a)
    (b' : BankId) (a' : Nat) : peek K b' a' (engineWrite K b a v s) = peek K b' a' s := by
  rw [engineWrite_peek, if_neg fun ⟨_, _, hlt⟩ => not_lt.mpr h hlt]

theorem memWrite_control (K : ScalarOps S) (b : BankId) (a : Nat) (v : S) (s : State S) :
    SameControl s (memWrite K b a v s) := by
  constructor <;> simp

/-! ## bulkLoad, a loop of MemWrites -/

/-- `n` MemWrites at consecutive addresses from `offset`, element `i` being `v i`. -/
def writeRange (K : ScalarOps S) (b : BankId) (offset : Nat) (v : Nat → S) (n : Nat) (s : State S) : State S :=
  forRange n (fun i => memWrite K b (offset + i) (v i)) s

theorem bulkLoad_eq_writeRange (K : ScalarOps S) (b : BankId) (offset : Nat) (values : List S) (s : State S) :
    bulkLoad K b offset values s =
      writeRange K b offset (fun i => values.getD i K.zero) values.length { s with diags := [] } :=
  rfl

theorem writeRange_succ (K : ScalarOps S) (b : BankId) (offset : Nat) (v : Nat → S) (n : Nat) (s : State S) :
    writeRange K b offset v (n + 1) s = memWrite K b (offset + n) (v n) (writeRange K b offset v n s) :=
  rfl

theorem writeRange_control (K : ScalarOps S) (b : BankId) (offset : Nat) (v : Nat → S) (n : Nat) (s : State S) :
    SameControl s (writeRange K b offset v n s) :=
  forRange_control (fun i u => memWrite_control K b (offset + i) (v i) u) n s

theorem writeRange_readSet (K : ScalarOps S) (b b' : BankId) (offset : Nat) (v : Nat → S) (n : Nat) (s : State S) :
    readSet b' (writeRange K b offset v n s) = readSet b' s :=
  forRange_frame (readSet b') (fun i u => by cases b' <;> simp [readSet]) n s

theorem writeRange_writeSet (K : ScalarOps S) (b b' : BankId) (offset : Nat) (v : Nat → S) (n : Nat) (s : State S) :
    writeSet b' (writeRange K b offset v n s) = writeSet b' s :=
  forRange_frame (writeSet b') (fun i u => by cases b' <;> simp [writeSet]) n s

/-- A read of either bank after the loop: each element is in its cell where that cell exists, whatever became of the
others (20_memory R54). -/
theorem writeRange_peek (K : ScalarOps S) (b : BankId) (offset : Nat) (v : Nat → S) (n : Nat) (s : State S)
    (b' : BankId) (a : Nat) :
    peek K b' a (writeRange K b offset v n s) =
      if b' = b ∧ offset ≤ a ∧ a < offset + n ∧ a < cap b s then v (a - offset) else peek K b' a s := by
  induction n with
  | zero =>
    rw [if_neg (by omega)]
    rfl
  | succ n ih =>
    rw [writeRange_succ, memWrite_peek, (writeRange_control K b offset v n s).cap, ih]
    by_cases ha : a = offset + n
    · subst ha
      simp
    · have hrange : a < offset + (n + 1) ∧ a < cap b s ↔ a < offset + n ∧ a < cap b s := by omega
      simp only [ha, hrange, false_and, and_false, if_false]

theorem writeRange_diags (K : ScalarOps S) (b : BankId) (offset : Nat) (v : Nat → S) (n : Nat) (s : State S) :
    (writeRange K b offset v n s).diags =
      s.diags ++ (List.range n).flatMap (fun i => writeDiag (cap b s) b (offset + i)) := by
  induction n with
  | zero => simp [writeRange]
  | succ n ih =>
    simp [writeRange_succ, ih, (writeRange_control K b offset v n s).cap, List.range_succ]

/-! ## The banks in one cycle -/

omit [DecidableEq S] in
theorem afterFeeds_cells (K : ScalarOps S) (o : GemmOp) (b : BankId) (s : State S) :
    cells b (afterFeeds K o s) = cells b s :=
  readFeeds_cells K o b s

/-- No GEMM tick writes main memory (44_gemm R206). -/
theorem gemmTick_main (K : ScalarOps S) (o : GemmOp) (s : State S) : (gemmTick K o s).main = s.main := by
  have hfeeds : (afterFeeds K o s).main = s.main := afterFeeds_cells K o .main s
  by_cases hlast : o.tick = o.total - 1
  · rw [gemmTick_last K hlast]
    exact (writeResult_main K o _ _).trans hfeeds
  · rw [gemmTick_notLast K hlast]
    exact hfeeds

/-- Only the last tick of a GEMM writes the buffer (44_gemm R196, R197). -/
theorem gemmTick_buf_notLast (K : ScalarOps S) {o : GemmOp} (h : o.tick ≠ o.total - 1) (s : State S) :
    (gemmTick K o s).buf = s.buf := by
  rw [gemmTick_notLast K h]
  exact afterFeeds_cells K o .buf s

/-- Tick 0 of a GEMM is its last one only on a 1×1 array (44_gemm R191). -/
theorem gemmOpOf_last_iff {N : Nat} (hN : 0 < N) (addrA addrB addrC : Nat) :
    (gemmOpOf N addrA addrB addrC).tick = (gemmOpOf N addrA addrB addrC).total - 1 ↔ N = 1 := by
  simp only [gemmOpOf, gemmTicks]
  omega

/-- Of the instructions, only STORE changes main memory (20_memory R64). -/
theorem store_of_instrEffect_main_ne (K : ScalarOps S) {i : Instr} {s : State S}
    (h : (instrEffect K i s).main ≠ s.main) : ∃ src dest size, i = .store src dest size := by
  cases i with
  | store src dest size => exact ⟨src, dest, size, rfl⟩
  | load src dest size => exact absurd (copyCells_cells_other K (b := .main) (by decide) src dest size s) h
  | gemm addrA addrB addrC => exact absurd (gemmTick_main K _ (startGemm K addrA addrB addrC s)) h
  | activate fn addr size => exact absurd (activateLoop_main K (act K fn) addr size s) h
  | _ => exact absurd rfl h

/-- In their fetch cycle, only LOAD, ACTIVATE and a GEMM of a single tick change the buffer (20_memory R64). -/
theorem bufWriter_of_instrEffect_buf_ne (K : ScalarOps S) {i : Instr} {s : State S}
    (h : (instrEffect K i s).buf ≠ s.buf) :
    (∃ src dest size, i = .load src dest size) ∨ (∃ fn addr size, i = .activate fn addr size) ∨
      (∃ addrA addrB addrC, i = .gemm addrA addrB addrC ∧ s.cfg.N = 1) := by
  cases i with
  | load src dest size => exact .inl ⟨src, dest, size, rfl⟩
  | activate fn addr size => exact .inr (.inl ⟨fn, addr, size, rfl⟩)
  | gemm addrA addrB addrC =>
    refine .inr (.inr ⟨addrA, addrB, addrC, rfl, ?_⟩)
    by_contra hN
    have hnotLast := mt (gemmOpOf_last_iff s.cfg.N_pos addrA addrB addrC).mp hN
    exact h (gemmTick_buf_notLast K hnotLast (startGemm K addrA addrB addrC s))
  | store src dest size => exact absurd (copyCells_cells_other K (b := .buf) (by decide) src dest size s) h
  | _ => exact absurd rfl h

end Sys2Proof.Npu

namespace Sys2Proof.Machine

/-! ## The obligations -/

/-- Settles O8, by the two sides of the capacity. -/
theorem memReadReturnsCellOrZero : Obligations.MemReadReturnsCellOrZero := by
  unfold Obligations.MemReadReturnsCellOrZero
  exact fun _ _ _ => ⟨Npu.memRead_of_lt Binary64.ops, Npu.memRead_of_ge Binary64.ops⟩

/-- Settles O9, by the two sides of the capacity. -/
theorem memWriteWritesOneCellOrNone : Obligations.MemWriteWritesOneCellOrNone := by
  unfold Obligations.MemWriteWritesOneCellOrNone
  refine fun b addr v s => ⟨fun hlt => ⟨fun b' a => ?_, ?_⟩, Npu.memWrite_of_ge Binary64.ops v⟩
  · simp only [Npu.memWrite_peek, hlt, and_true]
  · exact Npu.memWrite_diags_of_lt Binary64.ops v hlt

/-- Settles O10: no read changes a cell, and an out-of-bounds write only emits its diagnostic. -/
theorem outOfBoundsAccessChangesNoCell : Obligations.OutOfBoundsAccessChangesNoCell := by
  unfold Obligations.OutOfBoundsAccessChangesNoCell
  intro b addr v s hge b' a _
  exact ⟨Npu.memRead_peek _ b b' addr a s, Npu.memWrite_peek_of_ge _ v hge b' a,
    Npu.engineRead_peek _ b b' addr a s, Npu.engineWrite_peek_of_ge _ v hge b' a⟩

/-- Settles O11, by what the loop of MemWrites leaves in the cells, emits and does not touch. -/
theorem bulkLoadWritesEachElement : Obligations.BulkLoadWritesEachElement := by
  unfold Obligations.BulkLoadWritesEachElement
  intro b offset values s
  refine ⟨Npu.bulkLoad Binary64.ops b offset values s, rfl, ?_⟩
  rw [Npu.bulkLoad_eq_writeRange]
  have hctl := Npu.writeRange_control Binary64.ops b offset (fun i => values.getD i 0#64) values.length
    { s with diags := [] }
  exact ⟨Npu.writeRange_peek Binary64.ops b offset _ _ _, Npu.writeRange_diags Binary64.ops b offset ..,
    ⟨hctl.cfg, hctl.pe, hctl.prog, hctl.status, hctl.cycle, hctl.op, hctl.log⟩, hctl.pc,
    Npu.writeRange_readSet _ b .main .., Npu.writeRange_writeSet _ b .main ..,
    Npu.writeRange_readSet _ b .buf .., Npu.writeRange_writeSet _ b .buf ..⟩

/-- Settles O53, by the three things a step can do: a terminal step changes no bank, a GEMM tick the buffer at most and
on its last tick only, and a fetched instruction what its opcode says. -/
theorem banksChangeOnlyByTheirInstructions : Obligations.BanksChangeOnlyByTheirInstructions := by
  unfold Obligations.BanksChangeOnlyByTheirInstructions
  intro s
  have hstep := step_eq_effect s
  refine ⟨_, hstep, ?_⟩
  obtain ⟨-, ht⟩ | ⟨-, o, hop, ht⟩ | ⟨-, hop, i, hi, ht⟩ := step_cases hstep <;> rw [ht]
  · exact ⟨fun h => absurd rfl h, fun h => absurd rfl h⟩
  · refine ⟨fun h => absurd (Npu.gemmTick_main Binary64.ops o (Npu.beginStep s)) h, fun h => .inl ⟨o, hop, ?_⟩⟩
    by_contra hnotLast
    exact h (Npu.gemmTick_buf_notLast Binary64.ops hnotLast (Npu.beginStep s))
  · rw [hi]
    refine ⟨fun h => ⟨hop, ?_⟩, fun h => .inr ⟨hop, ?_⟩⟩
    · simpa using Npu.store_of_instrEffect_main_ne Binary64.ops (s := Npu.beginStep s) h
    · simpa using Npu.bufWriter_of_instrEffect_buf_ne Binary64.ops (s := Npu.beginStep s) h

end Sys2Proof.Machine
end

section
/-!
The binary form (30_encoding). Two facts carry it: Decode reads nothing but the significant bits of a word (R84, R86),
and the encoder puts those bits, and no others, back into the word (R96).
-/

namespace Sys2Proof

/-! ## The layout of a word -/

theorem toNat_append_eq_add {m n : Nat} (v : BitVec m) (u : BitVec n) :
    (v ++ u).toNat = v.toNat * 2 ^ n + u.toNat := by
  rw [BitVec.toNat_append, ← Nat.shiftLeft_add_eq_or_of_lt u.isLt, Nat.shiftLeft_eq]

/-- The layout of R82: the fields of a word made of six fields, most significant first. -/
theorem fields_of_append {w : Word} {opc fn : BitVec 4} {rsv : BitVec 8} {x y z : BitVec 16}
    (hw : w = opc ++ fn ++ rsv ++ x ++ y ++ z) :
    opcField w = opc ∧ fnField w = fn ∧ zext16 (xField w) = x.toNat ∧ zext16 (yField w) = y.toNat ∧
      zext16 (zField w) = z.toNat := by
  have hval : w.toNat = ((((opc.toNat * 2 ^ 4 + fn.toNat) * 2 ^ 8 + rsv.toNat) * 2 ^ 16 + x.toNat) * 2 ^ 16 +
      y.toNat) * 2 ^ 16 + z.toNat := by
    subst hw
    simp only [← toNat_append_eq_add]
  refine ⟨BitVec.eq_of_toNat_eq ?_, BitVec.eq_of_toNat_eq ?_, ?_, ?_, ?_⟩
  · rw [opcField_toNat]; omega
  · rw [fnField_toNat]; omega
  · rw [xField_toNat]; omega
  · rw [yField_toNat]; omega
  · rw [zField_toNat]; omega

/-! ## The significant bits of a word -/

/-- RSV, bits [55:48], which no instruction reads. -/
def rsvField (w : Word) : BitVec 8 := w.extractLsb' 48 8

theorem rsvField_toNat (w : Word) : (rsvField w).toNat = w.toNat / 0x1000000000000 % 256 := by
  simp only [rsvField, BitVec.extractLsb'_toNat, Nat.shiftRight_eq_div_pow, Nat.reducePow]

/-- The bits of a word that its opcode does not ignore; the others are 0. -/
def significant (w : Word) : Word := w &&& ~~~ (ignoredBits (opcField w))

theorem significant_eq_self {w : Word} (h : w &&& ignoredBits (opcField w) = 0#64) : significant w = w := by
  calc significant w
    _ = (w &&& ~~~ ignoredBits (opcField w)) ||| (w &&& ignoredBits (opcField w)) := by
      rw [h, BitVec.or_zero, significant]
    _ = w := by grind

theorem fields_and (w v : Word) :
    opcField (w &&& v) = opcField w &&& opcField v ∧ fnField (w &&& v) = fnField w &&& fnField v ∧
    rsvField (w &&& v) = rsvField w &&& rsvField v ∧ xField (w &&& v) = xField w &&& xField v ∧
    yField (w &&& v) = yField w &&& yField v ∧ zField (w &&& v) = zField w &&& zField v :=
  ⟨BitVec.extractLsb'_and, BitVec.extractLsb'_and, BitVec.extractLsb'_and, BitVec.extractLsb'_and,
    BitVec.extractLsb'_and, BitVec.extractLsb'_and⟩

/-- The columns of R84, read off the mask: which fields an opcode reads. -/
theorem not_ignoredBits_fields (o : BitVec 4) :
    opcField (~~~ ignoredBits o) = .allOnes 4 ∧
    fnField (~~~ ignoredBits o) = (if o.toNat = 4 then .allOnes 4 else 0#4) ∧
    rsvField (~~~ ignoredBits o) = 0#8 ∧
    xField (~~~ ignoredBits o) = (if o.toNat ∈ [1, 2, 3, 4] then .allOnes 16 else 0#16) ∧
    yField (~~~ ignoredBits o) = (if o.toNat ∈ [1, 2, 3] then .allOnes 16 else 0#16) ∧
    zField (~~~ ignoredBits o) = (if o.toNat ∈ [1, 2, 3, 4] then .allOnes 16 else 0#16) := by
  revert o
  decide

theorem and_ite_allOnes {n : Nat} (c : Prop) [Decidable c] (v : BitVec n) :
    v &&& (if c then .allOnes n else 0#n) = if c then v else 0#n := by
  split
  · exact BitVec.and_allOnes
  · exact BitVec.and_zero

/-- The significant bits of a word are its opcode and the fields that its opcode reads. -/
theorem significant_fields (w : Word) :
    opcField (significant w) = opcField w ∧
    fnField (significant w) = (if (opcField w).toNat = 4 then fnField w else 0#4) ∧
    rsvField (significant w) = 0#8 ∧
    xField (significant w) = (if (opcField w).toNat ∈ [1, 2, 3, 4] then xField w else 0#16) ∧
    yField (significant w) = (if (opcField w).toNat ∈ [1, 2, 3] then yField w else 0#16) ∧
    zField (significant w) = (if (opcField w).toNat ∈ [1, 2, 3, 4] then zField w else 0#16) := by
  obtain ⟨hopc, hfn, hrsv, hx, hy, hz⟩ := not_ignoredBits_fields (opcField w)
  obtain ⟨aopc, afn, arsv, ax, ay, az⟩ := fields_and w (~~~ ignoredBits (opcField w))
  simp only [significant, aopc, afn, arsv, ax, ay, az, hopc, hfn, hrsv, hx, hy, hz, and_ite_allOnes,
    BitVec.and_allOnes, BitVec.and_zero, and_self]

theorem significant_and_ignoredBits (w : Word) :
    significant w &&& ignoredBits (opcField (significant w)) = 0#64 := by
  rw [(significant_fields w).1, significant, BitVec.and_assoc, BitVec.not_and_self]
  exact BitVec.and_zero

/-! ## Decode, said once -/

/-- The instructions that read no field but the opcode. -/
def operandless : List Instr := .wait :: Machine.reservedOpcodes.map Prod.fst

/-- Every word is an instruction without operands, or a LOAD, a STORE, a GEMM or an ACTIVATE of its fields (R95). -/
theorem decode_cases (w : Word) :
    (decode w ∈ operandless ∧ (decode w).opc = (opcField w).toNat) ∨
    ((opcField w).toNat = 1 ∧ decode w = .load (zext16 (xField w)) (zext16 (yField w)) (zext16 (zField w))) ∨
    ((opcField w).toNat = 2 ∧ decode w = .store (zext16 (xField w)) (zext16 (yField w)) (zext16 (zField w))) ∨
    ((opcField w).toNat = 3 ∧ decode w = .gemm (zext16 (xField w)) (zext16 (yField w)) (zext16 (zField w))) ∨
    ((opcField w).toNat = 4 ∧ decode w = .activate (fnOf (fnField w)) (zext16 (xField w)) (zext16 (zField w))) := by
  have hlt := (opcField w).isLt
  unfold decode
  split
  -- `unknownF` is the last branch of Decode, and 15 the one opcode value that the others leave
  case h_16 => exact .inl ⟨by decide, by grind [Instr.opc]⟩
  all_goals next h => simp [h, operandless, Machine.reservedOpcodes, Instr.opc]

theorem operandless_wf_encodeWord : ∀ i ∈ operandless,
    i.wf = true ∧ encodeWord i = packWord i.opc 0 0 0 0 ∧ i.opc ∉ [1, 2, 3, 4] := by decide

theorem zext16_lt (v : BitVec 16) : zext16 v < 65536 := v.isLt

/-- A 16-bit field fits (R87). -/
@[simp] theorem fieldFits_zext16 (v : BitVec 16) : fieldFits (zext16 v) = true := decide_eq_true (zext16_lt v)

/-- The function codes of R85. -/
theorem fnOf_wf_code (f : BitVec 4) : (fnOf f).wf = true ∧ (fnOf f).code = f.toNat := by
  revert f
  decide

/-- Every word decodes to a well-formed instruction of its opcode (R87, R95). -/
theorem decode_wf_opc (w : Word) : (decode w).wf = true ∧ (decode w).opc = (opcField w).toNat := by
  obtain ⟨hmem, hopc⟩ | ⟨hopc, hdec⟩ | ⟨hopc, hdec⟩ | ⟨hopc, hdec⟩ | ⟨hopc, hdec⟩ := decode_cases w
  · exact ⟨(operandless_wf_encodeWord _ hmem).1, hopc⟩
  all_goals simp [hdec, hopc, Instr.wf, Instr.opc, (fnOf_wf_code _).1]

/-- Decode reads the significant bits only (R86). -/
theorem decode_significant (w : Word) : decode (significant w) = decode w := by
  obtain ⟨hopc, hfn, -, hx, hy, hz⟩ := significant_fields w
  simp only [decode, hopc, hfn, hx, hy, hz]
  split <;> simp [*]

/-! ## Encode -/

/-- A word with RSV = 0 is packed from its fields (R82). -/
theorem packWord_of_fields {w : Word} (h : rsvField w = 0#8) :
    packWord (opcField w).toNat (fnField w).toNat (zext16 (xField w)) (zext16 (yField w)) (zext16 (zField w)) = w := by
  have hrsv : w.toNat / 0x1000000000000 % 256 = 0 := by rw [← rsvField_toNat, h]; rfl
  apply BitVec.eq_of_toNat_eq
  rw [packWord_toNat (opcField w).isLt (fnField w).isLt (zext16_lt _) (zext16_lt _) (zext16_lt _),
    opcField_toNat, fnField_toNat, xField_toNat, yField_toNat, zField_toNat]
  omega

/-- The word of a decoded instruction is the significant part of the word it came from (R96). -/
theorem encodeWord_decode (w : Word) : encodeWord (decode w) = significant w := by
  obtain ⟨sopc, sfn, srsv, sx, sy, sz⟩ := significant_fields w
  rw [← packWord_of_fields srsv, sopc, sfn, sx, sy, sz]
  obtain ⟨hmem, hopc⟩ | ⟨hopc, hdec⟩ | ⟨hopc, hdec⟩ | ⟨hopc, hdec⟩ | ⟨hopc, hdec⟩ := decode_cases w
  · obtain ⟨-, henc, hnot⟩ := operandless_wf_encodeWord _ hmem
    rw [hopc] at henc hnot
    simp only [List.mem_cons, not_or] at hnot
    simp [henc, hnot, zext16]
  all_goals simp [hdec, hopc, encodeWord, Instr.opc, (fnOf_wf_code _).2, zext16]

/-- The function of a well-formed one's code is itself (R85). -/
theorem fnOf_of_code {fn : ActFn} (h : fn.wf = true) {f : BitVec 4} (hf : f.toNat = fn.code) : fnOf f = fn := by
  cases fn with
  | other code =>
    simp only [ActFn.wf, Bool.and_eq_true, decide_eq_true_eq] at h
    rw [ActFn.code] at hf
    unfold fnOf
    split
    case h_4 => rw [hf]
    all_goals omega
  | _ => simp only [fnOf, hf, ActFn.code]

/-- Every well-formed instruction is decoded back from its word (R96). -/
theorem decode_encodeWord {i : Instr} (h : i.wf = true) : decode (encodeWord i) = i := by
  cases i with
  | load a b c | store a b c | gemm a b c =>
    simp only [Instr.wf, Bool.and_eq_true, fieldFits, decide_eq_true_eq] at h
    obtain ⟨⟨ha, hb⟩, hc⟩ := h
    have hfields (opc : Nat) (ho : opc < 16) := packWord_fields (fn := 0) ho (by decide) ha hb hc
    simp [encodeWord, decode, Instr.opc, hfields]
  | activate fn addr size =>
    simp only [Instr.wf, Bool.and_eq_true, fieldFits, decide_eq_true_eq] at h
    obtain ⟨⟨hwf, haddr⟩, hsize⟩ := h
    obtain ⟨hopc, hfn, hx, -, hz⟩ := packWord_fields (opc := 4) (by decide) (Laws.EncodeOpcode.code_lt hwf) haddr
      (y := 0) (by decide) hsize
    simp only [encodeWord, decode, Instr.opc, hopc, hx, hz, fnOf_of_code hwf hfn]
  | unknownAbove beyond => exact absurd h Bool.false_ne_true
  | _ => rfl

/-- The encoder sets the opcode of R83 and no ignored bit (R96). -/
theorem encodeWord_opc_ignoredBits {i : Instr} (h : i.wf = true) :
    (opcField (encodeWord i)).toNat = i.opc ∧ encodeWord i &&& ignoredBits (opcField (encodeWord i)) = 0#64 := by
  have hdec := decode_encodeWord h
  have hopc := (decode_wf_opc (encodeWord i)).2
  have hsig := encodeWord_decode (encodeWord i)
  rw [hdec] at hopc hsig
  exact ⟨hopc.symm, hsig ▸ significant_and_ignoredBits (encodeWord i)⟩

theorem encode_of_wf {i : Instr} (h : i.wf = true) : encode i = some (encodeWord i) := if_pos h

theorem encode_eq_some {i : Instr} {w : Word} (h : encode i = some w) : i.wf = true ∧ encodeWord i = w := by
  simpa [encode] using h

/-! ## The obligations about words -/

/-- Settles O4: Encode after Decode is the significant part of the word, which is the word when its ignored bits are
0. -/
theorem decodeEncodeInverse : Obligations.DecodeEncodeInverse := by
  unfold Obligations.DecodeEncodeInverse
  refine ⟨fun i hwf => ⟨encodeWord i, encode_of_wf hwf, decode_encodeWord hwf, encodeWord_opc_ignoredBits hwf⟩,
    fun w hw => ?_, fun i hwf => ?_⟩
  · rw [encode_of_wf (decode_wf_opc w).1, encodeWord_decode, significant_eq_self hw]
  · rw [encode, hwf, if_neg Bool.false_ne_true]

/-- Settles O3: both words have the same significant part, and Decode reads no more than that. -/
theorem ignoredBitsDoNotChangeDecode : Obligations.IgnoredBitsDoNotChangeDecode := by
  unfold Obligations.IgnoredBitsDoNotChangeDecode
  refine ⟨fun w v hopc hagree => ?_, fun i w henc => ?_⟩
  · have hsig : significant w = significant v := by rw [significant, hagree, hopc, significant]
    rw [← decode_significant w, hsig, decode_significant]
  · obtain ⟨hwf, rfl⟩ := encode_eq_some henc
    exact (encodeWord_opc_ignoredBits hwf).2

/-- Settles O5, by the branches of Decode. -/
theorem decodedInstructionsAreWellFormed : Obligations.DecodedInstructionsAreWellFormed := by
  unfold Obligations.DecodedInstructionsAreWellFormed
  exact fun w => (decode_wf_opc w).1

/-- Settles O2, by the layout. -/
theorem decodeFollowsFieldLayout : Obligations.DecodeFollowsFieldLayout := by
  unfold Obligations.DecodeFollowsFieldLayout
  intro opc fn rsv x y z w
  obtain ⟨hopc, hfn, hx, hy, hz⟩ := fields_of_append (w := w) rfl
  have hother : 3 ≤ fn.toNat → fnOf fn = .other fn.toNat := fun h =>
    fnOf_of_code (by simp [ActFn.wf]; omega) rfl
  simp only [decode, hopc, hfn, hx, hy, hz]
  refine ⟨?_, ?_, ?_, ?relu, ?sigmoid, ?tanh, ?other, ?_, ?_, ?_, ?_, ?_, ?_, ?_, ?_, ?_, ?_, ?_, ?_⟩
  case relu | sigmoid | tanh => rintro rfl rfl; rfl
  case other => rintro rfl hcode; simp [hother hcode]
  all_goals rintro rfl; rfl

/-- Settles O1, by evaluating Decode on each word. -/
theorem sampleWordsDecode : Obligations.SampleWordsDecode := by
  unfold Obligations.SampleWordsDecode
  decide

end Sys2Proof
end

section
/-!
What the scheduler makes of decoded words: UNKNOWN(opc) for every opcode that is not one of R80 (46_control R241), and
a program in its binary form (30_encoding R97).
-/

namespace Sys2Proof.Machine

/-! ## UNKNOWN -/

/-- Every opcode that is not one of R80 has an UNKNOWN with its value (R81). -/
theorem unknown_of_opc {opc : Nat} (h : ¬ (1 ≤ opc ∧ opc ≤ 5)) :
    ∃ i, Instr.unknown opc = some i ∧ i.opc = opc ∧ tagOf i = .error := by
  unfold Instr.unknown
  split
  case h_17 beyond => exact ⟨_, rfl, Nat.add_comm 0x10 beyond, rfl⟩
  case h_2 | h_3 | h_4 | h_5 | h_6 => exact absurd (by decide) h
  all_goals exact ⟨_, rfl, rfl, rfl⟩

/-- The instructions logged as ERROR are the UNKNOWNs (46_control R241). -/
theorem exec_of_error {i : Instr} (h : tagOf i = .error) (s : State) :
    exec i s = .next { s with pc := s.pc + 1, diags := s.diags ++ [.unknownOpcode s.pc i.opc] } := by
  cases i with
  | load | store | gemm | activate | wait => cases h
  | _ => rfl

/-! ## Loaded words -/

/-- A step with an instruction at its pc is not terminal (R97, 42_scheduler R140). -/
theorem not_terminal_of_fetch {s : State} (hstatus : s.status ≠ .finished) {i : Instr} (hi : s.prog[s.pc]? = some i) :
    Npu.terminal s = false := by
  obtain ⟨hpc, -⟩ := List.getElem?_eq_some_iff.1 hi
  simp [Npu.terminal, hstatus, hpc]

theorem loadWords_of_fits {ws : List Word} {s : State} (h : Npu.programFits s.cfg (ws.map decode) = true) :
    loadWords ws s = .next (Npu.installProgram Binary64.ops (ws.map decode) s) :=
  if_pos h

/-! ## The obligations -/

/-- Settles O16: the tag ERROR says which instructions report, and their opcode value what they report. -/
theorem unknownOpcodeReportsAndAdvances : Obligations.UnknownOpcodeReportsAndAdvances := by
  unfold Obligations.UnknownOpcodeReportsAndAdvances
  have hreserved : ∀ p ∈ reservedOpcodes, tagOf p.1 = .error ∧ p.1.opc = p.2 := by decide
  refine fun s => ⟨fun p hp => ?_, fun beyond => exec_of_error rfl s, fun opc hopc => ?_⟩
  · obtain ⟨htag, hopc⟩ := hreserved p hp
    rw [exec_of_error htag, hopc]
  · obtain ⟨i, hi, rfl, htag⟩ := unknown_of_opc hopc
    exact ⟨i, hi, rfl, htag, exec_of_error htag s⟩

/-- Settles O40: the state after the load begins its first step with the fetch of slot 0. -/
theorem loadedWordsAreDecoded : Obligations.LoadedWordsAreDecoded := by
  unfold Obligations.LoadedWordsAreDecoded
  intro ws w s hfits hw
  have hslot : (ws.map decode)[0]? = some (decode w) := by rw [List.getElem?_map, hw]; rfl
  have hterm := not_terminal_of_fetch (s := Npu.installProgram Binary64.ops (ws.map decode) s) nofun hslot
  exact ⟨_, loadWords_of_fits hfits, fun k => List.getElem?_map .., _, exec_eq_effect ..,
    step_of_fetch hterm rfl hslot⟩

end Sys2Proof.Machine
end

section
/-!
The assembler (30_encoding R92, R94). A call line is a name and arguments of letters and digits between separators, so
the assembler gets back the name and the arguments that the line was written from; a decimal argument is the number it
is the text of.
-/

namespace Sys2Proof.Asm

open Sys2Proof.Machine

/-! ## Words of letters and digits -/

/-- A text of letters and digits only, such as a mnemonic, a function name or a number. -/
def Alphanumeric (cs : List Char) : Prop := ∀ c ∈ cs, c.isAlphanum = true

theorem Alphanumeric.not_mem {cs : List Char} (h : Alphanumeric cs) {c : Char} (hc : c.isAlphanum = false) : c ∉ cs :=
  fun hmem => absurd (h c hmem) (by simp [hc])

theorem isBlank_eq_false {c : Char} (h : c.isAlphanum = true) : isBlank c = false := by
  by_contra hblank
  simp only [isBlank, Bool.not_eq_false, Bool.or_eq_true, decide_eq_true_eq] at hblank
  obtain (rfl | rfl) | rfl := hblank <;> exact absurd h (by decide)

/-! ## The layout of a line -/

/-- Nothing is removed from a text that neither begins nor ends with a blank. -/
theorem trim_eq_self {cs : List Char} (hfirst : ∀ c ∈ cs.head?, isBlank c = false)
    (hlast : ∀ c ∈ cs.getLast?, isBlank c = false) : trim cs = cs := by
  have hdrop {l : List Char} (h : ∀ c ∈ l.head?, isBlank c = false) : l.dropWhile isBlank = l := by
    cases l with
    | nil => rfl
    | cons c cs => exact List.dropWhile_cons_of_neg (by simp [h c rfl])
  rw [trim, hdrop hfirst, hdrop (by simpa using hlast), List.reverse_reverse]

theorem trim_alphanumeric {cs : List Char} (h : Alphanumeric cs) : trim cs = cs :=
  trim_eq_self (fun c hc => isBlank_eq_false (h c (List.mem_of_mem_head? hc)))
    fun c hc => isBlank_eq_false (h c (List.mem_of_mem_getLast? hc))

theorem trim_space_cons (cs : List Char) : trim (' ' :: cs) = trim cs := rfl

theorem splitCommas_eq_splitOn (cs : List Char) : splitCommas cs = cs.splitOn ',' := by
  induction cs with
  | nil => rfl
  | cons c cs ih =>
    rw [List.splitOn_cons_eq_if_modifyHead]
    by_cases hc : c = ','
    · subst hc
      simp [splitCommas, ih]
    · simp only [splitCommas, hc, ih, beq_iff_eq, if_false]
      cases h : cs.splitOn ',' with
      | nil => exact absurd h (List.splitOn_ne_nil ',' cs)
      | cons a rest => rfl

/-- Separating by a comma and a space is separating by a comma and putting the space before the next argument. -/
theorem intercalate_comma_space (a : List Char) (args : List (List Char)) :
    List.intercalate [',', ' '] (a :: args) = List.intercalate [','] (a :: args.map (' ' :: ·)) := by
  induction args generalizing a with
  | nil => rfl
  | cons b args ih =>
    rw [List.map_cons, List.intercalate_cons_cons, List.intercalate_cons_cons, ← ih, List.intercalate_cons_cons_left]
    simp

/-- The arguments between the parentheses are the ones that were written there. -/
theorem splitCommas_intercalate {a : List Char} {args : List (List Char)} (h : ∀ b ∈ a :: args, Alphanumeric b) :
    (splitCommas (List.intercalate [',', ' '] (a :: args))).map trim = a :: args := by
  have hcomma : ∀ l ∈ a :: args.map (' ' :: ·), ',' ∉ l := by
    simp only [List.mem_cons, List.mem_map]
    rintro l (rfl | ⟨b, hb, rfl⟩)
    · exact (h l (.head _)).not_mem rfl
    · exact List.not_mem_cons_of_ne_of_not_mem (by decide) ((h b (.tail _ hb)).not_mem rfl)
  rw [splitCommas_eq_splitOn, intercalate_comma_space, List.splitOn_intercalate ',' hcomma nofun, List.map_cons,
    List.map_map, trim_alphanumeric (h a (.head _))]
  have htrim : ∀ b ∈ args, (trim ∘ (' ' :: ·)) b = b := fun b hb =>
    (trim_space_cons b).trans (trim_alphanumeric (h b (.tail _ hb)))
  rw [List.map_congr_left htrim, List.map_id']

theorem not_mem_intercalate {c : Char} {sep : List Char} (hsep : c ∉ sep) {args : List (List Char)}
    (h : ∀ a ∈ args, c ∉ a) : c ∉ List.intercalate sep args := by
  induction args with
  | nil => exact List.not_mem_nil
  | cons a args ih =>
    obtain ⟨ha, hargs⟩ := List.forall_mem_cons.1 h
    cases args with
    | nil => simpa using ha
    | cons b args => simpa [ha, hsep] using ih hargs

/-! ## A call line -/

theorem callText_eq (name : List Char) (args : List (List Char)) :
    callText name args = name ++ '(' :: (List.intercalate [',', ' '] args ++ [')']) := by
  simp [callText]

theorem parseCall_of_not_mem {name : List Char} (h : '(' ∉ name) (body : List Char) :
    parseCall (name ++ '(' :: (body ++ [')'])) = some (name, (splitCommas body).map trim) := by
  have hname : ∀ c ∈ name, decide (c ≠ '(') = true := fun c hc => decide_eq_true fun heq => h (heq ▸ hc)
  simp only [parseCall, List.takeWhile_append_of_pos hname, List.dropWhile_append_of_pos hname]
  simp

theorem stripComment_callText {name : List Char} (hname : Alphanumeric name) {args : List (List Char)}
    (hargs : ∀ a ∈ args, Alphanumeric a) : stripComment (callText name args) = callText name args := by
  have hnot : '#' ∉ callText name args := by
    have hargs' := not_mem_intercalate (sep := [',', ' ']) (by decide) fun a ha => (hargs a ha).not_mem (c := '#') rfl
    simp [callText_eq, hname.not_mem (c := '#') rfl, hargs']
  exact List.takeWhile_eq_self_iff.2 fun c hc => decide_eq_true fun heq => hnot (heq ▸ hc)

/-- A call line is assembled from its name and its arguments. -/
theorem assembleLine_callText {c : Char} {cs : List Char} (hname : Alphanumeric (c :: cs)) {a : List Char}
    {args : List (List Char)} (hargs : ∀ b ∈ a :: args, Alphanumeric b) :
    assembleLine (callText (c :: cs) (a :: args)) = assembleCall (c :: cs) (a :: args) := by
  have hc := hname c (.head _)
  have htrim : trim (callText (c :: cs) (a :: args)) = callText (c :: cs) (a :: args) :=
    trim_eq_self (by simpa [callText] using isBlank_eq_false hc) fun d hd => by
      obtain rfl : ')' = d := by simpa only [callText, List.getLast?_concat, Option.mem_some_iff] using hd
      rfl
  have hwait : callText (c :: cs) (a :: args) ≠ ['W', 'A', 'I', 'T'] := fun h =>
    absurd (h ▸ by simp [callText] : '(' ∈ ['W', 'A', 'I', 'T']) (by decide)
  simp only [assembleLine, stripComment_callText hname hargs, htrim, hwait, if_false]
  rw [if_neg nofun]
  split
  next heq =>
    obtain rfl : c = '.' := (List.cons.inj heq).1
    exact absurd hc (by decide)
  next =>
    rw [callText_eq, parseCall_of_not_mem (hname.not_mem rfl), splitCommas_intercalate hargs]

/-! ## Decimal numbers -/

theorem decimal_isDigit {n : Nat} : ∀ c ∈ decimal n, c.isDigit = true :=
  fun _ => Nat.isDigit_of_mem_toDigits (by decide) (by decide)

theorem decimal_alphanumeric (n : Nat) : Alphanumeric (decimal n) :=
  fun c hc => by simp [Char.isAlphanum, decimal_isDigit c hc]

theorem decDigit_of_isDigit {c : Char} (h : c.isDigit = true) : decDigit c = some (c.toNat - '0'.toNat) :=
  if_pos (by simpa [Char.isDigit, Char.le_def] using h)

theorem digitsValue_eq_ofDigitChars {ds : List Char} (h : ∀ c ∈ ds, c.isDigit = true) (acc : Nat) :
    digitsValue 10 decDigit acc ds = some (Nat.ofDigitChars 10 ds acc) := by
  induction ds generalizing acc with
  | nil => rfl
  | cons c ds ih =>
    rw [List.forall_mem_cons] at h
    simp only [digitsValue, decDigit_of_isDigit h.1, ih h.2, Nat.ofDigitChars_cons, Nat.mul_comm]

/-- The text of a number is no hexadecimal number, and its value is the number. -/
theorem parseNumber_decimal (n : Nat) : parseNumber (decimal n) = some n := by
  have hx : 'x' ∉ decimal n := fun h => absurd (decimal_isDigit 'x' h) (by decide)
  unfold parseNumber
  split
  case h_1 heq => exact absurd heq Nat.toDigits_ne_nil
  case h_2 heq | h_3 heq => simp [heq] at hx
  case h_4 => rw [digitsValue_eq_ofDigitChars decimal_isDigit, decimal, Nat.ofDigitChars_ten_toDigits]

theorem mapM_parseNumber_decimal (ns : List Nat) : (ns.map decimal).mapM parseNumber = some ns := by
  induction ns with
  | nil => rfl
  | cons n ns ih => simp [parseNumber_decimal, ih]

theorem withFields_decimal {ns : List Nat} (h : ∀ n ∈ ns, n < 65536) {mk : List Nat → Option Instr} {i : Instr}
    (hmk : mk ns = some i) : withFields (ns.map decimal) mk = .word (encodeWord i) := by
  have hfits : ns.all fieldFits = true := List.all_eq_true.2 fun n hn => decide_eq_true (h n hn)
  simp only [withFields, mapM_parseNumber_decimal, hfits, hmk, if_true]

theorem withFields_decimal_outOfRange {ns : List Nat} {n : Nat} (hn : n ∈ ns) (h : 65536 ≤ n)
    (mk : List Nat → Option Instr) : withFields (ns.map decimal) mk = .refused .numberOutOfRange := by
  have hfits : ns.all fieldFits = false := List.all_eq_false.2 ⟨n, hn, by simp [fieldFits, h]⟩
  simp only [withFields, mapM_parseNumber_decimal, hfits, Bool.false_eq_true, if_false]

/-- A call line whose arguments are the operand fields in decimal. -/
theorem assembleLine_decimal {c : Char} {cs : List Char} (hname : Alphanumeric (c :: cs))
    {mk : List Nat → Option Instr} (hcall : ∀ args, assembleCall (c :: cs) args = withFields args mk) (n : Nat)
    (ns : List Nat) :
    assembleLine (callText (c :: cs) ((n :: ns).map decimal)) = withFields ((n :: ns).map decimal) mk := by
  rw [← hcall]
  exact assembleLine_callText hname (List.forall_mem_map (l := n :: ns).2 fun m _ => decimal_alphanumeric m)

theorem assembleLine_activate {name : List Char} (hname : Alphanumeric name) {fn : ActFn} (hfn : namedFn name = some fn)
    {addr size : Nat} (hfits : ∀ n ∈ [addr, size], n < 65536) :
    assembleLine (callText ['A', 'C', 'T', 'I', 'V', 'A', 'T', 'E'] [name, decimal addr, decimal size]) =
      .word (encodeWord (.activate fn addr size)) := by
  have hargs : ∀ a ∈ [name, decimal addr, decimal size], Alphanumeric a := by
    simp [hname, decimal_alphanumeric]
  rw [assembleLine_callText (by simp [Alphanumeric]) hargs]
  simpa [assembleCall, hfn] using withFields_decimal hfits (i := .activate fn addr size) rfl

/-! ## The obligations about lines -/

/-- Settles O6, by evaluating the assembler on each line. -/
theorem assemblerExamples : Obligations.AssemblerExamples := by
  unfold Obligations.AssemblerExamples
  decide

/-- Settles O7, by the arguments of the line and their values. -/
theorem decimalLinesAssemble : Obligations.DecimalLinesAssemble := by
  unfold Obligations.DecimalLinesAssemble
  refine ⟨fun x y z hx hy hz => ?_, fun x hx => ?_⟩
  · have hfits : ∀ n ∈ [x, y, z], n < 65536 := by simp [hx, hy, hz]
    refine ⟨?load, ?store, ?gemm, fun f hf => ?activate⟩
    case load | store | gemm =>
      refine Eq.trans (assembleLine_decimal ?_ (fun _ => rfl) x [y, z]) (withFields_decimal hfits rfl)
      simp [Alphanumeric]
    case activate =>
      simp only [List.mem_cons, List.not_mem_nil, or_false] at hf
      obtain rfl | rfl | rfl := hf
      all_goals exact assembleLine_activate (by simp [Alphanumeric]) rfl (by simp [hx, hz])
  · refine Eq.trans (assembleLine_decimal ?_ (fun _ => rfl) x [0, 0]) (withFields_decimal_outOfRange (.head _) hx _)
    simp [Alphanumeric]

end Sys2Proof.Asm
end

section
/-!
The systolic array (41_systolic_array). A row of the array passes the left inputs on, and a column the top inputs: each
is a line of places of which every place holds what the place before it held one tick earlier. What a place sees is
therefore the line's input, late by its distance from the edge.
-/

namespace Sys2Proof

variable {S : Type}

/-! ## A line that moves one place per tick -/

/-- The input `x` as the place at distance `d` from the edge sees it in tick `t`: zero before it arrives. -/
def delayed (K : ScalarOps S) (x : Nat → S) (d t : Nat) : S := if d ≤ t then x (t - d) else K.zero

theorem delayed_edge (K : ScalarOps S) (x : Nat → S) (t : Nat) : delayed K x 0 t = x t := rfl

theorem delayed_first_tick (K : ScalarOps S) (x : Nat → S) (d : Nat) : delayed K x (d + 1) 0 = K.zero := rfl

theorem delayed_next (K : ScalarOps S) (x : Nat → S) (d t : Nat) : delayed K x (d + 1) (t + 1) = delayed K x d t := by
  simp only [delayed, Nat.add_le_add_iff_right, Nat.add_sub_add_right]

/-- `p t d` is what place `d` of a line of `N` places sees in tick `t`. -/
theorem line_eq_delayed (K : ScalarOps S) {x : Nat → S} {p : Nat → Nat → S} {N : Nat} (hedge : ∀ t, p t 0 = x t)
    (hreset : ∀ d, d + 1 < N → p 0 (d + 1) = K.zero) (hmove : ∀ t d, d + 1 < N → p (t + 1) (d + 1) = p t d)
    (t : Nat) {d : Nat} (hd : d < N) : p t d = delayed K x d t := by
  induction d generalizing t with
  | zero => rw [hedge, delayed_edge]
  | succ d ih =>
    cases t with
    | zero => rw [hreset d hd, delayed_first_tick]
    | succ t => rw [hmove t d hd, ih t (Nat.lt_of_succ_lt hd), delayed_next]

/-! ## The inputs of a PE along a run -/

/-- The PE at (r, c) after one more tick of a run, from its inputs in that tick (R116 to R118). -/
theorem arrayRun_succ_at (K : ScalarOps S) {N : Nat} (left top : Nat → Nat → S) (t : Nat) {r c : Nat} (hr : r < N)
    (hc : c < N) :
    Grid.at K (arrayRun K N left top (t + 1)) r c =
      { acc := mac K (Grid.at K (arrayRun K N left top t) r c).acc
          (horizontalIn K (left t) (arrayRun K N left top t) r c)
          (verticalIn K (top t) (arrayRun K N left top t) r c)
        a := horizontalIn K (left t) (arrayRun K N left top t) r c
        b := verticalIn K (top t) (arrayRun K N left top t) r c } :=
  arrayStep_at K (left t) (top t) _ hr hc

/-- Along row r the horizontal inputs are the left inputs, one tick late per column (R114, R122). -/
theorem arrayRun_horizontalIn (K : ScalarOps S) {N : Nat} (left top : Nat → Nat → S) (t : Nat) {r c : Nat}
    (hr : r < N) (hc : c < N) :
    horizontalIn K (left t) (arrayRun K N left top t) r c = delayed K (fun i => left i r) c t := by
  refine line_eq_delayed K (p := fun t c => horizontalIn K (left t) (arrayRun K N left top t) r c)
    (fun t => rfl) (fun c hc => ?_) (fun t c hc => ?_) t hc
  · exact congrArg PE.a (arrayReset_at K hr (Nat.lt_of_succ_lt hc))
  · exact congrArg PE.a (arrayRun_succ_at K left top t hr (Nat.lt_of_succ_lt hc))

/-- Along column c the vertical inputs are the top inputs, one tick late per row (R115, R122). -/
theorem arrayRun_verticalIn (K : ScalarOps S) {N : Nat} (left top : Nat → Nat → S) (t : Nat) {r c : Nat}
    (hr : r < N) (hc : c < N) :
    verticalIn K (top t) (arrayRun K N left top t) r c = delayed K (fun i => top i c) r t := by
  refine line_eq_delayed K (p := fun t r => verticalIn K (top t) (arrayRun K N left top t) r c)
    (fun t => rfl) (fun r hr => ?_) (fun t r hr => ?_) t hr
  · exact congrArg PE.b (arrayReset_at K (Nat.lt_of_succ_lt hr) hc)
  · exact congrArg PE.b (arrayRun_succ_at K left top t (Nat.lt_of_succ_lt hr) hc)

/-! ## The obligations about a run of the array -/

/-- Settles O24: a PE keeps its inputs, and its inputs are the array's, late by the PE's distance from the edge. -/
theorem operandsMoveOnePlacePerTick : Obligations.OperandsMoveOnePlacePerTick := by
  unfold Obligations.OperandsMoveOnePlacePerTick
  intro S K N left top t r c hr hc
  rw [arrayRun_succ_at K left top t hr hc]
  exact ⟨arrayRun_horizontalIn K left top t hr hc, arrayRun_verticalIn K left top t hr hc⟩

/-- Settles O25: the product a PE adds is that of its two inputs. -/
theorem eachTickAddsOneProduct : Obligations.EachTickAddsOneProduct := by
  unfold Obligations.EachTickAddsOneProduct
  intro S K N left top t r c hr hc
  refine ⟨congrArg PE.acc (arrayReset_at K hr hc), ?_⟩
  rw [arrayRun_succ_at K left top t hr hc, arrayRun_horizontalIn K left top t hr hc,
    arrayRun_verticalIn K left top t hr hc]
  rfl

/-! ## The multiply-accumulate over BINARY64 -/

/-- The product is a value of its own, rounded before it is added (R116). -/
theorem mac_binary64 (acc h v : Scalar) : mac Binary64.ops acc h v = Binary64.add acc (Binary64.mul h v) := rfl

/-- Settles O37. Test vector 2.3.11 adds 0.1² and 0.2²: each product is rounded to 64 bits, and the sum of the rounded
products is rounded again. -/
theorem macRoundsTwice : Obligations.MacRoundsTwice := by
  unfold Obligations.MacRoundsTwice
  have hsquare₁ : Binary64.mul 0x3FB999999999999A#64 0x3FB999999999999A#64 = 0x3F847AE147AE147C#64 := by decide +kernel
  have hsquare₂ : Binary64.mul 0x3FC999999999999A#64 0x3FC999999999999A#64 = 0x3FA47AE147AE147C#64 := by decide +kernel
  have hstart : Binary64.add 0#64 0x3F847AE147AE147C#64 = 0x3F847AE147AE147C#64 := by decide +kernel
  have hsum : Binary64.add 0x3F847AE147AE147C#64 0x3FA47AE147AE147C#64 = 0x3FA999999999999B#64 := by decide +kernel
  have hnegZero : Binary64.mul 0xC008000000000000#64 0#64 = 0x8000000000000000#64 := by decide +kernel
  have hzero : Binary64.add 0#64 0x8000000000000000#64 = 0#64 := by decide +kernel
  simp only [mac_binary64, hsquare₁, hsquare₂, hstart, hsum, hnegZero, hzero, and_self]

end Sys2Proof

namespace Sys2Proof.Npu

variable {S : Type} [DecidableEq S]

/-- Of the instructions, only GEMM changes the array (R121). -/
theorem gemm_of_instrEffect_pe_ne (K : ScalarOps S) {i : Instr} {s : State S} (h : (instrEffect K i s).pe ≠ s.pe) :
    ∃ addrA addrB addrC, i = .gemm addrA addrB addrC := by
  obtain ⟨addrA, addrB, addrC, hi, -⟩ | ⟨u, heff, hu, -⟩ := instrEffect_cases K i s
  · exact ⟨addrA, addrB, addrC, hi⟩
  · rw [heff, advancePc_pe] at h
    exact absurd hu.pe h

end Sys2Proof.Npu

namespace Sys2Proof.Machine

/-- Settles O54, by the three things a step can do: a terminal step keeps the array, and a tick has its GEMM in
progress. -/
theorem arrayChangesOnlyByGemm : Obligations.ArrayChangesOnlyByGemm := by
  unfold Obligations.ArrayChangesOnlyByGemm
  intro s
  have hstep := step_eq_effect s
  refine ⟨_, hstep, fun hpe => ?_⟩
  obtain ⟨-, ht⟩ | ⟨-, o, hop, -⟩ | ⟨-, -, i, hi, ht⟩ := step_cases hstep
  · rw [ht] at hpe
    exact absurd rfl hpe
  · exact .inl (hop ▸ rfl)
  · rw [ht] at hpe
    obtain ⟨addrA, addrB, addrC, rfl⟩ := Npu.gemm_of_instrEffect_pe_ne Binary64.ops (s := Npu.beginStep s) hpe
    exact .inr ⟨addrA, addrB, addrC, hi⟩

end Sys2Proof.Machine
end

section
/-!
The host commands and the invariant (42_scheduler R160 to R164): reset and loadProgram begin anew, step is a step, and
bulkLoad, read and observe touch no control state.
-/

namespace Sys2Proof.Npu

variable {S : Type}

/-- A power-on block whose host has put a program, main memory and a status in place: what reset and loadProgram
leave (70_reset_and_hazards R280, R281). -/
def freshState (zero : S) (c : Config) (main : Memory S) (prog : List Instr) (status : Status) : State S :=
  { State.powerOn zero c with main := main, prog := prog, status := status }

theorem resetCommand_eq_fresh (K : ScalarOps S) (s : State S) :
    resetCommand K s = freshState K.zero s.cfg [] [] .idle := by
  rw [resetCommand, arrayReset_eq_replicate]
  rfl

theorem installProgram_eq_fresh (K : ScalarOps S) (p : List Instr) (s : State S) :
    installProgram K p s = freshState K.zero s.cfg s.main p .ready := by
  rw [installProgram, arrayReset_eq_replicate]
  rfl

/-- Every program store holds the empty program (00_scope R7). -/
theorem programFits_nil (c : Config) : programFits c [] = true := by
  unfold programFits
  split
  · rfl
  · exact decide_eq_true (Nat.zero_le _)

theorem setDiags_control (s : State S) (ds : List Diag) : SameControl s { s with diags := ds } :=
  ⟨rfl, rfl, rfl, rfl, rfl, rfl, rfl, rfl⟩

theorem DataWf.setDiags {K : ScalarOps S} {s : State S} (h : DataWf K s) (ds : List Diag) :
    DataWf K { s with diags := ds } :=
  ⟨h.bank, h.reads, h.writes⟩

variable [DecidableEq S]

@[simp] theorem memWrite_readSet (K : ScalarOps S) (b b' : BankId) (a : Nat) (v : S) (s : State S) :
    readSet b' (memWrite K b a v s) = readSet b' s := by
  cases b' <;> simp [readSet]

@[simp] theorem memWrite_writeSet (K : ScalarOps S) (b b' : BankId) (a : Nat) (v : S) (s : State S) :
    writeSet b' (memWrite K b a v s) = writeSet b' s := by
  cases b' <;> simp [writeSet]

theorem memWrite_dataWf (K : ScalarOps S) (b : BankId) (a : Nat) (v : S) {s : State S} (h : DataWf K s) :
    DataWf K (memWrite K b a v s) where
  bank b' := memWrite_wf K b b' a v s h.bank
  reads b' := by simpa using h.reads b'
  writes b' := by simpa using h.writes b'

theorem writeRange_dataWf (K : ScalarOps S) (b : BankId) (offset : Nat) (v : Nat → S) (n : Nat) {s : State S}
    (h : DataWf K s) : DataWf K (writeRange K b offset v n s) :=
  forRange_induct h fun i _ _ hu => memWrite_dataWf K b (offset + i) (v i) hu

end Sys2Proof.Npu

namespace Sys2Proof.Machine

/-! ## The commands that begin anew -/

/-- Where nothing has run, the invariant asks for canonical main memory and a program that fits, empty in IDLE
(42_scheduler R131). -/
theorem inv_fresh {c : Config} {main : Memory Scalar} {p : List Instr} {status : Status}
    (hmain : Memory.wf Binary64.posZero c.mainCap main) (hfits : Npu.programFits c p = true)
    (hstatus : status = .ready ∨ (status = .idle ∧ p = [])) : Inv (Npu.freshState 0#64 c main p status) where
  mainWf := hmain
  bufWf := Memory.wf_nil _ _
  gridShape := by
    have h := arrayReset_wf Binary64.ops c.N
    rwa [arrayReset_eq_replicate] at h
  setsWf := ⟨AddrSet.wf_nil, AddrSet.wf_nil, AddrSet.wf_nil, AddrSet.wf_nil⟩
  pcInProgram := Nat.zero_le _
  progFits := hfits
  logLength := rfl
  gemmInProgress := nofun
  idleEmpty h := by
    obtain hready | ⟨-, hp⟩ := hstatus
    · exact absurd (hready.symm.trans h) nofun
    · exact ⟨hp, rfl⟩
  readyFresh _ := ⟨rfl, rfl, rfl⟩
  finishedDone h := by
    obtain hready | ⟨hidle, -⟩ := hstatus
    · exact absurd (hready.symm.trans h) nofun
    · exact absurd (hidle.symm.trans h) nofun

theorem inv_powerOn (c : Config) : Inv (Npu.State.powerOn 0#64 c) :=
  inv_fresh (Memory.wf_nil _ _) (Npu.programFits_nil c) (.inr ⟨rfl, rfl⟩)

theorem loadProgram_eq_next {p : List Instr} {s t : State} (h : loadProgram p s = .next t) :
    Npu.programFits s.cfg p = true ∧ t = Npu.freshState 0#64 s.cfg s.main p .ready := by
  unfold loadProgram at h
  split at h
  case isTrue hfits =>
    rw [Npu.installProgram_eq_fresh] at h
    exact ⟨hfits, (Host.Outcome.next.inj h).symm⟩
  case isFalse => cases h

/-! ## The commands that touch no control state -/

/-- The invariant of the control state is kept where the control state is. -/
theorem Inv.of_sameControl {s t : State} (h : Inv s) (hctl : Npu.SameControl s t) (hdata : Npu.DataWf Binary64.ops t) :
    Inv t where
  mainWf := hdata.bank .main
  bufWf := hdata.bank .buf
  gridShape := by rw [hctl.cfg, hctl.pe]; exact h.gridShape
  setsWf := ⟨hdata.reads .main, hdata.writes .main, hdata.reads .buf, hdata.writes .buf⟩
  pcInProgram := by rw [hctl.pc, hctl.prog]; exact h.pcInProgram
  progFits := by rw [hctl.cfg, hctl.prog]; exact h.progFits
  logLength := by rw [hctl.log, hctl.cycle]; exact h.logLength
  gemmInProgress := by rw [hctl.op, hctl.cfg, hctl.prog, hctl.pc, hctl.status]; exact h.gemmInProgress
  idleEmpty := by rw [hctl.status, hctl.prog, hctl.cycle]; exact h.idleEmpty
  readyFresh := by rw [hctl.status, hctl.pc, hctl.cycle, hctl.op]; exact h.readyFresh
  finishedDone := by rw [hctl.status, hctl.op, hctl.pc, hctl.prog]; exact h.finishedDone

/-- Diagnostics are no state (10_state R35). -/
theorem Inv.setDiags {s : State} (h : Inv s) (ds : List Diag) : Inv { s with diags := ds } :=
  h.of_sameControl (Npu.setDiags_control s ds) (h.dataWf.setDiags ds)

theorem Inv.bulkLoad {s : State} (h : Inv s) (b : BankId) (offset : Nat) (values : List Scalar) :
    Inv (Npu.bulkLoad Binary64.ops b offset values s) := by
  have hclean := h.setDiags []
  rw [Npu.bulkLoad_eq_writeRange]
  exact hclean.of_sameControl (Npu.writeRange_control ..) (Npu.writeRange_dataWf _ _ _ _ _ hclean.dataWf)

/-! ## Every host command -/

theorem withDone_eq_next {o : Host.Outcome State Fault Refusal} {t : State} {r : Reply}
    (h : withDone o = .next (t, r)) : o = .next t := by
  cases o with
  | next u =>
    cases h
    rfl
  | fault | refused => cases h

theorem Inv.hostCommand {s t : State} (h : Inv s) {c : HostCommand} {r : Reply}
    (hc : Machine.hostCommand c s = .next (t, r)) : Inv t := by
  cases c with
  | reset =>
    cases hc
    rw [Npu.resetCommand_eq_fresh]
    exact inv_powerOn s.cfg
  | loadProgram p =>
    obtain ⟨hfits, rfl⟩ := loadProgram_eq_next (withDone_eq_next hc)
    exact inv_fresh h.mainWf hfits (.inl rfl)
  | step => exact stepKeepsInvariant s t h (withDone_eq_next hc)
  | bulkLoad b offset values =>
    cases hc
    exact h.bulkLoad b offset values
  | read b addr =>
    cases hc
    rw [hostRead_snd]
    exact h.setDiags _
  | observe =>
    cases hc
    exact h.setDiags []

/-- A command that is not admitted leaves the state as it was (70_reset_and_hazards R281). -/
theorem Inv.hostRun {s : State} (h : Inv s) (cmds : List HostCommand) : Inv (Machine.hostRun cmds s) := by
  induction cmds generalizing s with
  | nil => exact h
  | cons c cs ih =>
    unfold Machine.hostRun
    split
    case h_1 hc => exact ih (h.hostCommand hc)
    case h_2 | h_3 => exact ih h

/-- Settles O52: each host command keeps the invariant, and power-on meets it. -/
theorem everyReachableStateMeetsInvariant : Obligations.EveryReachableStateMeetsInvariant := by
  unfold Obligations.EveryReachableStateMeetsInvariant
  exact ⟨fun _ _ _ _ h hc => h.hostCommand hc, fun c cmds => (inv_powerOn c).hostRun cmds⟩

end Sys2Proof.Machine
end

section
/-!
One GEMM tick in full (44_gemm R193 to R197, R202, R203, R205): beside the cells, which addresses it records and which
diagnostics it emits. Both come from loops of which each round adds something of its own.
-/

namespace Sys2Proof

/-! ## Loops that add to a list or to a set -/

/-- What the rounds of a loop append, in their order; `P` is what the rounds keep and their additions depend on. -/
theorem forRange_append {σ α : Type} (f : σ → List α) (g : Nat → List α) {P : σ → Prop} {body : Nat → σ → σ}
    (hkeep : ∀ i u, P u → P (body i u)) (happend : ∀ i u, P u → f (body i u) = f u ++ g i) (n : Nat) {s : σ}
    (h : P s) : f (forRange n body s) = f s ++ (List.range n).flatMap g := by
  induction n with
  | zero => simp
  | succ n ih =>
    have hn : P (forRange n body s) := forRange_induct h fun i _ u hu => hkeep i u hu
    simp [happend n _ hn, ih, List.range_succ]

/-- What the rounds of a loop put into a set. -/
theorem mem_forRange {σ : Type} (f : σ → AddrSet) (g : Nat → Nat → Prop) {P : σ → Prop} {body : Nat → σ → σ}
    (hkeep : ∀ i u, P u → P (body i u)) (hmem : ∀ i u a, P u → (a ∈ f (body i u) ↔ a ∈ f u ∨ g i a)) (n : Nat) {s : σ}
    (h : P s) (a : Nat) : a ∈ f (forRange n body s) ↔ a ∈ f s ∨ ∃ i < n, g i a := by
  induction n with
  | zero => simp
  | succ n ih =>
    have hn : P (forRange n body s) := forRange_induct h fun i _ u hu => hkeep i u hu
    rw [forRange_succ, hmem n _ a hn, ih, or_assoc, Nat.exists_lt_succ_right]

/-! ## The cells of the result -/

/-- The addresses of the result matrix are the N² ones from addrC (44_gemm R196). -/
theorem exists_resultAddr_iff {N : Nat} (o : GemmOp) (a : Nat) :
    (∃ i < N, ∃ j < N, a = resultAddr N o i j) ↔ o.addrC ≤ a ∧ a < o.addrC + N * N := by
  simp only [resultAddr, matrixAddr]
  constructor
  · rintro ⟨i, hi, j, hj, rfl⟩
    have hrow : i * N + j < N * N := by
      calc i * N + j < i * N + N := Nat.add_lt_add_left hj _
        _ = (i + 1) * N := (Nat.succ_mul i N).symm
        _ ≤ N * N := Nat.mul_le_mul_right N hi
    omega
  · rintro ⟨hle, hlt⟩
    have hN : 0 < N := Nat.pos_of_ne_zero fun h => by simp [h] at hlt; omega
    refine ⟨(a - o.addrC) / N, Nat.div_lt_of_lt_mul (by omega), (a - o.addrC) % N, Nat.mod_lt _ hN, ?_⟩
    rw [Nat.add_assoc, Nat.div_add_mod']
    omega

end Sys2Proof

namespace Sys2Proof.Npu

variable {S : Type}

/-! ## The feeds -/

theorem readLeft_diags (K : ScalarOps S) (o : GemmOp) (r : Nat) (s : State S) :
    (readLeft K o r s).diags =
      s.diags ++ if feeds s.cfg.N o.tick r then readDiag s.cfg.bufCap .buf (leftAddr s.cfg.N o r) else [] := by
  unfold readLeft
  split <;> simp

theorem readTop_diags (K : ScalarOps S) (o : GemmOp) (c : Nat) (s : State S) :
    (readTop K o c s).diags =
      s.diags ++ if feeds s.cfg.N o.tick c then readDiag s.cfg.bufCap .buf (topAddr s.cfg.N o c) else [] := by
  unfold readTop
  split <;> simp

theorem mem_readLeft_bufRd (K : ScalarOps S) (o : GemmOp) (r a : Nat) (s : State S) :
    a ∈ (readLeft K o r s).bufRd ↔ a ∈ s.bufRd ∨ (feeds s.cfg.N o.tick r = true ∧ a = leftAddr s.cfg.N o r) := by
  unfold readLeft
  split
  case isTrue h => simp [engineRead, h, or_comm]
  case isFalse h => simp [h]

theorem mem_readTop_bufRd (K : ScalarOps S) (o : GemmOp) (c a : Nat) (s : State S) :
    a ∈ (readTop K o c s).bufRd ↔ a ∈ s.bufRd ∨ (feeds s.cfg.N o.tick c = true ∧ a = topAddr s.cfg.N o c) := by
  unfold readTop
  split
  case isTrue h => simp [engineRead, h, or_comm]
  case isFalse h => simp [h]

/-- The left feeds keep the parameters, which the addresses of the top feeds depend on. -/
theorem readLefts_cfg (K : ScalarOps S) (o : GemmOp) (n : Nat) (s : State S) :
    (forRange n (readLeft K o) s).cfg = s.cfg :=
  (forRange_control (readLeft_control K o) n s).cfg

/-- The diagnostics of a tick's reads, rows before columns (44_gemm R205). -/
theorem readFeeds_diags (K : ScalarOps S) (o : GemmOp) (s : State S) :
    (readFeeds K o s).diags = s.diags ++
      ((List.range s.cfg.N).flatMap (fun r =>
        if feeds s.cfg.N o.tick r then readDiag s.cfg.bufCap .buf (leftAddr s.cfg.N o r) else []) ++
      (List.range s.cfg.N).flatMap (fun c =>
        if feeds s.cfg.N o.tick c then readDiag s.cfg.bufCap .buf (topAddr s.cfg.N o c) else [])) := by
  rw [readFeeds, ← List.append_assoc,
    forRange_append State.diags _ (P := (·.cfg = s.cfg)) (fun c u h => (readTop_control K o c u).cfg.trans h)
      (fun c u h => by rw [readTop_diags, h]) _ (readLefts_cfg K o _ s),
    forRange_append State.diags _ (P := (·.cfg = s.cfg)) (fun r u h => (readLeft_control K o r u).cfg.trans h)
      (fun r u h => by rw [readLeft_diags, h]) _ rfl]

/-- Exactly the feed addresses of the tick are recorded (44_gemm R203). -/
theorem mem_readFeeds_bufRd (K : ScalarOps S) (o : GemmOp) (a : Nat) (s : State S) :
    a ∈ (readFeeds K o s).bufRd ↔ a ∈ s.bufRd ∨ Machine.IsFeedAddr s.cfg.N o a := by
  have htops := mem_forRange State.bufRd (fun c a => feeds s.cfg.N o.tick c = true ∧ a = topAddr s.cfg.N o c)
    (P := (·.cfg = s.cfg)) (fun c u h => (readTop_control K o c u).cfg.trans h)
    (fun c u a h => by rw [mem_readTop_bufRd, h]) s.cfg.N (readLefts_cfg K o s.cfg.N s) a
  have hlefts := mem_forRange State.bufRd (fun r a => feeds s.cfg.N o.tick r = true ∧ a = leftAddr s.cfg.N o r)
    (P := (·.cfg = s.cfg)) (fun r u h => (readLeft_control K o r u).cfg.trans h)
    (fun r u a h => by rw [mem_readLeft_bufRd, h]) s.cfg.N rfl a
  simp only [readFeeds, htops, hlefts, or_assoc, Machine.IsFeedAddr, and_or_left, exists_or]

theorem readFeeds_mainRd (K : ScalarOps S) (o : GemmOp) (s : State S) : (readFeeds K o s).mainRd = s.mainRd := by
  unfold readFeeds
  rw [forRange_frame State.mainRd (fun c u => ?_), forRange_frame State.mainRd (fun r u => ?_)]
  · unfold readLeft
    split <;> simp [engineRead]
  · unfold readTop
    split <;> simp [engineRead]

/-! ## The write-back -/

variable [DecidableEq S]

theorem mem_engineWrite_bufWr (K : ScalarOps S) (addr a : Nat) (v : S) (s : State S) :
    a ∈ (engineWrite K .buf addr v s).bufWr ↔ a ∈ s.bufWr ∨ a = addr := by
  simp [engineWrite, or_comm]

theorem mem_writeResult_bufWr (K : ScalarOps S) (o : GemmOp) (out : Nat → Nat → S) (a : Nat) (s : State S) :
    a ∈ (writeResult K o out s).bufWr ↔ a ∈ s.bufWr ∨ (o.addrC ≤ a ∧ a < o.addrC + s.cfg.N * s.cfg.N) := by
  have hrow (i : Nat) (u : State S) (a : Nat) :
      a ∈ (forRange s.cfg.N (fun j => engineWrite K .buf (resultAddr s.cfg.N o i j) (out i j)) u).bufWr ↔
        a ∈ u.bufWr ∨ ∃ j < s.cfg.N, a = resultAddr s.cfg.N o i j :=
    mem_forRange State.bufWr _ (P := fun _ => True) (fun _ _ => id)
      (fun j w a _ => mem_engineWrite_bufWr K (resultAddr s.cfg.N o i j) a (out i j) w) s.cfg.N trivial a
  rw [← exists_resultAddr_iff]
  exact mem_forRange State.bufWr _ (P := fun _ => True) (fun _ _ => id) (fun i u a _ => hrow i u a) s.cfg.N trivial a

theorem writeResult_diags (K : ScalarOps S) (o : GemmOp) (out : Nat → Nat → S) (s : State S) :
    (writeResult K o out s).diags = s.diags ++ (List.range s.cfg.N).flatMap (fun i =>
      (List.range s.cfg.N).flatMap (fun j => writeDiag s.cfg.bufCap .buf (resultAddr s.cfg.N o i j))) := by
  refine forRange_append State.diags _ (P := (·.cfg = s.cfg))
    (fun i u h => (forRange_control (fun j w => engineWrite_control K .buf _ _ w) s.cfg.N u).cfg.trans h)
    (fun i u h => ?_) s.cfg.N rfl
  exact forRange_append State.diags _ (P := (·.cfg = s.cfg))
    (fun j w h => (engineWrite_control K .buf _ _ w).cfg.trans h)
    (fun j w h => by rw [engineWrite_diags, cap_buf, h]) s.cfg.N h

theorem writeResult_mainWr (K : ScalarOps S) (o : GemmOp) (out : Nat → Nat → S) (s : State S) :
    (writeResult K o out s).mainWr = s.mainWr :=
  forRange_frame State.mainWr (fun _ u => forRange_frame State.mainWr (fun _ _ => by simp [engineWrite]) _ u) _ s

/-- The cell of an entry of the result after the write-back (44_gemm R196). -/
theorem writeResult_peek_entry (K : ScalarOps S) (o : GemmOp) (out : Nat → Nat → S) (s : State S) {i j : Nat}
    (hi : i < s.cfg.N) (hj : j < s.cfg.N) (hcap : resultAddr s.cfg.N o i j < s.cfg.bufCap) :
    peek K .buf (resultAddr s.cfg.N o i j) (writeResult K o out s) = out i j := by
  have hrange := (exists_resultAddr_iff o _).mp ⟨i, hi, j, hj, rfl⟩
  have hoffset : resultAddr s.cfg.N o i j - o.addrC = j + i * s.cfg.N := by
    simp only [resultAddr, matrixAddr]
    omega
  rw [writeResult_peek, if_pos ⟨rfl, hrange.1, hrange.2, hcap⟩, hoffset, Nat.add_mul_div_right _ _ s.cfg.N_pos,
    Nat.div_eq_of_lt hj, Nat.zero_add, Nat.add_mul_mod_self_right, Nat.mod_eq_of_lt hj]

/-! ## The state before the sub-state moves -/

omit [DecidableEq S] in
theorem afterFeeds_cfg (K : ScalarOps S) (o : GemmOp) (s : State S) : (afterFeeds K o s).cfg = s.cfg :=
  (readFeeds_control K o s).cfg

theorem afterResult_peek_entry (K : ScalarOps S) (o : GemmOp) (s : State S) {i j : Nat} (hi : i < s.cfg.N)
    (hj : j < s.cfg.N) (hcap : resultAddr s.cfg.N o i j < s.cfg.bufCap) :
    peek K .buf (resultAddr s.cfg.N o i j) (afterResult K o s) = (Grid.at K (afterFeeds K o s).pe i j).acc := by
  rw [← afterFeeds_cfg K o s] at hi hj hcap ⊢
  exact writeResult_peek_entry K o _ _ hi hj hcap

/-- The reads leave every cell as it was, and the write-back every cell outside the result. -/
theorem afterResult_peek_outside (K : ScalarOps S) (o : GemmOp) (s : State S) {a : Nat}
    (ha : ¬ (o.addrC ≤ a ∧ a < o.addrC + s.cfg.N * s.cfg.N)) :
    peek K .buf a (afterResult K o s) = peek K .buf a s := by
  rw [afterResult, writeResult_peek, afterFeeds_cfg, if_neg fun ⟨_, hle, hlt, _⟩ => ha ⟨hle, hlt⟩]
  exact peek_congr K (afterFeeds_cfg K o s) .buf (afterFeeds_cells K o .buf s) a

theorem mem_afterResult_bufWr (K : ScalarOps S) (o : GemmOp) (a : Nat) (s : State S) :
    a ∈ (afterResult K o s).bufWr ↔ a ∈ s.bufWr ∨ (o.addrC ≤ a ∧ a < o.addrC + s.cfg.N * s.cfg.N) := by
  have hfeeds : (afterFeeds K o s).bufWr = s.bufWr := readFeeds_writeSet K o .buf s
  rw [afterResult, mem_writeResult_bufWr, hfeeds, afterFeeds_cfg]

theorem afterResult_diags (K : ScalarOps S) (o : GemmOp) (s : State S) :
    (afterResult K o s).diags = (readFeeds K o s).diags ++ (List.range s.cfg.N).flatMap (fun i =>
      (List.range s.cfg.N).flatMap (fun j => writeDiag s.cfg.bufCap .buf (resultAddr s.cfg.N o i j))) := by
  rw [afterResult, writeResult_diags, afterFeeds_cfg]
  rfl

/-! ## The access sets of the tick -/

/-- Only the feeds are read, whether or not the tick is the last one. -/
theorem gemmTick_bufRd (K : ScalarOps S) (o : GemmOp) (s : State S) :
    (gemmTick K o s).bufRd = (readFeeds K o s).bufRd := by
  by_cases h : o.tick = o.total - 1
  · rw [gemmTick_last K h]
    exact writeResult_readSet K o _ .buf (afterFeeds K o s)
  · rw [gemmTick_notLast K h]
    rfl

/-- A GEMM accesses no main memory (44_gemm R206). -/
theorem gemmTick_mainSets (K : ScalarOps S) (o : GemmOp) (s : State S) :
    (gemmTick K o s).mainRd = s.mainRd ∧ (gemmTick K o s).mainWr = s.mainWr := by
  have hrd : (afterFeeds K o s).mainRd = s.mainRd := readFeeds_mainRd K o s
  have hwr : (afterFeeds K o s).mainWr = s.mainWr := readFeeds_writeSet K o .main s
  by_cases h : o.tick = o.total - 1
  · rw [gemmTick_last K h]
    exact ⟨(writeResult_readSet K o _ .main _).trans hrd, (writeResult_mainWr K o _ _).trans hwr⟩
  · rw [gemmTick_notLast K h]
    exact ⟨hrd, hwr⟩

end Sys2Proof.Npu

namespace Sys2Proof.Machine

/-! ## The tick -/

/-- What one tick makes of any state, whatever its sub-state (44_gemm R205). -/
theorem gemmTick_result (s : State) (o : GemmOp) : GemmTickResult s o (Npu.gemmTick Binary64.ops o s) where
  grid r hr c hc := by
    rw [Npu.gemmTick_pe, arrayStep_at _ _ _ _ hr hc]
    rfl
  shape := by
    rw [Npu.gemmTick_pe]
    exact arrayStep_wf ..
  notLast h := by
    obtain ⟨hop, hpc⟩ := Npu.gemmTick_control_notLast Binary64.ops h s
    refine ⟨hop, hpc, Npu.gemmTick_buf_notLast Binary64.ops h s, ?_, ?_⟩ <;> rw [Npu.gemmTick_notLast _ h]
    · exact Npu.readFeeds_writeSet Binary64.ops o .buf s
    · exact Npu.readFeeds_diags Binary64.ops o s
  last h := by
    obtain ⟨hop, hpc⟩ := Npu.gemmTick_control_last Binary64.ops h s
    have hdiags : (Npu.readFeeds Binary64.ops o s).diags = s.diags ++ feedDiags s o :=
      Npu.readFeeds_diags Binary64.ops o s
    refine ⟨hop, hpc, fun i hi j hj hcap => ?_, fun a ha => ?_, fun a => ?_, ?_⟩
    · rw [Npu.gemmTick_pe, Npu.gemmTick_last _ h]
      exact Npu.afterResult_peek_entry Binary64.ops o s hi hj hcap
    · rw [Npu.gemmTick_last _ h]
      exact Npu.afterResult_peek_outside Binary64.ops o s ha
    · rw [Npu.gemmTick_last _ h]
      exact Npu.mem_afterResult_bufWr Binary64.ops o a s
    · rw [Npu.gemmTick_last _ h, ← hdiags]
      exact Npu.afterResult_diags Binary64.ops o s
  reads a := by
    rw [Npu.gemmTick_bufRd]
    exact Npu.mem_readFeeds_bufRd Binary64.ops o a s
  frame := by
    obtain ⟨hcfg, hprog, hstatus, hcycle, hlog⟩ := Npu.gemmTick_frame Binary64.ops o s
    obtain ⟨hmainRd, hmainWr⟩ := Npu.gemmTick_mainSets Binary64.ops o s
    exact ⟨hcfg, Npu.gemmTick_main Binary64.ops o s, hprog, hstatus, hcycle, hmainRd, hmainWr, hlog⟩

/-- Settles O18: `beginStep` gives the state of the cycle, and the tick leaves its log and cycle for `endStep`. -/
theorem stepContinuesGemm : Obligations.StepContinuesGemm := by
  unfold Obligations.StepContinuesGemm
  intro s o hstatus hop
  have hterm : Npu.terminal s = false := by simp [Npu.terminal, hstatus, hop]
  obtain ⟨-, -, -, hcycle, hlog⟩ := Npu.gemmTick_frame Binary64.ops o (Npu.beginStep s)
  refine ⟨_, gemmTick_result (Npu.beginStep s) o, ?_⟩
  rw [step_of_tick hterm hop, Npu.endStep, hlog, hcycle]
  rfl

end Sys2Proof.Machine
end

section
/-!
The scheduler (42_scheduler): what one step makes of the status, the cycle count, the pc and the log, and how many
steps a program takes. Each is read off the three cases of a step: terminal, tick, fetch.
-/

namespace Sys2Proof.Machine

/-! ## The terminal condition -/

/-- R140. -/
theorem terminal_iff {s : State} :
    Npu.terminal s = true ↔ s.status = .finished ∨ (s.op = none ∧ s.prog.length ≤ s.pc) := by
  simp [Npu.terminal]

/-- A step that is not terminal surrounds its work, which moves neither status nor cycle nor log, by what it does first
and last (R142, R144, R145). -/
theorem step_of_not_terminal {s : State} (h : Npu.terminal s = false) :
    ∃ w u, step s = .next (Npu.endStep s w u) ∧ Npu.WorkFrame (Npu.beginStep s) u := by
  have hstep := step_eq_effect s
  obtain ⟨hterm, -⟩ | ⟨-, o, -, ht⟩ | ⟨-, -, i, -, ht⟩ := step_cases hstep
  · exact absurd (hterm.symm.trans h) nofun
  · exact ⟨.tick o, _, ht ▸ hstep, Npu.gemmTick_frame Binary64.ops o _⟩
  · exact ⟨.instr i, _, ht ▸ hstep, Npu.instrEffect_frame Binary64.ops i _⟩

theorem hostCommand_loadProgram_of_fits {p : List Instr} {s : State} (h : Npu.programFits s.cfg p = true) :
    hostCommand (.loadProgram p) s = .next (Npu.installProgram Binary64.ops p s, .done) := by
  rw [hostCommand, loadProgram, if_pos h]
  rfl

/-! ## Status, cycle and log -/

/-- The status after a step depends on the terminal condition alone (R132). -/
theorem step_status (s : State) : ∃ t, step s = .next t ∧
    t.status = if s.status = .finished ∨ (s.op = none ∧ s.prog.length ≤ s.pc) then .finished else .running := by
  simp only [← terminal_iff]
  cases hterm : Npu.terminal s with
  | true => exact ⟨_, step_of_terminal hterm, rfl⟩
  | false =>
    obtain ⟨w, u, hstep, hu⟩ := step_of_not_terminal hterm
    exact ⟨_, hstep, hu.status⟩

theorem step_cycle (s : State) :
    ∃ t, step s = .next t ∧ t.cycle = if Npu.terminal s then s.cycle else s.cycle + 1 := by
  cases hterm : Npu.terminal s with
  | true => exact ⟨_, step_of_terminal hterm, rfl⟩
  | false =>
    obtain ⟨w, u, hstep, hu⟩ := step_of_not_terminal hterm
    exact ⟨_, hstep, congrArg (· + 1) hu.cycle⟩

theorem terminal_of_empty {s : State} (hop : s.op = none) (hprog : s.prog = []) : Npu.terminal s = true :=
  terminal_iff.2 (.inr ⟨hop, by simp [hprog]⟩)

/-- An IDLE block has nothing to run: its program is empty, and a GEMM in progress would be RUNNING (R131, R132). -/
theorem Inv.terminal_of_idle {s : State} (h : Inv s) (hidle : s.status = .idle) : Npu.terminal s = true := by
  obtain ⟨hprog, -⟩ := h.idleEmpty hidle
  have hop : s.op = none := by
    rw [Option.eq_none_iff_forall_ne_some]
    intro o hop
    obtain ⟨-, -, -, -, hrunning⟩ := h.gemmInProgress o hop
    exact absurd (hidle.symm.trans hrunning) nofun
  exact terminal_of_empty hop hprog

theorem bulkLoad_control (b : BankId) (offset : Nat) (values : List Scalar) (s : State) :
    Npu.SameControl s (Npu.bulkLoad Binary64.ops b offset values s) := by
  rw [Npu.bulkLoad_eq_writeRange]
  exact (Npu.setDiags_control s []).trans (Npu.writeRange_control ..)

/-- Settles O42: a step's status by the terminal condition, the host's by what each command leaves alone. -/
theorem statusTransitions : Obligations.StatusTransitions := by
  unfold Obligations.StatusTransitions
  refine fun s => ⟨⟨_, rfl, rfl⟩, fun p hfits => ⟨_, hostCommand_loadProgram_of_fits hfits, rfl⟩, step_status s,
    fun b offset values => ⟨_, rfl, (bulkLoad_control b offset values s).status⟩,
    fun b addr => ⟨_, _, rfl, ?_⟩, ⟨_, _, rfl, rfl⟩, fun h hidle => ?_, fun h hready hprog => ?_,
    fun h hfin => (h.finishedDone hfin).1⟩
  · rw [hostRead_snd]
  · exact ⟨_, step_of_terminal (h.terminal_of_idle hidle), rfl⟩
  · obtain ⟨-, hcycle, hop⟩ := h.readyFresh hready
    exact ⟨_, step_of_terminal (terminal_of_empty hop hprog), rfl, hcycle⟩

/-- Settles O43: the work of a step leaves the count to what surrounds it. -/
theorem cycleCountsNonTerminalSteps : Obligations.CycleCountsNonTerminalSteps := by
  unfold Obligations.CycleCountsNonTerminalSteps
  exact fun s => ⟨step_cycle s, ⟨_, rfl, rfl⟩, fun p hfits => ⟨_, hostCommand_loadProgram_of_fits hfits, rfl⟩⟩

/-- Settles O46, by the three things a step can do; the work leaves the log for `endStep`. -/
theorem stepAppendsOneLogEntry : Obligations.StepAppendsOneLogEntry := by
  unfold Obligations.StepAppendsOneLogEntry
  intro s
  have hstep := step_eq_effect s
  refine ⟨_, hstep, ?_⟩
  obtain ⟨hterm, ht⟩ | ⟨hterm, o, hop, ht⟩ | ⟨hterm, hop, i, hi, ht⟩ := step_cases hstep <;> rw [ht]
  · exact ⟨fun _ => rfl, by simp [hterm], by simp [hterm]⟩
  · have hlog := (Npu.gemmTick_frame Binary64.ops o (Npu.beginStep s)).log
    simp [hterm, hop, hlog, Npu.entryOf, workTag]
  · have hlog := (Npu.instrEffect_frame Binary64.ops i (Npu.beginStep s)).log
    simp [hterm, hop, hi, hlog, Npu.entryOf, workTag]

/-- Appending to the last hundred entries of a history gives the last hundred of the longer one (R153). -/
theorem logAppend_drop (es : List LogEntry) (e : LogEntry) :
    logAppend (es.drop (es.length - logCap)) e = (es ++ [e]).drop ((es ++ [e]).length - logCap) := by
  have hlast : es.drop (es.length - logCap) ++ [e] = (es ++ [e]).drop (es.length - logCap) :=
    (List.drop_append_of_le_length (Nat.sub_le ..)).symm
  simp only [logAppend, hlast, List.drop_drop, List.length_drop, List.length_append, List.length_singleton]
  generalize logCap = cap
  congr 1
  omega

/-- Settles O45, by induction on the entries from the last one. -/
theorem logKeepsLastHundred : Obligations.LogKeepsLastHundred := by
  unfold Obligations.LogKeepsLastHundred
  intro es
  have hlog : es.foldl logAppend [] = es.drop (es.length - logCap) := by
    induction es using List.reverseRecOn with
    | nil => rfl
    | append_singleton es e ih => rw [List.foldl_append, List.foldl_cons, List.foldl_nil, ih, logAppend_drop]
  rw [logCap] at hlog
  refine ⟨hlog, ?_⟩
  rw [hlog, List.length_drop]
  omega

/-! ## The pc -/

theorem isGemm_iff {i : Instr} : isGemm i = true ↔ ∃ addrA addrB addrC, i = .gemm addrA addrB addrC := by
  cases i <;> simp [isGemm]

/-- One cycle of an instruction other than GEMM is all of it (R147, R148). -/
theorem instrEffect_control_of_not_gemm {i : Instr} (h : isGemm i = false) (s : State) :
    (Npu.instrEffect Binary64.ops i s).op = s.op ∧ (Npu.instrEffect Binary64.ops i s).pc = s.pc + 1 := by
  obtain ⟨addrA, addrB, addrC, rfl, -⟩ | ⟨u, heff, hu, -⟩ := Npu.instrEffect_cases Binary64.ops i s
  · cases h
  · rw [heff]
    exact ⟨hu.op, congrArg (· + 1) hu.pc⟩

theorem gemmTick_pc (o : GemmOp) (s : State) :
    (Npu.gemmTick Binary64.ops o s).pc = if o.tick = o.total - 1 then s.pc + 1 else s.pc := by
  split
  case isTrue h => exact (Npu.gemmTick_control_last Binary64.ops h s).2
  case isFalse h => exact (Npu.gemmTick_control_notLast Binary64.ops h s).2

/-- A GEMM's fetch cycle moves the pc when its tick 0 is the last one, on a 1×1 array (R148). -/
theorem gemmEffect_pc (addrA addrB addrC : Nat) (s : State) :
    (Npu.gemmEffect Binary64.ops addrA addrB addrC s).pc = if s.cfg.N ≠ 1 then s.pc else s.pc + 1 := by
  rw [Npu.gemmEffect_eq_tick, gemmTick_pc, ite_not]
  simp only [Npu.gemmOpOf_last_iff s.cfg.N_pos]
  rfl

theorem instrEffect_pc (i : Instr) (s : State) :
    (Npu.instrEffect Binary64.ops i s).pc = if isGemm i = true ∧ s.cfg.N ≠ 1 then s.pc else s.pc + 1 := by
  cases hi : isGemm i with
  | false => simpa using (instrEffect_control_of_not_gemm hi s).2
  | true =>
    obtain ⟨addrA, addrB, addrC, rfl⟩ := isGemm_iff.1 hi
    simpa [Npu.instrEffect] using gemmEffect_pc addrA addrB addrC s

/-- Settles O44, by the three things a step can do: only the work of a cycle moves the pc. -/
theorem pcMovesOnlyByOne : Obligations.PcMovesOnlyByOne := by
  unfold Obligations.PcMovesOnlyByOne
  refine fun s => ⟨?_, ⟨_, rfl, rfl⟩, fun p hfits => ⟨_, hostCommand_loadProgram_of_fits hfits, rfl⟩⟩
  have hstep := step_eq_effect s
  refine ⟨_, hstep, ?_⟩
  obtain ⟨hterm, ht⟩ | ⟨hterm, o, hop, ht⟩ | ⟨hterm, hop, i, hi, ht⟩ := step_cases hstep <;> rw [ht]
  · simp [hterm]
  · simp [hterm, hop, gemmTick_pc]
  · refine ⟨by simp [hterm], by simp [hop], fun j _ _ hj => ?_⟩
    obtain rfl : i = j := Option.some.inj (hi.symm.trans hj)
    exact instrEffect_pc i (Npu.beginStep s)

/-! ## One step, from the state before it -/

/-- Settles O39: a step with an instruction at its pc is not terminal, and exec is the instruction's effect. -/
theorem stepRunsFetchedInstruction : Obligations.StepRunsFetchedInstruction := by
  unfold Obligations.StepRunsFetchedInstruction
  exact fun s i hstatus hop hi =>
    ⟨_, exec_eq_effect i (Npu.beginStep s), step_of_fetch (not_terminal_of_fetch hstatus hi) hop hi⟩

/-- Settles O41: the state after a terminal step is FINISHED, so the next step is terminal too. -/
theorem terminalStepOnlyFinishes : Obligations.TerminalStepOnlyFinishes := by
  unfold Obligations.TerminalStepOnlyFinishes
  exact fun s h => ⟨step_of_terminal (terminal_iff.2 h), step_of_terminal (terminal_iff.2 (.inl rfl))⟩

/-! ## Host reads -/

theorem hostRead_fst (b : BankId) (addr : Nat) (s : State) :
    (Npu.hostRead Binary64.ops b addr s).1 = Npu.peek Binary64.ops b addr s := by
  rw [Npu.hostRead, Npu.memRead_fst]
  exact Npu.peek_congr _ rfl b (by cases b <;> rfl) addr

/-- Settles O59, by the value and the state of the read apart. -/
theorem hostReadChangesNothing : Obligations.HostReadChangesNothing := by
  unfold Obligations.HostReadChangesNothing
  intro b addr s
  rw [hostCommand, hostRead_snd, hostRead_fst]
  rfl

/-- Settles O60: observe is a record of these fields of the state. -/
theorem observeShowsOnlyOutputs : Obligations.ObserveShowsOnlyOutputs := by
  unfold Obligations.ObserveShowsOnlyOutputs
  exact fun _ _ _ _ _ => ⟨rfl, rfl⟩

end Sys2Proof.Machine
end

section
/-!
The length of a program's run (42_scheduler R156). `stepsLeft` counts the steps from a state to the end of its program;
every step that is not terminal takes one off, and the terminal condition holds when none is left.
-/

namespace Sys2Proof.Machine

/-! ## The cycles of a program -/

theorem cyclesOf_eq (N : Nat) (i : Instr) : cyclesOf N i = if isGemm i then gemmTicks N else 1 := by
  cases i <;> rfl

theorem cyclesOf_pos {N : Nat} (hN : 0 < N) (i : Instr) : 0 < cyclesOf N i := by
  rw [cyclesOf_eq]
  split
  · simp only [gemmTicks]
    omega
  · exact Nat.one_pos

theorem programCycles_nil (N : Nat) : programCycles N [] = 0 := rfl

theorem programCycles_cons (N : Nat) (i : Instr) (p : List Instr) :
    programCycles N (i :: p) = cyclesOf N i + programCycles N p :=
  List.sum_cons

/-- R156, with the GEMMs moved to the other side. -/
theorem programCycles_add_gemms (N : Nat) (p : List Instr) :
    programCycles N p + (p.filter isGemm).length = p.length + (p.filter isGemm).length * gemmTicks N := by
  induction p with
  | nil => simp [programCycles_nil]
  | cons i p ih =>
    rw [programCycles_cons, cyclesOf_eq, List.filter_cons, List.length_cons]
    cases isGemm i with
    | true => simp only [if_true, List.length_cons, Nat.succ_mul]; omega
    | false => simp only [Bool.false_eq_true, if_false]; omega

theorem programCycles_eq (N : Nat) (p : List Instr) :
    programCycles N p = (p.length - (p.filter isGemm).length) + (p.filter isGemm).length * gemmTicks N := by
  have hsum := programCycles_add_gemms N p
  have hle := List.length_filter_le isGemm p
  omega

/-! ## The steps left -/

/-- The cycles of the program from the slot `k` on. -/
def cyclesFrom (s : State) (k : Nat) : Nat := programCycles s.cfg.N (s.prog.drop k)

/-- The steps to the end of the program: the ticks of the GEMM in progress, and the cycles of the instructions after
it. -/
def stepsLeft (s : State) : Nat :=
  match s.op with
  | none => cyclesFrom s s.pc
  | some o => o.total - o.tick + cyclesFrom s (s.pc + 1)

theorem stepsLeft_of_none {s : State} (h : s.op = none) : stepsLeft s = cyclesFrom s s.pc := by
  rw [stepsLeft, h]

theorem stepsLeft_of_some {s : State} {o : GemmOp} (h : s.op = some o) :
    stepsLeft s = o.total - o.tick + cyclesFrom s (s.pc + 1) := by
  rw [stepsLeft, h]

theorem cyclesFrom_of_slot {s : State} {k : Nat} {i : Instr} (h : s.prog[k]? = some i) :
    cyclesFrom s k = cyclesOf s.cfg.N i + cyclesFrom s (k + 1) := by
  obtain ⟨hk, rfl⟩ := List.getElem?_eq_some_iff.1 h
  rw [cyclesFrom, List.drop_eq_getElem_cons hk, programCycles_cons, cyclesFrom]

theorem cyclesFrom_congr {s t : State} (hcfg : t.cfg = s.cfg) (hprog : t.prog = s.prog) (k : Nat) :
    cyclesFrom t k = cyclesFrom s k := by
  rw [cyclesFrom, cyclesFrom, hcfg, hprog]

/-- The program is done when no cycle of it is left, and not before. -/
theorem cyclesFrom_eq_zero_iff {s : State} {k : Nat} : cyclesFrom s k = 0 ↔ s.prog.length ≤ k := by
  constructor
  · intro h
    by_contra hk
    have hslot : s.prog[k]? = some s.prog[k] := List.getElem?_eq_getElem (Nat.lt_of_not_le hk)
    have hpos := cyclesOf_pos s.cfg.N_pos s.prog[k]
    rw [cyclesFrom_of_slot hslot] at h
    omega
  · intro h
    rw [cyclesFrom, List.drop_eq_nil_of_le h, programCycles_nil]

/-- A GEMM in progress has a tick left and its instruction at the pc, which is inside the program (10_state R28, R30).
This is all of the invariant that the length of a run needs, and it holds after loadProgram whatever main memory
holds. -/
structure OnTrack (s : State) : Prop where
  pcInProgram : s.pc ≤ s.prog.length
  tickLeft : ∀ o ∈ s.op, o.tick < o.total ∧ s.pc < s.prog.length

theorem OnTrack.terminal_iff {s : State} (h : OnTrack s) (hstatus : s.status ≠ .finished) :
    Npu.terminal s = true ↔ stepsLeft s = 0 := by
  rw [Machine.terminal_iff]
  cases hop : s.op with
  | none => simp [hstatus, stepsLeft_of_none hop, cyclesFrom_eq_zero_iff]
  | some o =>
    obtain ⟨htick, -⟩ := h.tickLeft o hop
    rw [stepsLeft_of_some hop]
    simp [hstatus]
    omega

/-! ## What one cycle takes off -/

/-- A tick of a GEMM takes one off, and the last one leaves the instructions after the GEMM. -/
theorem gemmTick_stepsLeft {o : GemmOp} {s : State} (htick : o.tick < o.total) (hpc : s.pc < s.prog.length) :
    OnTrack (Npu.gemmTick Binary64.ops o s) ∧
      stepsLeft (Npu.gemmTick Binary64.ops o s) + 1 = o.total - o.tick + cyclesFrom s (s.pc + 1) := by
  obtain ⟨hcfg, hprog, -, -, -⟩ := Npu.gemmTick_frame Binary64.ops o s
  by_cases hlast : o.tick = o.total - 1
  · obtain ⟨hop, hpc'⟩ := Npu.gemmTick_control_last Binary64.ops hlast s
    refine ⟨⟨?_, by simp [hop]⟩, ?_⟩
    · rw [hpc', hprog]
      exact hpc
    · rw [stepsLeft_of_none hop, cyclesFrom_congr hcfg hprog, hpc']
      omega
  · obtain ⟨hop, hpc'⟩ := Npu.gemmTick_control_notLast Binary64.ops hlast s
    refine ⟨⟨?_, ?_⟩, ?_⟩
    · rw [hpc', hprog]
      exact hpc.le
    · rw [hop, hpc', hprog]
      rintro _ ⟨⟩
      exact ⟨by simp only; omega, hpc⟩
    · rw [stepsLeft_of_some hop, cyclesFrom_congr hcfg hprog, hpc']
      simp only
      omega

theorem instrEffect_stepsLeft {i : Instr} {s : State} (hop : s.op = none) (hi : s.prog[s.pc]? = some i) :
    OnTrack (Npu.instrEffect Binary64.ops i s) ∧
      stepsLeft (Npu.instrEffect Binary64.ops i s) + 1 = cyclesOf s.cfg.N i + cyclesFrom s (s.pc + 1) := by
  obtain ⟨hpc, -⟩ := List.getElem?_eq_some_iff.1 hi
  cases hg : isGemm i with
  | false =>
    obtain ⟨hcfg, hprog, -, -, -⟩ := Npu.instrEffect_frame Binary64.ops i s
    obtain ⟨hop', hpc'⟩ := instrEffect_control_of_not_gemm hg s
    refine ⟨⟨?_, by simp [hop', hop]⟩, ?_⟩
    · rw [hpc', hprog]
      exact hpc
    · rw [stepsLeft_of_none (hop'.trans hop), cyclesFrom_congr hcfg hprog, hpc', cyclesOf_eq, hg]
      simp only [Bool.false_eq_true, if_false]
      omega
  | true =>
    obtain ⟨addrA, addrB, addrC, rfl⟩ := isGemm_iff.1 hg
    have hticks : 0 < gemmTicks s.cfg.N := cyclesOf_pos s.cfg.N_pos (.gemm addrA addrB addrC)
    exact gemmTick_stepsLeft (o := Npu.gemmOpOf s.cfg.N addrA addrB addrC)
      (s := Npu.startGemm Binary64.ops addrA addrB addrC s) hticks hpc

/-! ## The run -/

/-- The state `s` after `k` steps of a run of `p` that takes `n`. -/
structure Underway (p : List Instr) (n k : Nat) (s : State) : Prop extends OnTrack s where
  prog : s.prog = p
  notFinished : s.status ≠ .finished
  cycle : s.cycle = k
  left : stepsLeft s + k = n

section

variable {p : List Instr} {n k : Nat} {s t : State}

/-- Work that takes one off the steps left takes the run one step on. -/
theorem Underway.endStep (h : Underway p n k s) {u : State} (hu : Npu.WorkFrame (Npu.beginStep s) u)
    (htrack : OnTrack u) (hleft : stepsLeft u + 1 = stepsLeft s) (w : Work) :
    Underway p n (k + 1) (Npu.endStep s w u) where
  pcInProgram := htrack.pcInProgram
  tickLeft := htrack.tickLeft
  prog := hu.prog.trans h.prog
  notFinished := by simp [hu.status]
  cycle := by rw [Npu.endStep_cycle, hu.cycle, Npu.beginStep_cycle, h.cycle]
  left := by
    have heq : stepsLeft (Npu.endStep s w u) = stepsLeft u := rfl
    have hsum := h.left
    omega

theorem Underway.step (h : Underway p n k s) (hk : k < n) :
    ∃ t, Machine.step s = .next t ∧ Underway p n (k + 1) t := by
  have hstep := step_eq_effect s
  refine ⟨_, hstep, ?_⟩
  obtain ⟨hterm, -⟩ | ⟨-, o, hop, ht⟩ | ⟨-, hop, i, hi, ht⟩ := step_cases hstep
  · have hzero := (h.terminal_iff h.notFinished).1 hterm
    have hsum := h.left
    omega
  · obtain ⟨htick, hpc⟩ := h.tickLeft o hop
    obtain ⟨htrack, hleft⟩ := gemmTick_stepsLeft (s := Npu.beginStep s) htick hpc
    rw [ht]
    exact h.endStep (Npu.gemmTick_frame ..) htrack (hleft.trans (stepsLeft_of_some hop).symm) _
  · obtain ⟨htrack, hleft⟩ := instrEffect_stepsLeft (s := Npu.beginStep s) hop hi
    rw [ht]
    exact h.endStep (Npu.instrEffect_frame ..) htrack
      (hleft.trans ((cyclesFrom_of_slot hi).symm.trans (stepsLeft_of_none hop).symm)) _

/-- The step after the last one is terminal and finds the whole program done (R140, R141). -/
theorem Underway.finish (h : Underway p n n s) :
    Machine.step s = .next (Npu.finish s) ∧ s.op = none ∧ s.pc = p.length := by
  have hzero : stepsLeft s = 0 := by
    have hsum := h.left
    omega
  have hterm := (h.terminal_iff h.notFinished).2 hzero
  obtain hfin | ⟨hop, hpc⟩ := Machine.terminal_iff.1 hterm
  · exact absurd hfin h.notFinished
  · rw [← h.prog]
    exact ⟨step_of_terminal hterm, hop, le_antisymm h.pcInProgram hpc⟩

theorem run_succ (k : Nat) (s : State) :
    Host.Core.run Sys2Proof.core (k + 1) s = Host.Core.run Sys2Proof.core k (Npu.stepEffect Binary64.ops s) := by
  have hs : Sys2Proof.core.step s = .next (Npu.stepEffect Binary64.ops s) := step_eq_effect s
  simp only [Host.Core.run, hs]

/-- One step more at the end of a run. -/
theorem run_succ_of_next (h : Host.Core.run Sys2Proof.core k s = .next t) :
    Host.Core.run Sys2Proof.core (k + 1) s = Machine.step t := by
  induction k generalizing s with
  | zero =>
    obtain rfl : s = t := Host.Outcome.next.inj h
    rw [run_succ, step_eq_effect]
    rfl
  | succ k ih =>
    rw [run_succ] at h ⊢
    exact ih h

theorem Underway.run (h : Underway p n 0 s) (hk : k ≤ n) :
    ∃ t, Host.Core.run Sys2Proof.core k s = .next t ∧ Underway p n k t := by
  induction k with
  | zero => exact ⟨s, rfl, h⟩
  | succ k ih =>
    obtain ⟨u, hrun, hu⟩ := ih (Nat.le_of_succ_le hk)
    obtain ⟨t, hstep, ht⟩ := hu.step hk
    exact ⟨t, (run_succ_of_next hrun).trans hstep, ht⟩

end

theorem underway_fresh (c : Config) (main : Memory Scalar) (p : List Instr) :
    Underway p (programCycles c.N p) 0 (Npu.freshState 0#64 c main p .ready) :=
  ⟨⟨Nat.zero_le _, nofun⟩, rfl, nofun, rfl, rfl⟩

/-- Settles O48, by counting the steps left from the load on. -/
theorem programRunLength : Obligations.ProgramRunLength := by
  unfold Obligations.ProgramRunLength
  intro p s t hload g n
  obtain ⟨-, rfl⟩ := loadProgram_eq_next hload
  have hstart := underway_fresh s.cfg s.main p
  rw [programCycles_eq] at hstart
  refine ⟨fun k hk => ?_, ?_⟩
  · obtain ⟨u, hrun, hu⟩ := hstart.run hk
    exact ⟨u, hrun, hu.notFinished, hu.cycle⟩
  · obtain ⟨u, hrun, hu⟩ := hstart.run le_rfl
    obtain ⟨hstep, hop, hpc⟩ := hu.finish
    exact ⟨Npu.finish u, (run_succ_of_next hrun).trans hstep, rfl, hpc, hu.cycle, hop⟩

end Sys2Proof.Machine
end

section
/-!
Data movement (43_data_movement): LOAD and STORE are one copy between the two banks, in opposite directions. What a copy
makes of the state is said once, for any two different banks, and a copy followed by the copy back is read off it.
-/

namespace Sys2Proof.Npu

variable {S : Type}

@[simp] theorem advancePc_readSet (b : BankId) (s : State S) : readSet b (advancePc s) = readSet b s := rfl

@[simp] theorem advancePc_writeSet (b : BankId) (s : State S) : writeSet b (advancePc s) = writeSet b s := rfl

@[simp] theorem advancePc_peek (K : ScalarOps S) (b : BankId) (a : Nat) (s : State S) :
    peek K b a (advancePc s) = peek K b a s := rfl

variable [DecidableEq S]

/-- The copy loop reads no bank but its source. -/
theorem copyCells_readSet_other (K : ScalarOps S) {f t b : BankId} (hb : b ≠ f) (src dest size : Nat) (s : State S) :
    readSet b (copyCells K f t src dest size s) = readSet b s :=
  forRange_frame (readSet b) (fun i u => by simp [copyElem, hb]) size s

/-- The copy loop writes no bank but its destination. -/
theorem copyCells_writeSet_other (K : ScalarOps S) {f t b : BankId} (hb : b ≠ t) (src dest size : Nat) (s : State S) :
    writeSet b (copyCells K f t src dest size s) = writeSet b s :=
  forRange_frame (writeSet b) (fun i u => by simp [copyElem, hb]) size s

end Sys2Proof.Npu

namespace Sys2Proof.Machine

/-! ## One copy -/

/-- What copying `size` cells of bank `f` from `src` to bank `t` at `dest` makes of the state `s`: `u` is the state
after it (43_data_movement R170 to R172). -/
structure CopyResult (f t : BankId) (src dest size : Nat) (s u : State) : Prop where
  pc : u.pc = s.pc + 1
  sourceCells : Npu.cells f u = Npu.cells f s
  destCells : ∀ a, Npu.peek Binary64.ops t a u =
    if dest ≤ a ∧ a < dest + size ∧ a < Npu.cap t s then Npu.peek Binary64.ops f (src + (a - dest)) s
    else Npu.peek Binary64.ops t a s
  sourceReads : ∀ a, a ∈ Npu.readSet f u ↔ a ∈ Npu.readSet f s ∨ (src ≤ a ∧ a < src + size)
  destWrites : ∀ a, a ∈ Npu.writeSet t u ↔ a ∈ Npu.writeSet t s ∨ (dest ≤ a ∧ a < dest + size)
  sourceWrites : Npu.writeSet f u = Npu.writeSet f s
  destReads : Npu.readSet t u = Npu.readSet t s
  diags : u.diags = s.diags ++ copyDiags s f t src dest size
  frame : SameButAccess s u

/-- The effect LOAD and STORE share: the copy loop, then the move of the pc. -/
theorem copyCells_result {f t : BankId} (hft : f ≠ t) (src dest size : Nat) (s : State) :
    CopyResult f t src dest size s (Npu.advancePc (Npu.copyCells Binary64.ops f t src dest size s)) where
  pc := congrArg (· + 1) (Npu.copyCells_control Binary64.ops f t src dest size s).pc
  sourceCells := Npu.copyCells_cells_other Binary64.ops hft src dest size s
  destCells a := by simpa using Npu.copyCells_peek Binary64.ops hft src dest size s t a
  sourceReads a := by simpa using Npu.copyCells_readSet Binary64.ops f t src dest size s f a
  destWrites a := by simpa using Npu.copyCells_writeSet Binary64.ops f t src dest size s t a
  sourceWrites := Npu.copyCells_writeSet_other Binary64.ops hft src dest size s
  destReads := Npu.copyCells_readSet_other Binary64.ops hft.symm src dest size s
  diags := Npu.copyCells_diags Binary64.ops f t src dest size s
  frame :=
    have h := Npu.copyCells_control Binary64.ops f t src dest size s
    ⟨h.cfg, h.pe, h.prog, h.status, h.cycle, h.op, h.log⟩

theorem exec_load_result (src dest size : Nat) (s : State) :
    ∃ t, exec (.load src dest size) s = .next t ∧ CopyResult .main .buf src dest size s t :=
  ⟨_, rfl, copyCells_result (by decide) src dest size s⟩

theorem exec_store_result (src dest size : Nat) (s : State) :
    ∃ t, exec (.store src dest size) s = .next t ∧ CopyResult .buf .main src dest size s t :=
  ⟨_, rfl, copyCells_result (by decide) src dest size s⟩

/-! ## A copy and the copy back -/

section
variable {f t : BankId} {src dest size : Nat} {s u v : State}

theorem CopyResult.cfg (h : CopyResult f t src dest size s u) : u.cfg = s.cfg := h.frame.left

theorem CopyResult.cap (h : CopyResult f t src dest size s u) (b : BankId) : Npu.cap b u = Npu.cap b s :=
  Npu.cap_congr h.cfg b

theorem CopyResult.peek_source (h : CopyResult f t src dest size s u) (a : Nat) :
    Npu.peek Binary64.ops f a u = Npu.peek Binary64.ops f a s :=
  Npu.peek_congr Binary64.ops h.cfg f h.sourceCells a

/-- After the copy back every cell of the source bank is as before, except that an existing cell of the range becomes 0
where its copy had no cell to go to (43_data_movement R173). -/
theorem CopyResult.peek_copyBack (h : CopyResult f t src dest size s u) (back : CopyResult t f dest src size u v)
    (a : Nat) :
    Npu.peek Binary64.ops f a v =
      if (src ≤ a ∧ a < src + size ∧ a < Npu.cap f s) ∧ Npu.cap t s ≤ dest + (a - src) then 0#64
      else Npu.peek Binary64.ops f a s := by
  rw [back.destCells, h.cap, h.peek_source]
  by_cases hrange : src ≤ a ∧ a < src + size ∧ a < Npu.cap f s
  · rw [if_pos hrange]
    by_cases hlost : Npu.cap t s ≤ dest + (a - src)
    · rw [if_pos ⟨hrange, hlost⟩]
      exact Npu.peek_out Binary64.ops t _ u ((h.cap t).le.trans hlost)
    · have haddr : src + (dest + (a - src) - dest) = a := by omega
      rw [h.destCells, if_pos (by omega), haddr, if_neg fun ⟨_, hout⟩ => hlost hout]
  · rw [if_neg hrange, if_neg fun ⟨hin, _⟩ => hrange hin]

end

/-! ## The obligations -/

/-- Settles O12: LOAD is the copy from main memory to the buffer. -/
theorem loadCopiesMainToBuffer : Obligations.LoadCopiesMainToBuffer := by
  unfold Obligations.LoadCopiesMainToBuffer
  intro src dest size s
  obtain ⟨t, hexec, h⟩ := exec_load_result src dest size s
  exact ⟨t, hexec, h.pc, h.sourceCells, h.destCells, h.sourceReads, h.destWrites, h.sourceWrites, h.destReads,
    h.diags, h.frame⟩

/-- Settles O13: STORE is the copy from the buffer to main memory. -/
theorem storeCopiesBufferToMain : Obligations.StoreCopiesBufferToMain := by
  unfold Obligations.StoreCopiesBufferToMain
  intro src dest size s
  obtain ⟨t, hexec, h⟩ := exec_store_result src dest size s
  exact ⟨t, hexec, h.pc, h.sourceCells, h.destCells, h.sourceReads, h.destWrites, h.destReads, h.sourceWrites,
    h.diags, h.frame⟩

/-- Settles O23: STORE back is the copy back, which loses exactly the cells whose copy had no buffer cell. -/
theorem loadStoreRoundTrip : Obligations.LoadStoreRoundTrip := by
  unfold Obligations.LoadStoreRoundTrip
  intro src dest size s
  obtain ⟨t, hload, h⟩ := exec_load_result src dest size s
  obtain ⟨u, hstore, back⟩ := exec_store_result dest src size t
  have hmain := Npu.cap_main s
  have hbuf := Npu.cap_buf s
  refine ⟨t, u, hload, hstore, fun _ _ a => ?_, fun i _ _ _ => ?_, fun i _ _ _ => ?_⟩ <;>
    rw [h.peek_copyBack back]
  · exact if_neg (by omega)
  · exact if_pos (by omega)
  · exact if_neg (by omega)

end Sys2Proof.Machine
end

section
/-!
Addition over BINARY64, for the accumulator of a GEMM (44_gemm R199): a sum is a NaN, an infinite operand, or the exact
sum of two finite values rounded once. Adding +0 therefore keeps every value but −0, and no sum is −0 unless both
operands are.
-/

namespace Sys2Proof.Binary64

/-! ## Sign and magnitude of a pattern -/

theorem sign_eq_decide (x : Scalar) : sign x = decide (2 ^ 63 ≤ x.toNat) := BitVec.msb_eq_decide x

theorem pack_toNat (neg : Bool) {mag : Nat} (h : mag < 2 ^ 63) :
    (pack neg mag).toNat = (if neg then 2 ^ 63 else 0) + mag := by
  rw [pack, BitVec.toNat_ofNat, Nat.mod_eq_of_lt]
  split <;> omega

theorem sign_pack (neg : Bool) {mag : Nat} (h : mag < 2 ^ 63) : sign (pack neg mag) = neg := by
  rw [sign_eq_decide, pack_toNat neg h]
  cases neg with
  | true => exact decide_eq_true (Nat.le_add_right ..)
  | false => simpa using h

theorem magnitude_pack (neg : Bool) {mag : Nat} (h : mag < 2 ^ 63) : magnitude (pack neg mag) = mag := by
  rw [magnitude, pack_toNat neg h]
  split <;> omega

/-- A pattern is its sign and its magnitude. -/
theorem pack_sign_magnitude (x : Scalar) : pack (sign x) (magnitude x) = x := by
  have hmag : magnitude x < 2 ^ 63 := Nat.mod_lt _ (by decide)
  apply BitVec.eq_of_toNat_eq
  have hx := x.isLt
  rw [pack_toNat _ hmag, sign_eq_decide, magnitude]
  simp only [decide_eq_true_eq]
  split <;> omega

theorem freeNaN_isNaN (op : NaNSource) (x y : Scalar) : isNaN (freeNaN op x y) = true := by
  have hpayload := (Config.nanPayload op x y).isLt
  rw [isNaN, freeNaN, magnitude_pack _ (by simp only [infMagnitude]; omega)]
  exact decide_eq_true (by omega)

theorem magnitude_lt_infMagnitude {x : Scalar} (hnan : isNaN x = false) (hinf : isInf x = false) :
    magnitude x < infMagnitude := by
  simp only [isNaN, isInf, decide_eq_false_iff_not, beq_eq_false_iff_ne] at hnan hinf
  omega

/-! ## Zeros -/

theorem unitsOf_eq_zero {m : Nat} : unitsOf m = 0 ↔ m = 0 := by
  rw [show (0 : Nat) = unitsOf 0 from rfl]
  exact unitsOf_strictMono.injective.eq_iff

theorem signedUnits_eq_zero {x : Scalar} : signedUnits x = 0 ↔ magnitude x = 0 := by
  rw [← unitsOf_eq_zero, signedUnits]
  split <;> simp

/-- Rounding loses no value of at least one unit. -/
theorem roundMagnitude_ne_zero {num : Nat} (h : num ≠ 0) : roundMagnitude num 1 ≠ 0 := by
  obtain ⟨lo, -, hhi, hround⟩ := roundMagnitude_eq_neighbour num Nat.one_pos
  have hlo : lo ≠ 0 := by
    rintro rfl
    have hone : unitsOf (0 + 1) = 1 := rfl
    omega
  rw [hround]
  simp only [infMagnitude]
  split <;> omega

/-! ## Addition -/

/-- What `add` gives on two finite values: the exact sum, rounded once. -/
def finiteSum (x y : Scalar) : Scalar :=
  let units := signedUnits x + signedUnits y
  if units = 0 then pack (sign x && sign y) 0 else pack (decide (units < 0)) (roundMagnitude units.natAbs 1)

/-- What a sum can be: a NaN, an infinite operand, or the rounded sum of two finite values. -/
theorem add_cases (x y : Scalar) :
    ((isNaN x = true ∨ isNaN y = true ∨ isInf x = true ∧ isInf y = true) ∧ isNaN (add x y) = true) ∨
    (isInf x = true ∧ add x y = x) ∨ (isInf y = true ∧ add x y = y) ∨
    (magnitude x < infMagnitude ∧ magnitude y < infMagnitude ∧ add x y = finiteSum x y) := by
  unfold add
  split
  case isTrue hnan =>
    rw [Bool.or_eq_true] at hnan
    exact .inl ⟨hnan.imp_right .inl, freeNaN_isNaN ..⟩
  case isFalse hnan =>
    simp only [Bool.or_eq_true, not_or, Bool.not_eq_true] at hnan
    split
    case isTrue hinf =>
      split
      case isTrue hboth =>
        rw [Bool.and_eq_true] at hboth
        exact .inl ⟨.inr (.inr ⟨hinf, hboth.1⟩), freeNaN_isNaN ..⟩
      case isFalse => exact .inr (.inl ⟨hinf, rfl⟩)
    case isFalse hinf =>
      split
      case isTrue hinfy => exact .inr (.inr (.inl ⟨hinfy, rfl⟩))
      case isFalse hinfy =>
        rw [Bool.not_eq_true] at hinf hinfy
        exact .inr (.inr (.inr ⟨magnitude_lt_infMagnitude hnan.1 hinf, magnitude_lt_infMagnitude hnan.2 hinfy, rfl⟩))

/-- A finite value other than −0 is its own sum with +0: it is representable. -/
theorem finiteSum_zero {x : Scalar} (hfin : magnitude x < infMagnitude) (hx : x ≠ 0x8000000000000000#64) :
    finiteSum x 0#64 = x := by
  have hself := pack_sign_magnitude x
  have hunits : signedUnits x + signedUnits 0#64 = signedUnits x := Int.add_zero _
  have hsign : (sign x && sign 0#64) = false := Bool.and_false _
  simp only [finiteSum, hunits, hsign, signedUnits_eq_zero]
  split
  case isTrue hzero =>
    rw [hzero] at hself
    cases hneg : sign x with
    | false => rwa [hneg] at hself
    | true =>
      rw [hneg] at hself
      exact absurd hself.symm hx
  case isFalse hzero =>
    have hpos : 0 < unitsOf (magnitude x) := Nat.pos_of_ne_zero (mt unitsOf_eq_zero.1 hzero)
    have hround : roundMagnitude (unitsOf (magnitude x)) 1 = magnitude x := by
      simpa using representableValuesRoundToThemselves (magnitude x) 1 Nat.one_pos hfin
    have habs : (signedUnits x).natAbs = unitsOf (magnitude x) := by
      rw [signedUnits]
      split <;> simp
    have hneg : decide (signedUnits x < 0) = sign x := by
      rw [signedUnits]
      cases sign x with
      | true => simpa using hpos
      | false => simp
    rw [habs, hround, hneg, hself]

/-- A sum of finite values is −0 only when both are −0: two zeros cancel to +0, and no other sum rounds to a zero. -/
theorem finiteSum_eq_negZero {x y : Scalar} (h : finiteSum x y = 0x8000000000000000#64) :
    x = 0x8000000000000000#64 ∧ y = 0x8000000000000000#64 := by
  unfold finiteSum at h
  simp only at h
  split at h
  case isTrue hzero =>
    have hneg : (sign x && sign y) = true := by
      rw [← sign_pack (sign x && sign y) (mag := 0) (by decide), h]
      decide
    obtain ⟨hx, hy⟩ := Bool.and_eq_true .. ▸ hneg
    simp only [signedUnits, hx, hy, if_true] at hzero
    have hmagx : magnitude x = 0 := unitsOf_eq_zero.1 (by omega)
    have hmagy : magnitude y = 0 := unitsOf_eq_zero.1 (by omega)
    rw [← pack_sign_magnitude x, ← pack_sign_magnitude y, hx, hy, hmagx, hmagy]
    exact ⟨rfl, rfl⟩
  case isFalse hunits =>
    have hlt : roundMagnitude (signedUnits x + signedUnits y).natAbs 1 < 2 ^ 63 :=
      (Nat.min_le_right ..).trans_lt (by decide)
    have hmag := congrArg magnitude h
    rw [magnitude_pack _ hlt] at hmag
    exact absurd hmag (roundMagnitude_ne_zero (Int.natAbs_ne_zero.2 hunits))

/-! ## Adding +0 -/

/-- R199: adding +0 changes no value but −0. -/
theorem add_zero_same {x : Scalar} (hx : x ≠ 0x8000000000000000#64) : same (add x 0#64) x := by
  have hnan0 : isNaN 0#64 = false := by decide
  have hinf0 : isInf 0#64 = false := by decide
  obtain ⟨hop, hadd⟩ | ⟨-, hadd⟩ | ⟨hinf, -⟩ | ⟨hfin, -, hadd⟩ := add_cases x 0#64
  · exact .inr ⟨hadd, by simpa [hnan0, hinf0] using hop⟩
  · exact .inl hadd
  · rw [hinf0] at hinf
    cases hinf
  · exact .inl (hadd.trans (finiteSum_zero hfin hx))

theorem eq_negZero_of_add {x y : Scalar} (h : add x y = 0x8000000000000000#64) :
    x = 0x8000000000000000#64 ∧ y = 0x8000000000000000#64 := by
  have hnanZ : isNaN 0x8000000000000000#64 = false := by decide
  have hinfZ : isInf 0x8000000000000000#64 = false := by decide
  obtain ⟨-, hadd⟩ | ⟨hinf, hadd⟩ | ⟨hinf, hadd⟩ | ⟨-, -, hadd⟩ := add_cases x y <;> rw [h] at hadd
  · exact absurd (hnanZ.symm.trans hadd) nofun
  · rw [← hadd, hinfZ] at hinf
    cases hinf
  · rw [← hadd, hinfZ] at hinf
    cases hinf
  · exact finiteSum_eq_negZero hadd.symm

/-- Settles O38, by what a sum can be. -/
theorem addingZeroKeepsAccumulator : Obligations.AddingZeroKeepsAccumulator := by
  unfold Obligations.AddingZeroKeepsAccumulator
  exact ⟨fun _ => add_zero_same, fun _ _ => eq_negZero_of_add⟩

/-! ## Values up to which NaN -/

theorem same.refl (x : Scalar) : same x x := .inl rfl

theorem same.trans {x y z : Scalar} (hxy : same x y) (hyz : same y z) : same x z := by
  obtain rfl | ⟨hx, hy⟩ := hxy
  · exact hyz
  · obtain rfl | ⟨-, hz⟩ := hyz
    · exact .inr ⟨hx, hy⟩
    · exact .inr ⟨hx, hz⟩

end Sys2Proof.Binary64
end

section
/-!
What the 2N − 1 ticks of a GEMM make of the array (44_gemm R199, R200, R203, R204), over any scalar type. Both operands
of the product k meet in the PE (r, c) in tick r + c + k, so its accumulator passes through three phases: zero before
the first product, then one product per tick, then zeros added. The ticks end in the second phase or in the third.
-/

namespace Sys2Proof

variable {S : Type}

/-! ## How many rows a tick feeds -/

theorem feeds_iff {N t r : Nat} : feeds N t r = true ↔ r ≤ t ∧ t < r + N := by
  simp only [feeds, Bool.and_eq_true, decide_eq_true_eq]
  omega

/-- The rows fed among the first `m` are those from t − N + 1 to t (R203). -/
theorem length_filter_feeds {N : Nat} (hN : 0 < N) (t m : Nat) :
    ((List.range m).filter (fun k => feeds N t k)).length = min m (t + 1) - (t - (N - 1)) := by
  induction m with
  | zero => simp
  | succ m ih =>
    rw [List.range_succ, List.filter_append, List.length_append, ih, List.filter_singleton]
    cases hfed : feeds N t m with
    | true =>
      have hm := feeds_iff.1 hfed
      simp only [cond_true, List.length_singleton]
      omega
    | false =>
      have hm : ¬ (m ≤ t ∧ t < m + N) := by simp [← feeds_iff, hfed]
      simp only [cond_false, List.length_nil]
      omega

/-- Settles O19, by counting the rows one after the other. -/
theorem feedCountOfTick : Obligations.FeedCountOfTick := by
  unfold Obligations.FeedCountOfTick
  intro N t hN ht
  rw [length_filter_feeds hN]
  omega

/-! ## The feeds of a GEMM as inputs of the array -/

/-- The left inputs of the array in tick `t` when it is fed the matrix `A` (44_gemm R193). -/
def rowFeed (K : ScalarOps S) (N : Nat) (A : Nat → Nat → S) (t r : Nat) : S :=
  if feeds N t r then A r (t - r) else K.zero

/-- The top inputs of the array in tick `t` when it is fed the matrix `B` (44_gemm R194). -/
def colFeed (K : ScalarOps S) (N : Nat) (B : Nat → Nat → S) (t c : Nat) : S :=
  if feeds N t c then B (t - c) c else K.zero

/-- The array after the first `t` ticks of a GEMM on the matrices `A` and `B`. -/
def gemmArray (K : ScalarOps S) (N : Nat) (A B : Nat → Nat → S) (t : Nat) : Grid S :=
  arrayRun K N (rowFeed K N A) (colFeed K N B) t

/-- The accumulator of the PE (r, c) after the first `t` ticks. -/
def accAfter (K : ScalarOps S) (N : Nat) (A B : Nat → Nat → S) (r c t : Nat) : S :=
  (Grid.at K (gemmArray K N A B t) r c).acc

variable (K : ScalarOps S) {N : Nat} (A B : Nat → Nat → S)

/-- Row r feeds A[r][k] in tick r + k, so the PE in column c sees it in tick r + c + k. -/
theorem delayed_rowFeed (r c t : Nat) :
    delayed K (fun i => rowFeed K N A i r) c t = if feeds N t (r + c) then A r (t - (r + c)) else K.zero := by
  have hiff : (c ≤ t ∧ feeds N (t - c) r = true) ↔ feeds N t (r + c) = true := by
    simp only [feeds_iff]
    omega
  have hk : t - c - r = t - (r + c) := by omega
  simp only [delayed, rowFeed, hk, ← ite_and, hiff]

/-- Column c feeds B[k][c] in tick c + k, so the PE in row r sees it in tick r + c + k. -/
theorem delayed_colFeed (r c t : Nat) :
    delayed K (fun i => colFeed K N B i c) r t = if feeds N t (r + c) then B (t - (r + c)) c else K.zero := by
  have hiff : (r ≤ t ∧ feeds N (t - r) c = true) ↔ feeds N t (r + c) = true := by
    simp only [feeds_iff]
    omega
  have hk : t - r - c = t - (r + c) := by omega
  simp only [delayed, colFeed, hk, ← ite_and, hiff]

/-- In tick t the PE (r, c) meets A[r][k] and B[k][c] for k = t − r − c, and zeros where there is no such k. -/
theorem gemmArray_succ_at (t : Nat) {r c : Nat} (hr : r < N) (hc : c < N) :
    let a := if feeds N t (r + c) then A r (t - (r + c)) else K.zero
    let b := if feeds N t (r + c) then B (t - (r + c)) c else K.zero
    Grid.at K (gemmArray K N A B (t + 1)) r c =
      { acc := mac K (Grid.at K (gemmArray K N A B t) r c).acc a b, a := a, b := b } := by
  simp only [gemmArray, arrayRun_succ_at K _ _ t hr hc, arrayRun_horizontalIn K _ _ t hr hc,
    arrayRun_verticalIn K _ _ t hr hc, delayed_rowFeed, delayed_colFeed]

/-! ## The accumulators of a GEMM -/

/-- `n` ticks without operands: each adds the product of two zeros. -/
def idleTicks (n : Nat) (acc : S) : S := (fun x => mac K x K.zero K.zero)^[n] acc

section

variable {r c : Nat} (hr : r < N) (hc : c < N)
include hr hc

theorem accAfter_zero : accAfter K N A B r c 0 = K.zero := congrArg PE.acc (arrayReset_at K hr hc)

theorem accAfter_succ_idle {t : Nat} (h : ¬ feeds N t (r + c) = true) :
    accAfter K N A B r c (t + 1) = mac K (accAfter K N A B r c t) K.zero K.zero := by
  rw [accAfter, gemmArray_succ_at K A B t hr hc, if_neg h, if_neg h, accAfter]

theorem accAfter_succ_fed {k : Nat} (hk : k < N) :
    accAfter K N A B r c (r + c + k + 1) = mac K (accAfter K N A B r c (r + c + k)) (A r k) (B k c) := by
  have hfed : feeds N (r + c + k) (r + c) = true := feeds_iff.2 (by omega)
  rw [accAfter, gemmArray_succ_at K A B _ hr hc, if_pos hfed, if_pos hfed, Nat.add_sub_cancel_left, accAfter]

/-- Before the first operands arrive the accumulator stays zero. -/
theorem accAfter_of_le (hzero : mac K K.zero K.zero K.zero = K.zero) {t : Nat} (ht : t ≤ r + c) :
    accAfter K N A B r c t = K.zero := by
  induction t with
  | zero => exact accAfter_zero K A B hr hc
  | succ t ih =>
    rw [accAfter_succ_idle K A B hr hc (by rw [feeds_iff]; omega), ih (by omega), hzero]

/-- Then it takes one product per tick, k ascending. -/
theorem accAfter_add (hzero : mac K K.zero K.zero K.zero = K.zero) {k : Nat} (hk : k ≤ N) :
    accAfter K N A B r c (r + c + k) = gemmSum K A B r c k := by
  induction k with
  | zero => exact accAfter_of_le K A B hr hc hzero le_rfl
  | succ k ih => rw [← Nat.add_assoc, accAfter_succ_fed K A B hr hc hk, ih (by omega), gemmSum]

/-- And after its N products only zeros come. -/
theorem accAfter_add_idle (hzero : mac K K.zero K.zero K.zero = K.zero) (n : Nat) :
    accAfter K N A B r c (r + c + N + n) = idleTicks K n (gemmSum K A B r c N) := by
  induction n with
  | zero => exact accAfter_add K A B hr hc hzero le_rfl
  | succ n ih =>
    rw [← Nat.add_assoc, accAfter_succ_idle K A B hr hc (by rw [feeds_iff]; omega), ih, idleTicks, idleTicks,
      Function.iterate_succ_apply']

/-- R199, exactly: after 2N − 1 ticks the accumulator is the truncated sum, to which the ticks after its last product
have added zeros. -/
theorem accAfter_gemm (hzero : mac K K.zero K.zero K.zero = K.zero) :
    accAfter K N A B r c (gemmTicks N) = idleTicks K (N - 1 - (r + c)) (gemmEntry K N A B r c) := by
  have hdef : gemmTicks N = 2 * N - 1 := rfl
  have hlast : lastTerm N r c = min (N - 1) (2 * N - 2 - r - c) := rfl
  by_cases hidle : r + c + N ≤ gemmTicks N
  · have hticks : gemmTicks N = r + c + N + (N - 1 - (r + c)) := by omega
    have hterms : lastTerm N r c + 1 = N := by omega
    rw [hticks, accAfter_add_idle K A B hr hc hzero, gemmEntry, hterms]
  · have hticks : gemmTicks N = r + c + (lastTerm N r c + 1) := by omega
    have hnone : N - 1 - (r + c) = 0 := by omega
    rw [hticks, accAfter_add K A B hr hc hzero (by omega), hnone]
    rfl

/-- The operands of the last tick: those with k = 2N − 2 − r − c, on and below the anti-diagonal (44_gemm R204). -/
theorem gemmArray_last_operands :
    (Grid.at K (gemmArray K N A B (gemmTicks N)) r c).a =
        (if N - 1 ≤ r + c then A r (2 * N - 2 - r - c) else K.zero) ∧
      (Grid.at K (gemmArray K N A B (gemmTicks N)) r c).b =
        (if N - 1 ≤ r + c then B (2 * N - 2 - r - c) c else K.zero) := by
  have hticks : gemmTicks N = 2 * N - 2 + 1 := by simp only [gemmTicks]; omega
  have hfed : feeds N (2 * N - 2) (r + c) = true ↔ N - 1 ≤ r + c := by rw [feeds_iff]; omega
  rw [hticks, gemmArray_succ_at K A B _ hr hc]
  simp only [hfed, Nat.sub_sub, Nat.add_assoc, and_self]

end

/-! ## The truncated sum over BINARY64 and over REAL -/

theorem mac_binary64_zero :
    mac Binary64.ops Binary64.ops.zero Binary64.ops.zero Binary64.ops.zero = Binary64.ops.zero := by
  decide +kernel

/-- A sum that starts at +0 is never −0 (R199). -/
theorem gemmSum_ne_negZero (A B : Nat → Nat → Scalar) (r c k : Nat) :
    gemmSum Binary64.ops A B r c k ≠ 0x8000000000000000#64 := by
  induction k with
  | zero => exact (by decide : Binary64.posZero ≠ 0x8000000000000000#64)
  | succ k ih => exact fun h => ih (Binary64.eq_negZero_of_add h).1

/-- Ticks without operands change at most which NaN an accumulator is. -/
theorem idleTicks_binary64 {x : Scalar} (hx : x ≠ 0x8000000000000000#64) (n : Nat) :
    Binary64.same (idleTicks Binary64.ops n x) x ∧ idleTicks Binary64.ops n x ≠ 0x8000000000000000#64 := by
  induction n with
  | zero => exact ⟨.refl x, hx⟩
  | succ n ih =>
    obtain ⟨hsame, hne⟩ := ih
    have hmul : Binary64.mul 0#64 0#64 = 0#64 := by decide +kernel
    have hstep : idleTicks Binary64.ops (n + 1) x = Binary64.add (idleTicks Binary64.ops n x) 0#64 := by
      rw [← hmul, idleTicks, Function.iterate_succ_apply']
      rfl
    rw [hstep]
    exact ⟨(Binary64.add_zero_same hne).trans hsame, fun h => hne (Binary64.eq_negZero_of_add h).1⟩

theorem accAfter_gemm_same {N r c : Nat} (A B : Nat → Nat → Scalar) (hr : r < N) (hc : c < N) :
    Binary64.same (accAfter Binary64.ops N A B r c (gemmTicks N)) (gemmEntry Binary64.ops N A B r c) := by
  rw [accAfter_gemm Binary64.ops A B hr hc mac_binary64_zero]
  exact (idleTicks_binary64 (gemmSum_ne_negZero A B r c _) _).1

theorem gemmEntry_real (N : Nat) (A B : Nat → Nat → ℝ) (r c : Nat) :
    gemmEntry realOps N A B r c = ∑ k ∈ Finset.range (lastTerm N r c + 1), A r k * B k c := by
  rw [gemmEntry]
  induction lastTerm N r c + 1 with
  | zero => rfl
  | succ k ih => rw [Finset.sum_range_succ, gemmSum, ih]; rfl

theorem idleTicks_real (n : Nat) (x : ℝ) : idleTicks realOps n x = x := by
  have hid : (fun x => mac realOps x realOps.zero realOps.zero) = id := by
    funext x
    simp [mac, realOps]
  rw [idleTicks, hid, Function.iterate_id, id]

theorem accAfter_gemm_real {N r c : Nat} (A B : Nat → Nat → ℝ) (hr : r < N) (hc : c < N) :
    accAfter realOps N A B r c (gemmTicks N) = gemmEntry realOps N A B r c := by
  rw [accAfter_gemm realOps A B hr hc (by simp [mac, realOps]), idleTicks_real]

/-! ## When the truncated sum is the product -/

/-- R200: an entry is short of the product by the products that the ticks miss. -/
theorem gemmEntry_add_missed {N r c : Nat} (A B : Nat → Nat → ℝ) (hr : r < N) (hc : c < N) :
    gemmEntry realOps N A B r c + ∑ k ∈ Finset.Ico (2 * N - 1 - r - c) N, A r k * B k c =
      ∑ k ∈ Finset.range N, A r k * B k c := by
  rw [gemmEntry_real]
  by_cases hmiss : N ≤ r + c
  · have hterms : lastTerm N r c + 1 = 2 * N - 1 - r - c := by simp only [lastTerm]; omega
    rw [hterms]
    exact Finset.sum_range_add_sum_Ico _ (by omega)
  · have hterms : lastTerm N r c + 1 = N := by simp only [lastTerm]; omega
    rw [hterms, Finset.Ico_eq_empty (by omega), Finset.sum_empty, add_zero]

/-- Settles O27, by the missed products; an entry with r + c < N misses none. -/
theorem realGemmIsProductIff : Obligations.RealGemmIsProductIff := by
  unfold Obligations.RealGemmIsProductIff
  intro N A B _
  refine forall₂_congr fun r hr => forall₂_congr fun c hc => ?_
  rw [← gemmEntry_add_missed A B hr hc, left_eq_add]
  refine ⟨fun h _ => h, fun h => ?_⟩
  by_cases hmiss : N ≤ r + c
  · exact h hmiss
  · rw [Finset.Ico_eq_empty (by omega), Finset.sum_empty]

/-- R200 (iii): it is enough that every missed product is zero. -/
theorem gemmEntry_eq_product {N : Nat} {A B : Nat → Nat → ℝ}
    (hmissed : ∀ r < N, ∀ c < N, ∀ k < N, 2 * N - 2 < r + c + k → A r k * B k c = 0) {r c : Nat} (hr : r < N)
    (hc : c < N) : gemmEntry realOps N A B r c = ∑ k ∈ Finset.range N, A r k * B k c := by
  rw [← gemmEntry_add_missed A B hr hc, left_eq_add]
  refine Finset.sum_eq_zero fun k hk => ?_
  rw [Finset.mem_Ico] at hk
  exact hmissed r hr c hc k hk.2 (by omega)

/-- Settles O28: under each condition every missed product is zero. -/
theorem realGemmIsProductWhen : Obligations.RealGemmIsProductWhen := by
  unfold Obligations.RealGemmIsProductWhen
  intro N A B _ hcond r hr c hc
  refine gemmEntry_eq_product (fun r hr c hc k hk hlate => ?_) hr hc
  obtain rfl | ⟨m, -, hm, hblock⟩ | hzero := hcond
  · omega
  · -- one of r, c, k is at least m, so an operand of the product lies outside the block
    obtain hA | hcm : (m ≤ r ∨ m ≤ k) ∨ m ≤ c := by omega
    · rw [(hblock r hr k hk hA).1, zero_mul]
    · rw [(hblock k hk c hc (.inr hcm)).2, mul_zero]
  · exact hzero r hr c hc k hk hlate

end Sys2Proof
end

section
/-!
The run of a GEMM (44_gemm R192 to R206), over any scalar type. `AtTick` is what holds before each tick: the array has
done the ticks before it, and the banks are as they were at the fetch. The fetch cycle begins it, every tick but the
last keeps it, and the last one gives `GemmDone`.
-/

namespace Sys2Proof.Npu

variable {S : Type} [DecidableEq S]

/-! ## Runs over any scalar type -/

/-- One step more at the end of a run. -/
theorem runSteps_succ (K : ScalarOps S) (k : Nat) (s : State S) :
    runSteps K (k + 1) s = stepEffect K (runSteps K k s) := by
  induction k generalizing s with
  | zero => rfl
  | succ k ih => exact ih (stepEffect K s)

theorem stepEffect_of_tick (K : ScalarOps S) {s : State S} {o : GemmOp} (hstatus : s.status ≠ .finished)
    (hop : s.op = some o) : stepEffect K s = endStep s (.tick o) (gemmTick K o (beginStep s)) := by
  have hterm : terminal s = false := by simp [terminal, hstatus, hop]
  simp only [stepEffect, hterm, hop, Bool.false_eq_true, if_false]

theorem stepEffect_of_fetch (K : ScalarOps S) {s : State S} {i : Instr} (hstatus : s.status ≠ .finished)
    (hop : s.op = none) (hi : s.prog[s.pc]? = some i) :
    stepEffect K s = endStep s (.instr i) (instrEffect K i (beginStep s)) := by
  obtain ⟨hpc, -⟩ := List.getElem?_eq_some_iff.1 hi
  have hterm : terminal s = false := by simp [terminal, hstatus, hpc]
  simp only [stepEffect, hterm, hop, fetch, hi, Bool.false_eq_true, if_false]

/-! ## The cells after the last tick -/

theorem gemmTick_peek_entry (K : ScalarOps S) {o : GemmOp} (h : o.tick = o.total - 1) (s : State S) {i j : Nat}
    (hi : i < s.cfg.N) (hj : j < s.cfg.N) (hcap : resultAddr s.cfg.N o i j < s.cfg.bufCap) :
    peek K .buf (resultAddr s.cfg.N o i j) (gemmTick K o s) = (Grid.at K (gemmTick K o s).pe i j).acc := by
  rw [gemmTick_pe, gemmTick_last K h]
  exact afterResult_peek_entry K o s hi hj hcap

theorem gemmTick_peek_outside (K : ScalarOps S) {o : GemmOp} (h : o.tick = o.total - 1) (s : State S) {a : Nat}
    (ha : ¬ (o.addrC ≤ a ∧ a < o.addrC + s.cfg.N * s.cfg.N)) :
    peek K .buf a (gemmTick K o s) = peek K .buf a s := by
  rw [gemmTick_last K h]
  exact afterResult_peek_outside K o s ha

/-! ## The ticks of a GEMM -/

variable (K : ScalarOps S) (addrA addrB addrC : Nat)

/-- The sub-state before tick `k`. -/
def gemmOpAt (N k : Nat) : GemmOp := { gemmOpOf N addrA addrB addrC with tick := k }

theorem gemmOpAt_last_iff {N : Nat} (hN : 0 < N) (k : Nat) :
    (gemmOpAt addrA addrB addrC N k).tick = (gemmOpAt addrA addrB addrC N k).total - 1 ↔ k + 1 = gemmTicks N := by
  simp only [gemmOpAt, gemmOpOf, gemmTicks]
  omega

/-- The array after the first `k` ticks of a GEMM whose operands stand in the buffer of `s`. -/
def gemmArrayAfter (s : State S) (k : Nat) : Grid S :=
  gemmArray K s.cfg.N (operand K s addrA) (operand K s addrB) k

/-- `u` is ready for tick `k` of the GEMM fetched in `s`: the array has done the `k` ticks before, and the banks are as
they were (44_gemm R197, R205). -/
structure AtTick (s : State S) (k : Nat) (u : State S) : Prop where
  cfg : u.cfg = s.cfg
  main : u.main = s.main
  buf : u.buf = s.buf
  pc : u.pc = s.pc
  cycle : u.cycle = s.cycle + k
  status : u.status = .running
  op : u.op = some (gemmOpAt addrA addrB addrC s.cfg.N k)
  pe : u.pe = gemmArrayAfter K addrA addrB s k

/-- `u` has done all ticks of the GEMM fetched in `s` and holds its result, which are the accumulators
(44_gemm R196). -/
structure GemmDone (s u : State S) : Prop where
  main : u.main = s.main
  pc : u.pc = s.pc + 1
  cycle : u.cycle = s.cycle + gemmTicks s.cfg.N
  status : u.status = .running
  op : u.op = none
  pe : u.pe = gemmArrayAfter K addrA addrB s (gemmTicks s.cfg.N)
  result : ∀ r < s.cfg.N, ∀ c < s.cfg.N, matrixAddr s.cfg.N addrC r c < s.cfg.bufCap →
    peek K .buf (matrixAddr s.cfg.N addrC r c) u = (Grid.at K u.pe r c).acc
  outside : ∀ a, ¬ (addrC ≤ a ∧ a < addrC + s.cfg.N * s.cfg.N) → peek K .buf a u = peek K .buf a s

variable {K addrA addrB addrC} {s u v : State S} {k : Nat}

omit [DecidableEq S] in
/-- The feeds are the operands as they stood at the fetch: no tick before has written the buffer (44_gemm R201). -/
theorem AtTick.feeds (h : AtTick K addrA addrB addrC s k u) :
    leftFeed K (gemmOpAt addrA addrB addrC s.cfg.N k) u = rowFeed K s.cfg.N (operand K s addrA) k ∧
      topFeed K (gemmOpAt addrA addrB addrC s.cfg.N k) u = colFeed K s.cfg.N (operand K s addrB) k := by
  have hpeek (a : Nat) : peek K .buf a u = peek K .buf a s := peek_congr K h.cfg .buf h.buf a
  constructor <;> funext r
  · simp only [leftFeed, h.cfg, hpeek]
    rfl
  · simp only [topFeed, h.cfg, hpeek]
    rfl

/-- Every tick takes the array one tick on. -/
theorem AtTick.gemmTick_pe (h : AtTick K addrA addrB addrC s k u) :
    (gemmTick K (gemmOpAt addrA addrB addrC s.cfg.N k) u).pe = gemmArrayAfter K addrA addrB s (k + 1) := by
  obtain ⟨hleft, htop⟩ := h.feeds
  rw [Npu.gemmTick_pe, hleft, htop, h.cfg, h.pe]
  rfl

omit [DecidableEq S] in
theorem AtTick.beginStep (h : AtTick K addrA addrB addrC s k u) :
    AtTick K addrA addrB addrC s k (Npu.beginStep u) :=
  ⟨h.cfg, h.main, h.buf, h.pc, h.cycle, rfl, h.op, h.pe⟩

theorem AtTick.next (h : AtTick K addrA addrB addrC s k u) (hk : k + 1 < gemmTicks s.cfg.N) (w : Work) :
    AtTick K addrA addrB addrC s (k + 1) (endStep v w (gemmTick K (gemmOpAt addrA addrB addrC s.cfg.N k) u)) := by
  have hnotLast := mt (gemmOpAt_last_iff addrA addrB addrC s.cfg.N_pos k).1 hk.ne
  obtain ⟨hcfg, -, hstatus, hcycle, -⟩ := gemmTick_frame K (gemmOpAt addrA addrB addrC s.cfg.N k) u
  obtain ⟨hop, hpc⟩ := gemmTick_control_notLast K hnotLast u
  exact
    { cfg := hcfg.trans h.cfg
      main := (gemmTick_main K _ u).trans h.main
      buf := (gemmTick_buf_notLast K hnotLast u).trans h.buf
      pc := hpc.trans h.pc
      cycle := congrArg (· + 1) (hcycle.trans h.cycle)
      status := hstatus.trans h.status
      op := hop
      pe := h.gemmTick_pe }

theorem AtTick.done (h : AtTick K addrA addrB addrC s k u) (hk : k + 1 = gemmTicks s.cfg.N) (w : Work) :
    GemmDone K addrA addrB addrC s (endStep v w (gemmTick K (gemmOpAt addrA addrB addrC s.cfg.N k) u)) := by
  have hlast := (gemmOpAt_last_iff addrA addrB addrC s.cfg.N_pos k).2 hk
  obtain ⟨hcfg, -, hstatus, hcycle, -⟩ := gemmTick_frame K (gemmOpAt addrA addrB addrC s.cfg.N k) u
  obtain ⟨hop, hpc⟩ := gemmTick_control_last K hlast u
  exact
    { main := (gemmTick_main K _ u).trans h.main
      pc := hpc.trans (congrArg (· + 1) h.pc)
      cycle := (congrArg (· + 1) (hcycle.trans h.cycle)).trans (by rw [Nat.add_assoc, hk])
      status := hstatus.trans h.status
      op := hop
      pe := h.gemmTick_pe.trans (by rw [hk])
      result := fun r hr c hc hcap => by
        rw [← h.cfg] at hr hc hcap
        have hentry := gemmTick_peek_entry K hlast u hr hc hcap
        rwa [h.cfg] at hentry
      outside := fun a ha => by
        rw [← h.cfg] at ha
        exact (gemmTick_peek_outside K hlast u ha).trans (peek_congr K h.cfg .buf h.buf a) }

/-! ## The run of a GEMM -/

section

variable (hstatus : s.status ≠ .finished) (hop : s.op = none) (hi : s.prog[s.pc]? = some (.gemm addrA addrB addrC))
include hstatus hop hi

/-- The fetch cycle is tick 0 from the reset array, and every later step is one tick more (44_gemm R192, R197). -/
theorem runSteps_eq_tick (hk : k < gemmTicks s.cfg.N) :
    ∃ v w u, AtTick K addrA addrB addrC s k u ∧
      runSteps K (k + 1) s = endStep v w (gemmTick K (gemmOpAt addrA addrB addrC s.cfg.N k) u) := by
  induction k with
  | zero =>
    exact ⟨s, _, startGemm K addrA addrB addrC (beginStep s), ⟨rfl, rfl, rfl, rfl, rfl, rfl, rfl, rfl⟩,
      stepEffect_of_fetch K hstatus hop hi⟩
  | succ k ih =>
    obtain ⟨v, w, u, hu, hrun⟩ := ih (by omega)
    have hnext := hu.next (v := v) hk w
    rw [← hrun] at hnext
    have hstep := stepEffect_of_tick K (by rw [hnext.status]; nofun) hnext.op
    exact ⟨_, _, _, hnext.beginStep, (runSteps_succ K (k + 1) s).trans hstep⟩

theorem runSteps_atTick (hpos : 0 < k) (hk : k < gemmTicks s.cfg.N) :
    AtTick K addrA addrB addrC s k (runSteps K k s) := by
  obtain ⟨j, rfl⟩ := Nat.exists_eq_add_one.2 hpos
  obtain ⟨v, w, u, hu, hrun⟩ := runSteps_eq_tick (K := K) hstatus hop hi (Nat.lt_of_succ_lt hk)
  rw [hrun]
  exact hu.next hk w

theorem runSteps_gemmDone : GemmDone K addrA addrB addrC s (runSteps K (gemmTicks s.cfg.N) s) := by
  have hN := s.cfg.N_pos
  have hticks : gemmTicks s.cfg.N - 1 + 1 = gemmTicks s.cfg.N := by simp only [gemmTicks]; omega
  obtain ⟨v, w, u, hu, hrun⟩ := runSteps_eq_tick (K := K) hstatus hop hi (k := gemmTicks s.cfg.N - 1) (by omega)
  rw [hticks] at hrun
  rw [hrun]
  exact hu.done hticks w

end

end Sys2Proof.Npu

namespace Sys2Proof.Machine

/-! ## The obligations about a GEMM of the machine -/

/-- Settles O17: the fetch cycle is the tick of the state with the array reset, whose sub-state the tick replaces. -/
theorem gemmFetchCycleIsTickZero : Obligations.GemmFetchCycleIsTickZero := by
  unfold Obligations.GemmFetchCycleIsTickZero
  intro addrA addrB addrC s
  have h := gemmTick_result (Npu.startGemm Binary64.ops addrA addrB addrC s)
    (Npu.gemmOpOf s.cfg.N addrA addrB addrC)
  exact ⟨_, rfl, ⟨h.grid, h.shape, h.notLast, h.last, h.reads, h.frame⟩, fun r hr c hc => arrayReset_at _ hr hc⟩

theorem run_eq_runSteps (k : Nat) (s : State) :
    Host.Core.run Sys2Proof.core k s = .next (Npu.runSteps Binary64.ops k s) := by
  induction k generalizing s with
  | zero => rfl
  | succ k ih => rw [run_succ, ih, Npu.runSteps]

/-- Settles O20: before the last tick the GEMM is at its next tick, and after it the GEMM is done. -/
theorem gemmTakesExactlyItsTicks : Obligations.GemmTakesExactlyItsTicks := by
  unfold Obligations.GemmTakesExactlyItsTicks
  intro s addrA addrB addrC ⟨hstatus, hop, hi⟩
  refine ⟨fun k hpos hk => ⟨_, run_eq_runSteps k s, ?_⟩, ⟨_, run_eq_runSteps _ s, ?_⟩⟩
  · have h := Npu.runSteps_atTick (K := Binary64.ops) hstatus hop hi hpos hk
    exact ⟨h.op, h.pc, h.cycle, h.buf⟩
  · have h := Npu.runSteps_gemmDone (K := Binary64.ops) hstatus hop hi
    exact ⟨h.op, h.pc, h.cycle, h.status⟩

/-- Settles O21: the result cells are the accumulators after the last tick. -/
theorem gemmWritesTruncatedProduct : Obligations.GemmWritesTruncatedProduct := by
  unfold Obligations.GemmWritesTruncatedProduct
  intro s addrA addrB addrC ⟨hstatus, hop, hi⟩
  have h := Npu.runSteps_gemmDone (K := Binary64.ops) hstatus hop hi
  refine ⟨_, run_eq_runSteps _ s, fun r hr c hc hcap => ?_, h.outside, h.main⟩
  have hcell := h.result r hr c hc hcap
  rw [h.pe] at hcell
  exact hcell ▸ accAfter_gemm_same _ _ hr hc

/-- Settles O22: the array after a GEMM is the array after all its ticks. -/
theorem gridAfterGemm : Obligations.GridAfterGemm := by
  unfold Obligations.GridAfterGemm
  intro s addrA addrB addrC ⟨hstatus, hop, hi⟩
  have h := Npu.runSteps_gemmDone (K := Binary64.ops) hstatus hop hi
  refine ⟨_, run_eq_runSteps _ s, fun r hr c hc => ?_⟩
  rw [← gemmTicks, h.pe]
  exact ⟨accAfter_gemm_same _ _ hr hc, gemmArray_last_operands Binary64.ops _ _ hr hc⟩

/-- Settles O26: over REAL the ticks after the last product add exact zeros. -/
theorem realGemmWritesPartialSums : Obligations.RealGemmWritesPartialSums := by
  unfold Obligations.RealGemmWritesPartialSums
  intro s addrA addrB addrC hstatus hop hi r hr c hc hcap
  have h := Npu.runSteps_gemmDone (K := realOps) hstatus hop hi
  calc _ = accAfter realOps s.cfg.N (operand realOps s addrA) (operand realOps s addrB) r c (gemmTicks s.cfg.N) :=
        (h.result r hr c hc hcap).trans (by rw [h.pe]; rfl)
    _ = gemmEntry realOps s.cfg.N (operand realOps s addrA) (operand realOps s addrB) r c :=
        accAfter_gemm_real _ _ hr hc
    _ = _ := gemmEntry_real ..

end Sys2Proof.Machine
end

section
/-!
The activation functions (45_activate R222 to R225, R227) over REAL and over BINARY64. Over BINARY64 each function's cases
are said once: a NaN gives a NaN, and what every other operand gives. The range of sigmoid follows from the order of
rounding: no value of at least 1 rounds below 1, and no quotient of at most 1 rounds above it.
-/

namespace Sys2Proof

/-- Settles O29, by Mathlib's bounds of the logistic function and of tanh; relu is an idempotent maximum. -/
theorem realActivationBounds : Obligations.RealActivationBounds := by
  unfold Obligations.RealActivationBounds
  intro x
  have hsigmoid : act realOps .sigmoid x = Real.sigmoid x := one_div _
  rw [hsigmoid]
  refine ⟨Real.sigmoid_pos x, Real.sigmoid_lt_one x, Real.neg_one_lt_tanh x, Real.tanh_lt_one x, ?_,
    max_eq_right (le_max_left 0 x)⟩
  exact max_def_lt ..

end Sys2Proof

namespace Sys2Proof.Binary64

/-! ## relu -/

theorem relu_isNaN {x : Scalar} (h : isNaN x = true) : isNaN (relu x) = true := by
  rw [relu, if_pos h]
  exact freeNaN_isNaN ..

theorem relu_of_positive {x : Scalar} (hnan : isNaN x = false) (hsign : sign x = false) (hzero : isZero x = false) :
    relu x = x := by
  simp [relu, hnan, hsign, hzero]

theorem relu_of_negative_or_zero {x : Scalar} (hnan : isNaN x = false) (h : sign x = true ∨ isZero x = true) :
    relu x = posZero := by
  simp [relu, hnan, h]

/-- R227: relu leaves its own results alone, up to which NaN (log 22). -/
theorem relu_relu_same (x : Scalar) : same (relu (relu x)) (relu x) := by
  cases hnan : isNaN x with
  | true => exact .inr ⟨relu_isNaN (relu_isNaN hnan), relu_isNaN hnan⟩
  | false =>
    by_cases h : sign x = true ∨ isZero x = true
    · rw [relu_of_negative_or_zero hnan h]
      exact .inl (relu_of_negative_or_zero (by decide) (.inr (by decide)))
    · simp only [not_or, Bool.not_eq_true] at h
      rw [relu_of_positive hnan h.1 h.2]
      exact .inl (relu_of_positive hnan h.1 h.2)

/-- Settles O30: the three cases of relu. -/
theorem reluOfEveryPattern : Obligations.ReluOfEveryPattern := by
  unfold Obligations.ReluOfEveryPattern
  exact fun x => ⟨relu_isNaN, relu_of_positive, relu_of_negative_or_zero, fun _ => rfl⟩

/-! ## tanh -/

theorem tanh_isNaN {x : Scalar} (h : isNaN x = true) : isNaN (tanh x) = true := by
  rw [tanh, if_pos h]
  exact freeNaN_isNaN ..

/-- R224: the result lies in [−1, 1], for the stated values and the free one. -/
theorem magnitude_tanh_le {x : Scalar} (hnan : isNaN x = false) : magnitude (tanh x) ≤ magnitude one := by
  have hone : magnitude one = 0x3FF0000000000000 := by decide
  rw [tanh, if_neg (by simp [hnan])]
  split
  case isTrue hzero =>
    rw [beq_iff_eq.1 hzero]
    exact Nat.zero_le _
  case isFalse =>
    split
    · exact (magnitude_pack _ (by decide)).le
    · have hfree := (Config.tanhMagnitude x).isLt
      rw [magnitude_pack _ (by omega), hone]
      omega

/-- Settles O32: the special cases of tanh. -/
theorem tanhStatedValues : Obligations.TanhStatedValues := by
  unfold Obligations.TanhStatedValues
  refine ⟨?_, ?_, ?_, ?_, fun x => tanh_isNaN⟩ <;> decide +kernel

/-! ## Negation and EXP -/

theorem magnitude_neg (x : Scalar) : magnitude (neg x) = magnitude x := by
  have hsplit : (0x8000000000000000#64).toNat = 2 ^ 63 := rfl
  rw [magnitude, magnitude, neg, BitVec.toNat_xor, hsplit, Nat.xor_mod_two_pow, Nat.mod_self, Nat.xor_zero]

theorem isNaN_neg (x : Scalar) : isNaN (neg x) = isNaN x := by rw [isNaN, isNaN, magnitude_neg]

theorem exp_isNaN {x : Scalar} (h : isNaN x = true) : isNaN (exp x) = true := by
  rw [exp, if_pos h]
  exact freeNaN_isNaN ..

/-- R223: EXP gives a value in [+0, +∞], for the stated values and the free one (log 5). -/
theorem exp_range {x : Scalar} (hnan : isNaN x = false) : sign (exp x) = false ∧ magnitude (exp x) ≤ infMagnitude := by
  rw [exp, if_neg (by simp [hnan])]
  split
  · decide
  · split
    · split <;> decide
    · have hfree := (Config.expFinite x).isLt
      rw [sign_pack _ (by omega), magnitude_pack _ (by omega)]
      exact ⟨rfl, by simp only [infMagnitude]; omega⟩

/-! ## sigmoid -/

theorem add_isNaN {x y : Scalar} (h : isNaN x = true ∨ isNaN y = true) : isNaN (add x y) = true := by
  rw [add, if_pos (by simpa using h)]
  exact freeNaN_isNaN ..

theorem div_isNaN {x y : Scalar} (h : isNaN x = true ∨ isNaN y = true) : isNaN (div x y) = true := by
  simp only [div]
  rw [if_pos (by simpa using h)]
  exact freeNaN_isNaN ..

theorem sigmoid_isNaN {x : Scalar} (h : isNaN x = true) : isNaN (sigmoid x) = true :=
  div_isNaN (.inr (add_isNaN (.inr (exp_isNaN ((isNaN_neg x).trans h)))))

/-- Settles O31: the special cases of EXP, and the formula of sigmoid evaluated on them. -/
theorem sigmoidStatedValues : Obligations.SigmoidStatedValues := by
  unfold Obligations.SigmoidStatedValues
  refine ⟨?_, ?_, ?_, ?_, fun x => exp_isNaN, fun x => rfl, ?_, ?_, ?_, ?_, fun x => sigmoid_isNaN⟩ <;> decide +kernel

/-- No quotient of at least the value of `m` rounds below `m`. -/
theorem le_roundMagnitude {m num den : Nat} (hden : 0 < den) (hm : m ≤ infMagnitude) (h : unitsOf m * den ≤ num) :
    m ≤ roundMagnitude num den := by
  obtain ⟨lo, -, hhi, hround⟩ := roundMagnitude_eq_neighbour num hden
  have hlo : m < lo + 1 := (unitsOf_mul_strictMono hden).lt_iff_lt.1 (h.trans_lt hhi)
  rw [hround, le_min_iff]
  exact ⟨by split <;> omega, hm⟩

/-- No quotient of at most the value of `m` rounds above `m`: the midpoint above `m` is beyond it. -/
theorem roundMagnitude_le {m num den : Nat} (hden : 0 < den) (h : num ≤ unitsOf m * den) :
    roundMagnitude num den ≤ m := by
  obtain ⟨lo, hlo, hhi, hround⟩ := roundMagnitude_eq_neighbour num hden
  have hle : lo ≤ m := (unitsOf_mul_strictMono hden).le_iff_le.1 (hlo.trans h)
  rw [hround]
  refine (min_le_left ..).trans ?_
  obtain rfl | hlt := hle.eq_or_lt
  · rw [if_neg (by omega)]
  · split <;> omega

theorem unitsOf_one : unitsOf (magnitude one) = 2 ^ 1074 := by decide +kernel

theorem signedUnits_of_nonneg {x : Scalar} (h : sign x = false) : signedUnits x = unitsOf (magnitude x) := by
  simp [signedUnits, h]

/-- The sum of a positive and a nonnegative finite value is the sum of their units, rounded. -/
theorem finiteSum_of_nonneg {x y : Scalar} (hx : sign x = false) (hy : sign y = false) (hpos : magnitude x ≠ 0) :
    finiteSum x y = pack false (roundMagnitude (unitsOf (magnitude x) + unitsOf (magnitude y)) 1) := by
  have hunits : unitsOf (magnitude x) ≠ 0 := mt unitsOf_eq_zero.1 hpos
  rw [finiteSum, signedUnits_of_nonneg hx, signedUnits_of_nonneg hy, ← Int.natCast_add, if_neg (by omega),
    decide_eq_false (by omega), Int.natAbs_natCast]

/-- One added to a value in [+0, +∞] is a value in [1, +∞]. -/
theorem one_add_range {y : Scalar} (hsign : sign y = false) (hmag : magnitude y ≤ infMagnitude) :
    sign (add one y) = false ∧ magnitude one ≤ magnitude (add one y) ∧ magnitude (add one y) ≤ infMagnitude := by
  have hnan1 : isNaN one = false := by decide
  have hinf1 : isInf one = false := by decide
  have hnan : isNaN y = false := decide_eq_false (Nat.not_lt.2 hmag)
  obtain ⟨hop, -⟩ | ⟨hinf, -⟩ | ⟨hinf, hadd⟩ | ⟨-, -, hadd⟩ := add_cases one y
  · simp [hnan1, hinf1, hnan] at hop
  · exact absurd (hinf1.symm.trans hinf) nofun
  · rw [hadd, beq_iff_eq.1 hinf]
    exact ⟨hsign, by decide, le_rfl⟩
  · have hround : roundMagnitude (unitsOf (magnitude one) + unitsOf (magnitude y)) 1 ≤ infMagnitude :=
      Nat.min_le_right ..
    have hlt := hround.trans_lt (show infMagnitude < 2 ^ 63 by decide)
    rw [hadd, finiteSum_of_nonneg (by decide) hsign (by decide), sign_pack _ hlt, magnitude_pack _ hlt]
    exact ⟨rfl, le_roundMagnitude Nat.one_pos (by decide) (by omega), hround⟩

/-- One divided by a value in [1, +∞] is a value in [0, 1]. -/
theorem one_div_range {z : Scalar} (hsign : sign z = false) (hone : magnitude one ≤ magnitude z)
    (hmag : magnitude z ≤ infMagnitude) : sign (div one z) = false ∧ magnitude (div one z) ≤ magnitude one := by
  have hnan1 : isNaN one = false := by decide
  have hinf1 : isInf one = false := by decide
  have hzero1 : isZero one = false := by decide
  have hsign1 : sign one = false := by decide
  have hone' : magnitude one = 0x3FF0000000000000 := by decide
  have hnan : isNaN z = false := decide_eq_false (Nat.not_lt.2 hmag)
  have hzero : isZero z = false := beq_false_of_ne (by omega)
  have hle : unitsOf (magnitude one) ≤ unitsOf (magnitude z) := unitsOf_strictMono.monotone hone
  have hdiv : ∃ m ≤ magnitude one, div one z = pack false m := by
    simp only [div, hnan1, hnan, hinf1, hzero1, hzero, hsign1, hsign, Bool.or_self, Bool.false_eq_true, if_false,
      bne_self_eq_false]
    split
    · exact ⟨0, Nat.zero_le _, rfl⟩
    · refine ⟨_, roundMagnitude_le ?_ ?_, rfl⟩
      · exact Nat.pos_of_ne_zero (mt unitsOf_eq_zero.1 (beq_eq_false_iff_ne.1 hzero))
      · rw [← unitsOf_one]
        exact Nat.mul_le_mul_left _ hle
  obtain ⟨m, hm, hdiv⟩ := hdiv
  rw [hdiv, sign_pack _ (by omega), magnitude_pack _ (by omega)]
  exact ⟨rfl, hm⟩

/-- Settles O33: EXP is in [+0, +∞], so the denominator of sigmoid is in [1, +∞] and its quotient in [0, 1]. -/
theorem binaryActivationBounds : Obligations.BinaryActivationBounds := by
  unfold Obligations.BinaryActivationBounds
  intro x hnan
  obtain ⟨hexpSign, hexpMag⟩ := exp_range ((isNaN_neg x).trans hnan)
  obtain ⟨hsumSign, hsumOne, hsumMag⟩ := one_add_range hexpSign hexpMag
  obtain ⟨hsign, hmag⟩ := one_div_range hsumSign hsumOne hsumMag
  exact ⟨hsign, hmag, magnitude_tanh_le hnan⟩

end Sys2Proof.Binary64
end

section
/-!
ACTIVATE (45_activate R221, R226): what it makes of the state is said once, for every function, and both obligations
about the instruction are read off it.
-/

namespace Sys2Proof.Npu

variable {S : Type} [DecidableEq S]

/-- The element loop accesses the buffer only. -/
theorem activateLoop_sets_main (K : ScalarOps S) (f : S → S) (addr size : Nat) (s : State S) :
    readSet .main (forRange size (activateElem K f addr) s) = readSet .main s ∧
      writeSet .main (forRange size (activateElem K f addr) s) = writeSet .main s :=
  ⟨forRange_frame (readSet .main) (fun i u => by simp [activateElem]) size s,
    forRange_frame (writeSet .main) (fun i u => by simp [activateElem]) size s⟩

end Sys2Proof.Npu

namespace Sys2Proof.Machine

/-- What ACTIVATE with `fn` on `size` cells from `addr` makes of the state `s`: `t` is the state after it. -/
structure ActivateResult (fn : ActFn) (addr size : Nat) (s t : State) : Prop where
  pc : t.pc = s.pc + 1
  main : t.main = s.main
  cells : ∀ a, Npu.peek Binary64.ops .buf a t =
    if addr ≤ a ∧ a < addr + size ∧ a < s.cfg.bufCap then act Binary64.ops fn (Npu.peek Binary64.ops .buf a s)
    else Npu.peek Binary64.ops .buf a s
  reads : ∀ a, a ∈ t.bufRd ↔ a ∈ s.bufRd ∨ (addr ≤ a ∧ a < addr + size)
  writes : ∀ a, a ∈ t.bufWr ↔ a ∈ s.bufWr ∨ (addr ≤ a ∧ a < addr + size)
  mainReads : t.mainRd = s.mainRd
  mainWrites : t.mainWr = s.mainWr
  diags : t.diags = s.diags ++ copyDiags s .buf .buf addr addr size
  frame : SameButAccess s t

theorem activateEffect_result (fn : ActFn) (addr size : Nat) (s : State) :
    ActivateResult fn addr size s (Npu.activateEffect Binary64.ops fn addr size s) where
  pc := congrArg (· + 1) (Npu.activateLoop_control Binary64.ops _ addr size s).pc
  main := Npu.activateLoop_main Binary64.ops _ addr size s
  cells a := by
    simpa [Npu.activateEffect] using Npu.activateLoop_peek Binary64.ops (act Binary64.ops fn) addr size s .buf a
  reads a :=
    (Npu.activateLoop_sets Binary64.ops _ addr size s .buf a).1.trans (or_congr_right (and_iff_right rfl))
  writes a :=
    (Npu.activateLoop_sets Binary64.ops _ addr size s .buf a).2.trans (or_congr_right (and_iff_right rfl))
  mainReads := (Npu.activateLoop_sets_main Binary64.ops _ addr size s).1
  mainWrites := (Npu.activateLoop_sets_main Binary64.ops _ addr size s).2
  diags := Npu.activateLoop_diags Binary64.ops _ addr size s
  frame :=
    have h := Npu.activateLoop_control Binary64.ops (act Binary64.ops fn) addr size s
    ⟨h.cfg, h.pe, h.prog, h.status, h.cycle, h.op, h.log⟩

theorem exec_activate_result (fn : ActFn) (addr size : Nat) (s : State) :
    ∃ t, exec (.activate fn addr size) s = .next t ∧ ActivateResult fn addr size s t :=
  ⟨_, rfl, activateEffect_result fn addr size s⟩

/-- Settles O14: `act` is the choice of the function. -/
theorem activateTransformsInPlace : Obligations.ActivateTransformsInPlace := by
  unfold Obligations.ActivateTransformsInPlace
  intro fn addr size s
  obtain ⟨t, hexec, h⟩ := exec_activate_result fn addr size s
  refine ⟨t, hexec, h.pc, h.main, ?_, h.reads, h.writes, h.mainReads, h.mainWrites, h.diags, h.frame⟩
  cases fn <;> exact h.cells

/-- Settles O34: a cell of the range holds relu of its value after the first ACTIVATE and relu of that after the
second; every other cell is as before. -/
theorem reluTwiceIsReluOnce : Obligations.ReluTwiceIsReluOnce := by
  unfold Obligations.ReluTwiceIsReluOnce
  refine ⟨Binary64.relu_relu_same, fun addr size s => ?_⟩
  obtain ⟨t, hfirst, h⟩ := exec_activate_result .relu addr size s
  obtain ⟨u, hsecond, k⟩ := exec_activate_result .relu addr size t
  have hcfg : t.cfg = s.cfg := h.frame.1
  refine ⟨t, u, hfirst, hsecond, fun a => ?_⟩
  rw [k.cells, hcfg]
  split
  case isTrue hrange =>
    rw [h.cells, if_pos hrange]
    exact Binary64.relu_relu_same _
  case isFalse => exact .refl _

end Sys2Proof.Machine
end

section
/-!
WAIT (46_control R240).
-/

namespace Sys2Proof.Machine

/-- WAIT is the pc update that every other completed instruction ends with, and nothing before it. -/
theorem exec_wait (s : State) : exec .wait s = .next (Npu.advancePc s) := exec_eq_effect .wait s

/-- Settles O15: `advancePc` is the update of the one field pc. -/
theorem waitOnlyAdvancesPc : Obligations.WaitOnlyAdvancesPc := by
  unfold Obligations.WaitOnlyAdvancesPc
  intro s
  rw [exec_wait, Npu.advancePc]

end Sys2Proof.Machine
end

section
/-!
Errors (60_exceptions R250). An out-of-range access and an unknown opcode are part of the effect of the step that meets
them: `step_eq_effect` gives every step as a total function of the state, and `run_eq_runSteps` every run.
-/

namespace Sys2Proof.Machine

/-- Settles O47: the state after `k` steps is that of the run over any scalar type, at BINARY64. -/
theorem steppingNeverStops : Obligations.SteppingNeverStops := by
  unfold Obligations.SteppingNeverStops
  intro k s
  exact ⟨Npu.runSteps Binary64.ops k s, run_eq_runSteps k s⟩

end Sys2Proof.Machine
end

section
/-!
Main memory and a GEMM (70_reset_and_hazards R293, 44_gemm R206). A tick reads and writes the buffer alone, so each of
its operations commutes with the replacement of the cells of main memory, and the tick itself does.
-/

namespace Sys2Proof.Npu

variable {S : Type}

/-- A loop commutes with what its rounds commute with. -/
theorem forRange_commute {σ : Type} (f : σ → σ) {body : Nat → σ → σ} (hbody : ∀ i u, body i (f u) = f (body i u))
    (n : Nat) (s : σ) : forRange n body (f s) = f (forRange n body s) :=
  forRange_rel (R := fun u v => v = f u) (fun i u _ huv => huv ▸ hbody i u) n rfl

theorem engineRead_buf_setMain (K : ScalarOps S) (a : Nat) (m : Memory S) (s : State S) :
    (engineRead K .buf a (setCells .main m s)).2 = setCells .main m (engineRead K .buf a s).2 := by
  have hcap : cap .buf (setCells .main m s) = cap .buf s := rfl
  simp only [engineRead, memRead, hcap]
  split <;> rfl

theorem readLeft_setMain (K : ScalarOps S) (o : GemmOp) (r : Nat) (m : Memory S) (s : State S) :
    readLeft K o r (setCells .main m s) = setCells .main m (readLeft K o r s) := by
  simp only [readLeft, setCells_cfg, engineRead_buf_setMain]
  split <;> rfl

theorem readTop_setMain (K : ScalarOps S) (o : GemmOp) (c : Nat) (m : Memory S) (s : State S) :
    readTop K o c (setCells .main m s) = setCells .main m (readTop K o c s) := by
  simp only [readTop, setCells_cfg, engineRead_buf_setMain]
  split <;> rfl

theorem readFeeds_setMain (K : ScalarOps S) (o : GemmOp) (m : Memory S) (s : State S) :
    readFeeds K o (setCells .main m s) = setCells .main m (readFeeds K o s) := by
  simp only [readFeeds, setCells_cfg, forRange_commute (setCells .main m) fun i u => readLeft_setMain K o i m u,
    forRange_commute (setCells .main m) fun i u => readTop_setMain K o i m u]

/-- The array's inputs come from the buffer, so its step is the same with other main cells (44_gemm R193, R194). -/
theorem afterFeeds_setMain (K : ScalarOps S) (o : GemmOp) (m : Memory S) (s : State S) :
    afterFeeds K o (setCells .main m s) = setCells .main m (afterFeeds K o s) := by
  rw [afterFeeds, readFeeds_setMain]
  rfl

variable [DecidableEq S]

theorem engineWrite_buf_setMain (K : ScalarOps S) (a : Nat) (v : S) (m : Memory S) (s : State S) :
    engineWrite K .buf a v (setCells .main m s) = setCells .main m (engineWrite K .buf a v s) := by
  have hcap : cap .buf (setCells .main m s) = cap .buf s := rfl
  simp only [engineWrite, memWrite, hcap]
  split <;> rfl

theorem writeResult_setMain (K : ScalarOps S) (o : GemmOp) (out : Nat → Nat → S) (m : Memory S) (s : State S) :
    writeResult K o out (setCells .main m s) = setCells .main m (writeResult K o out s) :=
  forRange_commute (setCells .main m)
    (fun i => forRange_commute (setCells .main m) (fun j u => engineWrite_buf_setMain K _ (out i j) m u) s.cfg.N)
    s.cfg.N s

theorem afterResult_setMain (K : ScalarOps S) (o : GemmOp) (m : Memory S) (s : State S) :
    afterResult K o (setCells .main m s) = setCells .main m (afterResult K o s) := by
  rw [afterResult, afterFeeds_setMain, writeResult_setMain]
  rfl

/-- A GEMM tick reads no main memory and writes none (44_gemm R206). -/
theorem gemmTick_setMain (K : ScalarOps S) (o : GemmOp) (m : Memory S) (s : State S) :
    gemmTick K o (setCells .main m s) = setCells .main m (gemmTick K o s) := by
  by_cases hlast : o.tick = o.total - 1
  · rw [gemmTick_last K hlast, gemmTick_last K hlast, afterResult_setMain]
    rfl
  · rw [gemmTick_notLast K hlast, gemmTick_notLast K hlast, afterFeeds_setMain]
    rfl

end Sys2Proof.Npu

namespace Sys2Proof.Machine

/-- Settles O56: the tick commutes with the other main cells, and of the rest of a step only the log entry sees them. -/
theorem mainMemoryDoesNotAffectGemm : Obligations.MainMemoryDoesNotAffectGemm := by
  unfold Obligations.MainMemoryDoesNotAffectGemm
  intro s o m hstatus hop
  have hterm : Npu.terminal s = false := by simp [Npu.terminal, hstatus, hop]
  have htick : Npu.gemmTick Binary64.ops o (Npu.beginStep { s with main := m }) =
      Npu.setCells .main m (Npu.gemmTick Binary64.ops o (Npu.beginStep s)) :=
    Npu.gemmTick_setMain Binary64.ops o m (Npu.beginStep s)
  refine ⟨_, _, step_of_tick hterm hop, step_of_tick (s := { s with main := m }) hterm hop, ?_⟩
  rw [htick]
  rfl

end Sys2Proof.Machine
end

section
/-!
Reset and loadProgram (70_reset_and_hazards R280 to R282): what the fresh state that each of them leaves holds.
-/

namespace Sys2Proof.Npu

variable {S : Type}

theorem peek_of_cells_nil (K : ScalarOps S) {b : BankId} {s : State S} (h : cells b s = []) (a : Nat) :
    peek K b a s = K.zero := by
  rw [peek, h, Memory.read_nil, ite_self]

/-- The array of a fresh state is the array after its reset (41_systolic_array R112). -/
theorem freshState_pe (K : ScalarOps S) (c : Config) (main : Memory S) (prog : List Instr) (status : Status) :
    (freshState K.zero c main prog status).pe = arrayReset K c.N :=
  (arrayReset_eq_replicate K c.N).symm

theorem freshState_at (K : ScalarOps S) {c : Config} (main : Memory S) (prog : List Instr) (status : Status)
    {r k : Nat} (hr : r < c.N) (hk : k < c.N) :
    Grid.at K (freshState K.zero c main prog status).pe r k = PE.zero K := by
  rw [freshState_pe]
  exact arrayReset_at K hr hk

end Sys2Proof.Npu

namespace Sys2Proof.Machine

theorem hostCommand_reset (s : State) :
    hostCommand .reset s = .next (Npu.freshState 0#64 s.cfg [] [] .idle, .done) := by
  rw [hostCommand, Npu.resetCommand_eq_fresh]
  rfl

theorem hostCommand_loadProgram_eq_fresh {p : List Instr} {s : State} (h : Npu.programFits s.cfg p = true) :
    hostCommand (.loadProgram p) s = .next (Npu.freshState 0#64 s.cfg s.main p .ready, .done) := by
  rw [hostCommand_loadProgram_of_fits h, Npu.installProgram_eq_fresh]
  rfl

/-- A program longer than the program store is refused, with no state to answer (R281). -/
theorem hostCommand_loadProgram_of_not_fits {p : List Instr} {s : State} (h : Npu.programFits s.cfg p = false) :
    hostCommand (.loadProgram p) s = .refused .programTooLong := by
  simp only [hostCommand, loadProgram, h, Bool.false_eq_true, if_false, withDone]

theorem programFits_eq_false {c : Config} {k : Nat} (hcap : c.progCap = some k) {p : List Instr} (hp : k < p.length) :
    Npu.programFits c p = false := by
  simp [Npu.programFits, hcap, hp]

/-- Settles O51: power-on is a fresh state with the empty program. -/
theorem powerOnMeetsInvariant : Obligations.PowerOnMeetsInvariant := by
  unfold Obligations.PowerOnMeetsInvariant
  exact inv_powerOn

/-- Settles O57: reset leaves the fresh state without main cells and program, which is the power-on state. -/
theorem resetGivesPowerOnState : Obligations.ResetGivesPowerOnState := by
  unfold Obligations.ResetGivesPowerOnState
  intro s
  have hcells : ∀ b, Npu.cells b (Npu.freshState 0#64 s.cfg [] [] .idle) = [] := fun | .main | .buf => rfl
  exact ⟨_, hostCommand_reset s, rfl, fun b => Npu.peek_of_cells_nil Binary64.ops (hcells b),
    fun r hr c hc => Npu.freshState_at Binary64.ops [] [] .idle hr hc,
    rfl, rfl, rfl, rfl, rfl, rfl, rfl, rfl, rfl, rfl, rfl⟩

/-- Settles O58: an admitted loadProgram leaves the fresh state with the program and the main cells of before, and no
program longer than the store fits. -/
theorem loadProgramKeepsOnlyMain : Obligations.LoadProgramKeepsOnlyMain := by
  unfold Obligations.LoadProgramKeepsOnlyMain
  refine fun p s => ⟨fun hfits => ?_, fun k hcap hlong =>
    hostCommand_loadProgram_of_not_fits (programFits_eq_false hcap hlong)⟩
  exact ⟨_, hostCommand_loadProgram_eq_fresh hfits, rfl, rfl, rfl,
    Npu.peek_of_cells_nil Binary64.ops rfl,
    fun r hr c hc => Npu.freshState_at Binary64.ops s.main p .ready hr hc,
    rfl, rfl, rfl, rfl, rfl, rfl, rfl, rfl, rfl⟩

end Sys2Proof.Machine
end
